-- ==== Sys2Proof/Word.lean ====
section
/-! DEFINITION. The widths of the block's words (spec 00_scope R10, R12; 20_memory R40; 30_encoding R60). -/

namespace Sys2Proof

/-- One byte of the frame buffer, and of a micro-operation's `VAL` field (R40, R64). -/
abbrev Byte := BitVec 8

/-- An address of the frame buffer, `FBUF_AW` = 16 bits wide (R11, R40). -/
abbrev Addr := BitVec 16

/-- A channel index as the command word and the ports carry it (R10, R61). -/
abbrev ChanId := BitVec 8

/-- A host command word on `CMD` (R60). -/
abbrev CmdWord := BitVec 64

/-- An internal micro-operation word (R60, R64). -/
abbrev UopWord := BitVec 24

/-- A 32-bit count or encapsulator result; read as two's complement where a rule says `sint32` (R12). -/
abbrev Count := BitVec 32

end Sys2Proof
end

