-- ==== Sys2Proof/Config.lean ====
section
/-! DEFINITION. What an implementation of the block fixes, and the values the spec leaves free
(00_scope R11; 93_implementation_defined U2 to U7, U14). An `opaque` constant here has no body, so no proof can
see a value for it. -/

namespace Sys2Proof

/-- `NCHAN - 1`, OPEN (R11, D7): eight bits, so that `1 <= NCHAN <= 256`. Log 1. -/
opaque Config.nchanLessOne : BitVec 8

/-- `NCHAN`, the number of channel engines (R9, R11). Log 1. -/
def Config.nchan : Nat := Config.nchanLessOne.toNat + 1

/-- `LINE_INIT[c]`, the line level of channel `c` after reset, OPEN (R11, R33, D10). Log 2. -/
opaque Config.lineInit : ChanId → Bool

/-- `FCS_FN`, the FCS calculator's pure function, OPEN (R11, R102, D16). Log 3. -/
opaque Config.fcsFn : List Byte → BitVec 16

/-- `ADEV_W - 1`, OPEN (R11, D22: at least 1). Log 4. -/
opaque Config.adevWidthLessOne : Nat

/-- `ADEV_W`, the width of an output-device identifier (R11). Log 4. -/
def Config.adevWidth : Nat := Config.adevWidthLessOne + 1

/-- The uninterpreted map under `ADEV_OF`. Log 4. -/
opaque Config.adevRaw : ChanId → Nat

/-- `ADEV_OF`, the output device of a channel, below `2^ADEV_W` (R11, R112, D22). Log 4. -/
def Config.adevOf (c : ChanId) : Nat := Config.adevRaw c % 2 ^ Config.adevWidth

/-- The encapsulator's `n`-th free answer on channel `c` (R138, U4: any value of `sint32`). Log 5. -/
opaque Config.fxResult : ChanId → Nat → Count

/-- What a byte of `FBUF` holds that the host has never written (R48, U6: any value). Log 6. -/
opaque Config.unwrittenByte : Addr → Byte

/-- The `n`-th free value read on channel `c` from a byte the host wrote inside the read window
(R175, U7: any value, drawn for each read). Log 7. -/
opaque Config.hazardByte : ChanId → Nat → Byte

/-- `FLAG`, the flag octet (R11, R84). -/
def Config.flag : Byte := 0x7E#8

/-- `STUFF_LIMIT`, the run of 1 bits after which a 0 is inserted (R11, R88). -/
def Config.stuffLimit : BitVec 3 := 5#3

/-- The code of the one warning, FX25_FALLBACK (R140). -/
def Config.fx25Fallback : BitVec 8 := 0x01#8

end Sys2Proof
end

