-- ==== Sys2Proof/Syntax.lean ====
section
/-! DEFINITION. The instructions: one constructor per row of spec/opcode_table.json, with every operand field of
its word (30_encoding R61, R63, R64), and the names decoding can answer with (60_exceptions R150; 30_encoding R64). -/

namespace Sys2Proof

/-- The operand fields of a `CMD` word (R61). Every command word carries them all; R63 says which a command reads. -/
structure CmdFields where
  /-- `BF`, bit 4: ask for the complemented FCS. -/
  bf   : Bool
  /-- `FIN`, bit 5: ask for an audio flush. -/
  fin  : Bool
  /-- `CHAN`, bits 15..8. -/
  chan : ChanId
  /-- `FXP`, bits 23..16: the encapsulation parameter, 0 for disabled. -/
  fxp  : BitVec 8
  /-- `LEN`, bits 47..32: frame length, or flag count. -/
  len  : BitVec 16
  /-- `BASE`, bits 63..48: address of payload byte 0. -/
  base : Addr
  deriving DecidableEq, Repr

/-- The instructions of the block: three host commands and three internal micro-operations (R60, R62, R64). -/
inductive Instr where
  /-- `SEND_FRAME` (R100). -/
  | sendFrame (f : CmdFields)
  /-- `SEND_FLAGS` (R110). -/
  | sendFlags (f : CmdFields)
  /-- `L2_SEND` (R130). -/
  | l2Send (f : CmdFields)
  /-- `UOP_BIT` (R81): send raw bit `b`. -/
  | uopBit (uch : ChanId) (b : Bool)
  /-- `UOP_CTRL` (R84): send byte `x` unstuffed. -/
  | uopCtrl (uch : ChanId) (x : Byte)
  /-- `UOP_DATA` (R87): send byte `x` stuffed. -/
  | uopData (uch : ChanId) (x : Byte)
  deriving DecidableEq, Repr

/-- The channel an instruction names: `CHAN` of a command, `UCH` of a micro-operation (R61, R64). -/
def Instr.chan : Instr → ChanId
  | .sendFrame f => f.chan
  | .sendFlags f => f.chan
  | .l2Send f => f.chan
  | .uopBit uch _ => uch
  | .uopCtrl uch _ => uch
  | .uopData uch _ => uch

/-- The names of `RESP.status` (R150). Codes 4 to 7 are never produced (U17), so they have no name. -/
inductive Status where
  | ok | illegalOp | rsvdBits | badChan
  deriving DecidableEq, Repr

/-- Why a `UOP` word is no micro-operation a sequencer issues (R64). -/
inductive UopError where
  /-- `K` = 3, reserved (R64, U10). -/
  | kindReserved
  /-- `Z` is not 0 (R64: always 0). -/
  | zNotZero
  /-- A `UOP_BIT` word with `VAL[7:1]` not 0 (R64). -/
  | bitValueHigh
  deriving DecidableEq, Repr

/-- An instruction word in either of the two formats (R60). -/
inductive InstrWord where
  | cmd (w : CmdWord)
  | uop (w : UopWord)
  deriving DecidableEq, Repr

/-- Why a word decodes to no instruction, by name. -/
inductive DecodeError where
  | rejected (st : Status)
  | badUop (e : UopError)
  deriving DecidableEq, Repr

end Sys2Proof
end

