-- ==== Sys2Proof/WellFormed.lean ====
section
/-! DEFINITION. Which instructions are well formed on a block of `nchan` engines (30_encoding R61, R64; 60_exceptions
R153). Every operand value fits its field by its type, so what is left to check is the channel, and for a
micro-operation the byte a sequencer may issue. -/

namespace Sys2Proof

/-- The channel exists: `CHAN < NCHAN` (R61), `UCH` the channel of an engine (R64). -/
def Instr.chanOk (nchan : Nat) (i : Instr) : Bool := decide (i.chan.toNat < nchan)

/-- The micro-operations a sequencer issues: `UOP_CTRL` only with the flag octet (R64, R84). -/
def Instr.issuable : Instr → Bool
  | .sendFrame _ => true
  | .sendFlags _ => true
  | .l2Send _ => true
  | .uopBit _ _ => true
  | .uopCtrl _ x => x == Config.flag
  | .uopData _ _ => true

/-- Well formed on a block of `nchan` engines. A `UOP_CTRL` of another byte keeps its meaning (R84, D47) but no
sequencer issues it. -/
def Instr.wellFormed (nchan : Nat) (i : Instr) : Bool := i.chanOk nchan && i.issuable

end Sys2Proof
end

