-- ==== Sys2Proof/Decode.lean ====
section
/-! DEFINITION. Decoding of `CMD` and `UOP` words, total and rejecting by name (30_encoding R60 to R69; 60_exceptions
R153), and the encoder written from the same tables. -/

namespace Sys2Proof

/-- A one-bit field read as a Bool. -/
def bitField {n : Nat} (w : BitVec n) (i : Nat) : Bool := w.getLsbD i

/-- The operand fields of a `CMD` word (R61). -/
def cmdFields (w : CmdWord) : CmdFields where
  bf   := bitField w 4
  fin  := bitField w 5
  chan := w.extractLsb' 8 8
  fxp  := w.extractLsb' 16 8
  len  := w.extractLsb' 32 16
  base := w.extractLsb' 48 16

/-- `OP`, bits 3..0 (R61). -/
def opField (w : CmdWord) : BitVec 4 := w.extractLsb' 0 4

/-- `RSVA`, bits 7..6, and `RSVB`, bits 31..24, must both be 0 (R61, R67). -/
def reservedClear (w : CmdWord) : Bool := w.extractLsb' 6 2 == 0#2 && w.extractLsb' 24 8 == 0#8

/-- The opcode values (R62). -/
def opSendFrame : BitVec 4 := 1#4
/-- See `opSendFrame`. -/
def opSendFlags : BitVec 4 := 2#4
/-- See `opSendFrame`. -/
def opL2Send : BitVec 4 := 3#4

/-- The opcode table (R62): every other value is reserved. -/
def opcode? (op : BitVec 4) : Option (CmdFields → Instr) :=
  if op = opSendFrame then some .sendFrame
  else if op = opSendFlags then some .sendFlags
  else if op = opL2Send then some .l2Send
  else none

/-- The encoding's own checks, in the order of R153: the opcode, then the reserved bits. -/
def decodeCmd (w : CmdWord) : Except Status Instr :=
  match opcode? (opField w) with
  | none => .error .illegalOp
  | some mk => if reservedClear w then .ok (mk (cmdFields w)) else .error .rsvdBits

/-- What a block of `nchan` engines decodes a `CMD` word to (R69): R153's three checks in order. -/
def classifyCmd (nchan : Nat) (w : CmdWord) : Except Status Instr :=
  match decodeCmd w with
  | .error st => .error st
  | .ok i => if i.chanOk nchan then .ok i else .error .badChan

/-- The kinds of micro-operation (R64). -/
inductive UopKind where
  | bit | ctrl | data
  deriving DecidableEq, Repr

/-- A micro-operation word taken apart (R64): kind, channel, value. -/
def decodeUopFields (w : UopWord) : Except UopError (UopKind × ChanId × Byte) :=
  let val : Byte := w.extractLsb' 8 8
  let uch : ChanId := w.extractLsb' 16 8
  if w.extractLsb' 2 6 ≠ 0#6 then .error .zNotZero
  else if w.extractLsb' 0 2 = 0#2 then
    (if val.extractLsb' 1 7 = 0#7 then .ok (.bit, uch, val) else .error .bitValueHigh)
  else if w.extractLsb' 0 2 = 1#2 then .ok (.ctrl, uch, val)
  else if w.extractLsb' 0 2 = 2#2 then .ok (.data, uch, val)
  else .error .kindReserved

/-- The instruction of a micro-operation's kind, channel and value (R64). -/
def uopInstr : UopKind × ChanId × Byte → Instr
  | (.bit, uch, val) => .uopBit uch (bitField val 0)
  | (.ctrl, uch, val) => .uopCtrl uch val
  | (.data, uch, val) => .uopData uch val

/-- Decoding of a `UOP` word (R64). -/
def decodeUop (w : UopWord) : Except UopError Instr :=
  match decodeUopFields w with
  | .error e => .error e
  | .ok u => .ok (uopInstr u)

/-- Decoding of a word of either format (R60). -/
def decode : InstrWord → Except DecodeError Instr
  | .cmd w => match decodeCmd w with
    | .error st => .error (.rejected st)
    | .ok i => .ok i
  | .uop w => match decodeUop w with
    | .error e => .error (.badUop e)
    | .ok i => .ok i

/-- A field's value placed in a word of `n` bits, its bit 0 at bit `lo` (R12). -/
def placed {k : Nat} (n lo : Nat) (v : BitVec k) : BitVec n := v.setWidth n <<< lo

/-- A `CMD` word from its opcode and fields, reserved bits 0 (R61). -/
def encodeCmd (op : BitVec 4) (f : CmdFields) : CmdWord :=
  placed 64 0 op ||| placed 64 4 (BitVec.ofBool f.bf) ||| placed 64 5 (BitVec.ofBool f.fin) |||
    placed 64 8 f.chan ||| placed 64 16 f.fxp ||| placed 64 32 f.len ||| placed 64 48 f.base

/-- A `UOP` word from its kind, channel and value, `Z` = 0 (R64). -/
def encodeUop (k : BitVec 2) (uch : ChanId) (val : Byte) : UopWord :=
  placed 24 0 k ||| placed 24 8 val ||| placed 24 16 uch

/-- `UOP_BIT uch, b` (R64). -/
def uopBitWord (uch : ChanId) (b : Bool) : UopWord := encodeUop 0#2 uch ((BitVec.ofBool b).setWidth 8)
/-- `UOP_CTRL uch, x` (R64). -/
def uopCtrlWord (uch : ChanId) (x : Byte) : UopWord := encodeUop 1#2 uch x
/-- `UOP_DATA uch, x` (R64). -/
def uopDataWord (uch : ChanId) (x : Byte) : UopWord := encodeUop 2#2 uch x

/-- The word of an instruction (R61, R62, R64). -/
def encode : Instr → InstrWord
  | .sendFrame f => .cmd (encodeCmd opSendFrame f)
  | .sendFlags f => .cmd (encodeCmd opSendFlags f)
  | .l2Send f => .cmd (encodeCmd opL2Send f)
  | .uopBit uch b => .uop (uopBitWord uch b)
  | .uopCtrl uch x => .uop (uopCtrlWord uch x)
  | .uopData uch x => .uop (uopDataWord uch x)

/-- The word of spec/opcode_table.json's numbering: rows of at most 24 bits are `UOP` words and the longer ones `CMD`
words (R60); the bits above `nbits` are 0. Log 18. -/
def tableWord (nbits w : Nat) : InstrWord :=
  if nbits ≤ 24 then .uop (BitVec.ofNat 24 (w % 2 ^ nbits)) else .cmd (BitVec.ofNat 64 (w % 2 ^ nbits))

/-- The instruction the decoder reads from a table word; none where it refuses. -/
def decodeTableWord (nbits w : Nat) : Option Instr :=
  match decode (tableWord nbits w) with
  | .error _ => none
  | .ok i => some i

end Sys2Proof
end

