-- ==== Sys2Proof/Machine/State.lean ====
section
/-! DEFINITION. The block's state as plain data (10_state R20 to R27; 20_memory R40; 00_scope R10; 70 R170), and its
value right after reset (R32, R170). -/

namespace Sys2Proof.Machine

/-- The sequencer phases, in place of a program counter (R27). -/
inductive Phase where
  | idle | startFlag | payload | fcsWait | fcsLo | fcsHi | endFlag | flags | flushWait | fxWait | warn | resp
  deriving DecidableEq, Repr

/-- One response on `RESP`: `{chan: 8, status: 3, count: sint32}` (R10, R150). -/
structure Resp where
  chan   : ChanId
  status : Status
  count  : Count
  deriving DecidableEq, Repr

/-- One handshake on a port of the block (R10, R14), with the engine it served. On a request/response port the request
and its answer are two handshakes; on a valid/ready port the transfer is one (log 14). -/
inductive Event where
  /-- A word was taken off `CMD`; `chan` is its `CHAN` field (R14, R70). -/
  | cmd (chan : ChanId)
  /-- A `RESP` transfer (R14). -/
  | resp (r : Resp)
  /-- A `TXBIT[c]` transfer of a line level (R81, R136). -/
  | txbit (c : ChanId) (level : Bool)
  /-- An `FBUF` read request `{addr}` of engine `c` (R10, R41). -/
  | fbufAsk (c : ChanId) (addr : Addr)
  /-- The `FBUF` read data `{byte}` for engine `c`'s request at `addr` (R10, R41). -/
  | fbufRead (c : ChanId) (addr : Addr) (byte : Byte)
  /-- An `FCSQ` request `{base, len}` of engine `c` (R10, R137). -/
  | fcsqAsk (c : ChanId) (base : Addr) (len : BitVec 16)
  /-- The `FCSQ` answer `{fcs}` to engine `c` (R10, R137). -/
  | fcsqAnswer (c : ChanId) (fcs : BitVec 16)
  /-- An `FXQ` request `{chan, base, len, fxp}` (R131, R138). -/
  | fxqAsk (c : ChanId) (base : Addr) (len : BitVec 16) (fxp : BitVec 8)
  /-- The `FXQ` answer `{result}` to engine `c` (R131, R138). -/
  | fxqAnswer (c : ChanId) (result : Count)
  /-- A `FLUSH` request `{dev}` of engine `c` (R112, R139). -/
  | flushAsk (c : ChanId) (dev : Nat)
  /-- The completion of engine `c`'s `FLUSH` request (R112, R139). -/
  | flushDone (c : ChanId)
  /-- A `WARN` transfer `{chan, code}` (R140). -/
  | warn (c : ChanId) (code : BitVec 8)
  /-- `RST` was asserted (R170): marks the place in the trace. -/
  | rst
  deriving DecidableEq, Repr

/-- The ports behind which a collaborator stands (R10): the tone consumer, the frame-buffer memory, the FCS calculator,
the encapsulator, the flush target and the warning sink. -/
inductive Port where
  | txbit | fbuf | fcsq | fxq | flush | warn
  deriving DecidableEq, Repr

/-- A handshake between an engine and a collaborator, by who makes it. A handshake that is not possible when its turn
comes does not happen. -/
inductive Move where
  /-- The engine makes its request on port `p` (R10). `TXBIT` and `WARN` are valid/ready: nothing is asked there. -/
  | request (p : Port)
  /-- The collaborator at port `p` accepts the engine's transfer, or answers its request (R10, R136 to R140). -/
  | serve (p : Port)
  deriving DecidableEq, Repr

/-- What the host does at its ports (R10, R40), one after another. Log 28. -/
inductive HostAct where
  /-- It offers a word behind those already offered (R10). -/
  | offer (w : CmdWord)
  /-- It writes a byte of `FBUF`: `MemWrite(addr, 1, v)` (R13, R40). -/
  | write (addr : Addr) (v : Byte)
  /-- It takes the response of engine `c`, once that engine has one (R10, R14). -/
  | takeResp (c : ChanId)
  /-- It takes the `k`-th outstanding rejection response, once there is one (R158). -/
  | takeRejection (k : Nat)
  deriving DecidableEq, Repr

/-- Which agent moves next: the schedule's entries (R52, R158: any order). Log 9. -/
inductive Turn where
  /-- The word at the head of `CMD` is served as one atomic step (R183). -/
  | command
  /-- The word at the head of `CMD` is accepted or rejected, bit-granular form (R70). -/
  | accept
  /-- A handshake of engine `c` with a collaborator (R10, R80). -/
  | engine (m : Move) (c : ChanId)
  /-- The micro-operation issued to engine `c`'s bit datapath runs whole. Log 10. -/
  | uop (c : ChanId)
  /-- The host does what it does next (R10). Log 28. -/
  | host
  /-- `RST` is asserted (R170, R171). -/
  | assertRst
  /-- `RST` is released (R174). -/
  | releaseRst
  deriving DecidableEq, Repr

/-- How far an engine's `FCSQ` request is (R103). -/
inductive Asking where
  /-- Not made yet. -/
  | no
  /-- Made and not answered. -/
  | asked
  /-- Answered: the answer is latched in `fcs`. -/
  | answered
  deriving DecidableEq, Repr

/-- The frame-buffer memory: (address, byte) pairs, addresses strictly rising (R40; log 6). -/
abbrev Memory := List Host.Cell

/-- One channel engine: its encoding state (R20 to R22), its sequencer (R25), the micro-operation it has issued to its
bit datapath (R60, R64), and what the model keeps of its environment. -/
structure Channel where
  /-- `bits_sent` (R20). -/
  bitsSent     : BitVec 32
  /-- `stuff_run` (R21). -/
  stuffRun     : BitVec 3
  /-- `line_level` (R22). -/
  lineLevel    : Bool
  /-- `busy` (R25, R26). -/
  busy         : Bool
  /-- `phase` (R25, R27). -/
  phase        : Phase
  /-- The latched opcode (R25). -/
  op           : BitVec 4
  /-- The latched bad_fcs bit (R25). -/
  bf           : Bool
  /-- The latched finish bit (R25). -/
  fin          : Bool
  /-- The latched encapsulation parameter (R25). -/
  fxp          : BitVec 8
  /-- The latched frame length or flag count (R25). -/
  len          : BitVec 16
  /-- The latched base address (R25). -/
  base         : Addr
  /-- Payload bytes, or flags, already sent (R25). -/
  idx          : BitVec 17
  /-- Position inside the byte being sent (R25). -/
  bitpos       : BitVec 3
  /-- A stuffed bit is owed (R25, R91). -/
  stuffPending : Bool
  /-- The FCS latched from `FCSQ` (R25, R103). -/
  fcs          : BitVec 16
  /-- The result latched from `FXQ` (R25, R131). -/
  fxres        : Count
  /-- The `UOP` word issued to the bit datapath and not finished (R60, R64). Log 10. -/
  uop          : Option UopWord
  /-- The request of the present phase stands unanswered: `FBUF` in PAYLOAD, `FXQ` in FX_WAIT, `FLUSH` in FLUSH_WAIT
  (R10, R170). Log 14. -/
  asked        : Bool
  /-- The state of the `FCSQ` request, which may run beside the other phases (R103). Log 13. -/
  fcsAsk       : Asking
  /-- The model's own: bytes of the open read window's region that the host has written inside it (R50, R175). Log 7. -/
  unstable     : List Addr
  /-- The model's own: the encapsulator's next answers, where the environment has fixed them (R138). Log 5. -/
  fxAnswers    : List Count
  /-- The model's own: how many free values this channel has drawn (R138, R175). Log 5. -/
  draws        : Nat
  deriving DecidableEq, Repr

/-- A channel engine after `RST` (R32, R170); the latches R32 leaves unspecified are 0 here (log 8). -/
def Channel.reset (c : ChanId) : Channel where
  bitsSent     := 0
  stuffRun     := 0
  lineLevel    := Config.lineInit c
  busy         := false
  phase        := .idle
  op           := 0
  bf           := false
  fin          := false
  fxp          := 0
  len          := 0
  base         := 0
  idx          := 0
  bitpos       := 0
  stuffPending := false
  fcs          := 0
  fxres        := 0
  uop          := none
  asked        := false
  fcsAsk       := .no
  unstable     := []
  fxAnswers    := []
  draws        := 0

/-- The block, its frame buffer, and the model's record of its environment. -/
structure State where
  /-- The channel engines; `NCHAN` is their number (R9, R11). Log 1. -/
  channels   : List Channel
  /-- `FBUF`, owned by the host (R40). -/
  mem        : Memory
  /-- The words the host has offered on `CMD`, the one at the port first (R10, R70). Log 20. -/
  cmd        : List CmdWord
  /-- Rejection responses whose `RESP` transfer is outstanding (R152, R158). Log 24. -/
  rejections : List Resp
  /-- `RST` is asserted (R170). -/
  rst        : Bool
  /-- The model's own: what the host does from here on, in order (R10, R40). Log 28. -/
  host       : List HostAct
  /-- The model's own: which agent moves next (R52). Log 9. -/
  sched      : List Turn
  /-- The model's own: the transfers made so far, newest first. Log 19. -/
  trace      : List Event
  deriving DecidableEq, Repr

/-- `n` engines after reset, the first with index `i`. -/
def initChannels : Nat → Nat → List Channel
  | 0, _ => []
  | n + 1, i => Channel.reset (BitVec.ofNat 8 i) :: initChannels n (i + 1)

/-- The block right after reset (R32, R170, R172): every engine idle, no word offered, no response outstanding. -/
def State.reset : State where
  channels   := initChannels Config.nchan 0
  mem        := []
  cmd        := []
  rejections := []
  rst        := false
  host       := []
  sched      := []
  trace      := []

/-- The block has no faults: a bad command word is answered with a status (R150 to R152), an accepted command raises no
exception (R156), and a collaborator that never answers holds its engine (R142). So no constructor. Log 27. -/
inductive Fault
  deriving DecidableEq, Repr

/-- Why a step has no meaning. -/
inductive Refusal where
  /-- An instruction without a meaning yet (none is left); raised by `exec` alone. Safe: the model stops. -/
  | notModelled (mnemonic : String)
  /-- A `UOP` word names a channel with no engine; raised by the micro-operations' meanings and by the `uop` turn. No
  sequencer issues one (R64: `UCH` is always the issuing engine's channel). Safe: the model stops. Log 16. -/
  | noEngine
  /-- A `UOP` word in an engine's slot is no word a sequencer issues (R64, U10: a model refuses it); raised by the
  `engine` and `uop` turns. Safe: the model stops. Log 16. -/
  | uopMalformed (e : UopError)
  /-- The `UOP` word in an engine's slot names another channel (R64); raised by the `engine` and `uop` turns. Safe: the
  model stops. Log 16. -/
  | uopForeign
  deriving DecidableEq, Repr

/-- The frame buffer as one engine reads it: its bytes, and the addresses the host writes inside the engine's open read
window, whose reads are free (R50, R175). -/
structure Fbuf where
  mem       : Memory
  disturbed : List Addr
  deriving DecidableEq, Repr

/-- One engine at work inside a step: its state and the transfers it has made in this step, newest first. -/
structure Lane where
  ch  : Channel
  out : List Event
  deriving DecidableEq, Repr

end Sys2Proof.Machine
end

