-- ==== Sys2Proof/Machine/Operands.lean ====
section
/-! DEFINITION. Operand assembly: every operand form of the block (30_encoding R63, R65, R66; 20_memory R42 to R44). -/

namespace Sys2Proof.Machine

/-- The number of payload bytes, or of flags: `zext(LEN)`, 0 to 65535 (R65). -/
def lenOperand (ch : Channel) : Nat := ch.len.toNat

/-- The effective address of payload byte `i`: `(base + i) mod 2^16` (R42). -/
def ea (base : Addr) (i : Nat) : Addr := base + BitVec.ofNat 16 i

/-- The address lies in the region `[base, base+len)`, with wrap (R42, R50). -/
def inRegion (base : Addr) (len : BitVec 16) (a : Addr) : Bool := decide ((a - base).toNat < len.toNat)

/-- The bits of a byte in sending order, least significant first (R12, R43). -/
def byteBits (x : Byte) : List Bool :=
  [x.getLsbD 0, x.getLsbD 1, x.getLsbD 2, x.getLsbD 3, x.getLsbD 4, x.getLsbD 5, x.getLsbD 6, x.getLsbD 7]

/-- The FCS byte sent first: `fcs[7:0]`, complemented for `bf` = 1 (R44, R104). -/
def fcsLoByte (bf : Bool) (f : BitVec 16) : Byte :=
  if bf then ~~~(f.extractLsb' 0 8) else f.extractLsb' 0 8

/-- The FCS byte sent second: `fcs[15:8]`, complemented for `bf` = 1 (R44, R104). -/
def fcsHiByte (bf : Bool) (f : BitVec 16) : Byte :=
  if bf then ~~~(f.extractLsb' 8 8) else f.extractLsb' 8 8

/-- Encapsulation is enabled: `FXP != 0` (R66). -/
def fxEnabled (fxp : BitVec 8) : Bool := fxp != 0#8

end Sys2Proof.Machine
end

