-- ==== Sys2Proof/Machine/Flags.lean ====
section
/-! DEFINITION. The block has no condition codes (10_state R28); what takes their place is the status of a response
(60_exceptions R150) and the tests the rules make on a value (R88, R132). -/

namespace Sys2Proof.Machine

/-- `RESP.status` codes (R150). -/
def statusCode : Status → BitVec 3
  | .ok => 0#3
  | .illegalOp => 1#3
  | .rsvdBits => 2#3
  | .badChan => 3#3

/-- The encapsulator succeeded: `r > 0`, a signed 32-bit comparison (R132). -/
def fxSuccess (r : Count) : Bool := (0#32).slt r

/-- The run has reached `STUFF_LIMIT` (R87, R88). -/
def runAtLimit (run : BitVec 3) : Bool := run == Config.stuffLimit

end Sys2Proof.Machine
end

