-- ==== Sys2Proof/Machine/Ops.lean ====
section
/-! DEFINITION. The named operations over memory, channel engines and ports that every meaning is built from: the
pseudocode primitives of 00_scope R13, the encoders of 40_bit_level R81 to R91, and the one operation that rejects a
command word (60_exceptions R151, R152). The block has no trap entry and no trap return (R159), so there is none here. -/

namespace Sys2Proof.Machine

/-! ## Frame buffer (20_memory) -/

/-- The byte the host wrote last at an address, or none where it never wrote one. -/
def Memory.get? : Memory → Nat → Option Byte
  | [], _ => none
  | (a, v) :: m, b => if a = b then some v else Memory.get? m b

/-- A host byte write (R40), in the canonical form. -/
def Memory.set : Memory → Nat → Byte → Memory
  | [], b, x => [(b, x)]
  | (a, v) :: m, b, x =>
    if b < a then (b, x) :: (a, v) :: m
    else if b = a then (b, x) :: m
    else (a, v) :: Memory.set m b x

/-- Every listed address is above `lo` and below 2^16, and addresses rise strictly. -/
def Memory.risesFrom : Nat → Memory → Bool
  | _, [] => true
  | lo, (a, _) :: m => decide (lo ≤ a) && decide (a < 65536) && Memory.risesFrom (a + 1) m

/-- The canonical form: addresses strictly rising, inside the address space. An unlisted address is one the host never
wrote, so no entry can equal what an unlisted address holds. -/
def Memory.wf (m : Memory) : Bool := Memory.risesFrom 0 m

/-- What `FBUF` holds at an address: the host's byte, or a free byte where the host wrote none (R48, U6; log 6). -/
def Memory.byteAt (m : Memory) (a : Addr) : Byte := (Memory.get? m a.toNat).getD (Config.unwrittenByte a)

/-- The `n` bytes at `(base + i) mod 2^16`, `(base + i + 1) mod 2^16`, ... (R41, R42, R102). -/
def Memory.region (m : Memory) (base : Addr) : Nat → Nat → List Byte
  | 0, _ => []
  | n + 1, i => Memory.byteAt m (ea base i) :: Memory.region m base n (i + 1)

/-! ## Transfers of one engine -/

/-- Record a transfer. -/
def Lane.emit (e : Event) (l : Lane) : Lane := { l with out := e :: l.out }

/-- The addresses the host writes before it takes engine `c`'s response: with a command running, the writes still to come
inside its read window (R50). -/
def writesInWindow (c : ChanId) : List HostAct → List Addr
  | [] => []
  | .write a _ :: hs => a :: writesInWindow c hs
  | .takeResp d :: hs => if d = c then [] else writesInWindow c hs
  | .offer _ :: hs => writesInWindow c hs
  | .takeRejection _ :: hs => writesInWindow c hs

/-- The frame buffer as engine `c` reads it: disturbed are the bytes the host has written in the open window, and those
it will write before the window closes (R50, R175). -/
def State.fbuf (c : ChanId) (ch : Channel) (s : State) : Fbuf := ⟨s.mem, ch.unstable ++ writesInWindow c s.host⟩

/-- One read of an `FBUF` byte for channel `c`, by the block or by the FCS calculator: the byte the buffer holds, or a
fresh free value where the host writes that byte inside the read window (R47, R50, R175). -/
def Lane.look (c : ChanId) (fb : Fbuf) (a : Addr) (l : Lane) : Byte × Lane :=
  if fb.disturbed.contains a then
    (Config.hazardByte c l.ch.draws, { l with ch := { l.ch with draws := l.ch.draws + 1 } })
  else (Memory.byteAt fb.mem a, l)

/-- The request of `MemRead(addr, 1)` (R13, R41). -/
def Lane.askByte (c : ChanId) (a : Addr) (l : Lane) : Lane := l.emit (.fbufAsk c a)

/-- The answer of `MemRead(addr, 1)` (R13, R41). -/
def Lane.readByte (c : ChanId) (fb : Fbuf) (a : Addr) (l : Lane) : Byte × Lane :=
  let r := l.look c fb a
  (r.1, r.2.emit (.fbufRead c a r.1))

/-- `MemRead(addr, 1)` by engine `c` (R13). -/
def Lane.memRead (c : ChanId) (fb : Fbuf) (a : Addr) (l : Lane) : Byte × Lane := (l.askByte c a).readByte c fb a

/-- The FCS calculator's reads of a region through its own path (R41, R102): no `FBUF` transfer of the block. -/
def Lane.lookRegion (c : ChanId) (fb : Fbuf) (base : Addr) : Nat → Nat → Lane → List Byte × Lane
  | 0, _, l => ([], l)
  | n + 1, i, l =>
    let r := l.look c fb (ea base i)
    let rs := Lane.lookRegion c fb base n (i + 1) r.2
    (r.1 :: rs.1, rs.2)

/-- The request of `FcsCalc(base, len)` (R13, R103). -/
def Lane.askFcs (c : ChanId) (l : Lane) : Lane := l.emit (.fcsqAsk c l.ch.base l.ch.len)

/-- The answer of `FcsCalc(base, len)`, latched in `fcs` (R102, R103, R137). `fcsFn` is `FCS_FN`. -/
def Lane.latchFcs (fcsFn : List Byte → BitVec 16) (c : ChanId) (fb : Fbuf) (l : Lane) : Lane :=
  let r := l.lookRegion c fb l.ch.base (lenOperand l.ch) 0
  let f := fcsFn r.1
  ({ r.2 with ch := { r.2.ch with fcs := f } } : Lane).emit (.fcsqAnswer c f)

/-- `FcsCalc(base, len)` (R13). -/
def Lane.fcsCalc (fcsFn : List Byte → BitVec 16) (c : ChanId) (fb : Fbuf) (l : Lane) : Lane :=
  (l.askFcs c).latchFcs fcsFn c fb

/-- The request of `FxEncap(c, base, len, fxp)` (R13, R131). -/
def Lane.askFx (c : ChanId) (l : Lane) : Lane := l.emit (.fxqAsk c l.ch.base l.ch.len l.ch.fxp)

/-- The answer of `FxEncap(c, base, len, fxp)`, latched in `fxres` (R131, R138): the next one the environment has fixed,
or a fresh free value (log 5). -/
def Lane.latchFx (c : ChanId) (l : Lane) : Lane :=
  match l.ch.fxAnswers with
  | r :: rs => ({ l with ch := { l.ch with fxAnswers := rs, fxres := r } } : Lane).emit (.fxqAnswer c r)
  | [] =>
    let r := Config.fxResult c l.ch.draws
    ({ l with ch := { l.ch with draws := l.ch.draws + 1, fxres := r } } : Lane).emit (.fxqAnswer c r)

/-- `FxEncap(c, base, len, fxp)` (R13). -/
def Lane.fxEncap (c : ChanId) (l : Lane) : Lane := (l.askFx c).latchFx c

/-- The request of `Flush(ADEV_OF(c))` (R112, R139). -/
def Lane.askFlush (c : ChanId) (l : Lane) : Lane := l.emit (.flushAsk c (Config.adevOf c))

/-- The completion of `Flush` (R112, R139). -/
def Lane.flushed (c : ChanId) (l : Lane) : Lane := l.emit (.flushDone c)

/-- `Flush(ADEV_OF(c))` (R13). -/
def Lane.flush (c : ChanId) (l : Lane) : Lane := (l.askFlush c).flushed c

/-- `Warn(c, 0x01)` (R140). -/
def Lane.warn (c : ChanId) (l : Lane) : Lane := l.emit (.warn c Config.fx25Fallback)

/-- `Respond(c, OK, count)`, then `busy <- 0` and back to `IDLE` (R100, R110, R130); no request is open, and the read
window closes (R50). -/
def Lane.respond (c : ChanId) (count : Count) (l : Lane) : Lane :=
  ({ l with ch := { l.ch with busy := false, phase := .idle, asked := false, fcsAsk := .no, unstable := [] } } : Lane).emit
    (.resp ⟨c, .ok, count⟩)

/-! ## The bit datapath (40_bit_level) -/

/-- The Bit Transmitter (R81): a 0 toggles the line, the level after it is sent, the bit is counted. -/
def Lane.sendBit (c : ChanId) (b : Bool) (l : Lane) : Lane :=
  let level := if b then l.ch.lineLevel else !l.ch.lineLevel
  ({ l with ch := { l.ch with lineLevel := level, bitsSent := l.ch.bitsSent + 1#32 } } : Lane).emit
    (.txbit c level)

/-- Raw bits one after another. -/
def Lane.sendBits (c : ChanId) (bs : List Bool) (l : Lane) : Lane := bs.foldl (fun l b => l.sendBit c b) l

/-- Write `stuff_run`. -/
def Lane.setRun (r : BitVec 3) (l : Lane) : Lane := { l with ch := { l.ch with stuffRun := r } }

/-- The Control/Flag Encoder (R84): eight raw bits, no stuffing, then the run is cleared. -/
def Lane.sendCtrl (c : ChanId) (x : Byte) (l : Lane) : Lane := (l.sendBits c (byteBits x)).setRun 0#3

/-- One data bit of the Stuffing Data Encoder, with the stuffed 0 it may owe (R87). -/
def Lane.sendDataBit (c : ChanId) (b : Bool) (l : Lane) : Lane :=
  let sent := l.sendBit c b
  if b then
    if runAtLimit (l.ch.stuffRun + 1#3) then (sent.sendBit c false).setRun 0#3
    else sent.setRun (l.ch.stuffRun + 1#3)
  else sent.setRun 0#3

/-- The Stuffing Data Encoder (R87): the eight bits of a byte, least significant first. -/
def Lane.sendData (c : ChanId) (x : Byte) (l : Lane) : Lane :=
  (byteBits x).foldl (fun l b => l.sendDataBit c b) l

/-- `bits_sent <- 0` (R20). -/
def Lane.clearCount (l : Lane) : Lane := { l with ch := { l.ch with bitsSent := 0#32 } }

/-- One more byte, or flag, has been sent (R25). -/
def Lane.countUnit (l : Lane) : Lane := { l with ch := { l.ch with idx := l.ch.idx + 1#17 } }

/-! ## Acceptance and rejection (30_encoding R70; 60_exceptions R151, R152) -/

/-- What acceptance writes: `busy`, the latches of R70, and the sequencer's positions at their start; no request is open,
and the read window opens (R50). -/
def Channel.latch (op : BitVec 4) (f : CmdFields) (ch : Channel) : Channel :=
  { ch with busy := true, op := op, bf := f.bf, fin := f.fin, fxp := f.fxp, len := f.len, base := f.base,
            idx := 0#17, bitpos := 0#3, stuffPending := false, uop := none, asked := false,
            fcsAsk := .no, unstable := [] }

/-- Engine `c`, if the block has it. -/
def State.channel? (s : State) (c : ChanId) : Option Channel := s.channels[c.toNat]?

/-- `NCHAN` (R11). -/
def State.nchan (s : State) : Nat := s.channels.length

/-- Put engine `c`'s work back into the block: its state, and its transfers on the trace. -/
def State.putLane (c : ChanId) (l : Lane) (s : State) : State :=
  { s with channels := s.channels.set c.toNat l.ch, trace := l.out ++ s.trace }

/-- Take the head word off `CMD`. -/
def State.popCmd (s : State) : State := { s with cmd := s.cmd.tail }

/-- What a rejection answers (R151): the word's `CHAN` field, the status, count 0. -/
def rejection (chan : ChanId) (st : Status) : Resp := ⟨chan, st, 0#32⟩

/-- THE REJECTION of the word at the head of `CMD`, as one atomic step (R70, R151, R152): the word is taken, one response
is transferred, nothing else changes. -/
def State.reject (chan : ChanId) (st : Status) (s : State) : State :=
  { s.popCmd with trace := .resp (rejection chan st) :: .cmd chan :: s.trace }

/-- The bit-granular form: the word is taken now and the response is outstanding until the host takes it (R152, R158;
log 24). -/
def State.rejectLater (chan : ChanId) (st : Status) (s : State) : State :=
  { s.popCmd with rejections := s.rejections ++ [rejection chan st], trace := .cmd chan :: s.trace }

/-- How every host command runs as one atomic step (R70, R183). While `RST` is asserted, and while its channel is busy,
the word waits at the head of `CMD`; a channel the block does not have rejects it (R154); otherwise it is accepted and
`run` carries it to its response. R183 has the buffer undisturbed while it runs. -/
def serveCommand (op : BitVec 4) (f : CmdFields) (run : ChanId → Fbuf → Lane → Lane) (s : State) :
    Host.Outcome State Fault Refusal :=
  if s.rst then .next s
  else match s.channel? f.chan with
    | none => .next (s.reject f.chan .badChan)
    | some ch =>
      if ch.busy then .next s
      else .next (s.popCmd.putLane f.chan (run f.chan ⟨s.mem, []⟩ ⟨ch.latch op f, [.cmd f.chan]⟩))

/-- How every micro-operation runs: engine `uch`'s datapath takes the word from its slot and does `run` (R60, R80). -/
def serveUop (uch : ChanId) (run : ChanId → Lane → Lane) (s : State) : Host.Outcome State Fault Refusal :=
  match s.channel? uch with
  | none => .refused .noEngine
  | some ch => .next (s.putLane uch (run uch ⟨{ ch with uop := none }, []⟩))

end Sys2Proof.Machine
end

