-- ==== Sys2Proof/Machine/BitLevel.lean ====
section
/-! DEFINITION. The meanings of the micro-operations: UOP_BIT, UOP_CTRL, UOP_DATA (40_bit_level). -/

namespace Sys2Proof.Machine

/-- UOP_BIT (R81). -/
def execUopBit (uch : ChanId) (b : Bool) (s : State) : Host.Outcome State Fault Refusal :=
  serveUop uch (fun c l => l.sendBit c b) s

/-- UOP_CTRL (R84). -/
def execUopCtrl (uch : ChanId) (x : Byte) (s : State) : Host.Outcome State Fault Refusal :=
  serveUop uch (fun c l => l.sendCtrl c x) s

/-- UOP_DATA (R87). -/
def execUopData (uch : ChanId) (x : Byte) (s : State) : Host.Outcome State Fault Refusal :=
  serveUop uch (fun c l => l.sendData c x) s

end Sys2Proof.Machine
end

