-- ==== Sys2Proof/Machine/Frame.lean ====
section
/-! DEFINITION. The meanings of SEND_FRAME and SEND_FLAGS as atomic steps (41_frame_and_flags; 70 R183). -/

namespace Sys2Proof.Machine

/-- Payload byte `i`: read it, send it stuffed (R101). -/
def Lane.sendPayloadByte (c : ChanId) (fb : Fbuf) (i : Nat) (l : Lane) : Lane :=
  let r := l.memRead c fb (ea l.ch.base i)
  (r.2.sendData c r.1).countUnit

/-- `n` payload bytes from byte `i` on, in buffer order (R101). -/
def Lane.sendPayload (c : ChanId) (fb : Fbuf) : Nat → Nat → Lane → Lane
  | 0, _, l => l
  | n + 1, i, l => Lane.sendPayload c fb n (i + 1) (l.sendPayloadByte c fb i)

/-- The two FCS bytes, low byte first, complemented for bad_fcs (R100, R104). -/
def Lane.sendFcs (c : ChanId) (l : Lane) : Lane :=
  (l.sendData c (fcsLoByte l.ch.bf l.ch.fcs)).sendData c (fcsHiByte l.ch.bf l.ch.fcs)

/-- The body of SEND_FRAME up to its response (R100), on the operands acceptance latched. -/
def Lane.sendFrameBody (fcsFn : List Byte → BitVec 16) (c : ChanId) (fb : Fbuf) (l : Lane) : Lane :=
  let opened := l.clearCount.sendCtrl c Config.flag
  let carried := opened.sendPayload c fb (lenOperand l.ch) 0
  let checked := (carried.fcsCalc fcsFn c fb).sendFcs c
  checked.sendCtrl c Config.flag

/-- The body and the response: the plain path of SEND_FRAME and of L2_SEND (R100, R130). -/
def Lane.sendFrame (fcsFn : List Byte → BitVec 16) (c : ChanId) (fb : Fbuf) (l : Lane) : Lane :=
  let done := l.sendFrameBody fcsFn c fb
  done.respond c done.ch.bitsSent

/-- `n` flags (R110). -/
def Lane.sendFlagOctets (c : ChanId) : Nat → Lane → Lane
  | 0, l => l
  | n + 1, l => Lane.sendFlagOctets c n (l.sendCtrl c Config.flag).countUnit

/-- SEND_FLAGS on the operands acceptance latched (R110, R112). -/
def Lane.sendFlags (c : ChanId) (l : Lane) : Lane :=
  let flagged := l.clearCount.sendFlagOctets c (lenOperand l.ch)
  let flushed := if l.ch.fin then flagged.flush c else flagged
  flushed.respond c flushed.ch.bitsSent

/-- SEND_FRAME (R100). -/
def execSendFrame (f : CmdFields) (s : State) : Host.Outcome State Fault Refusal :=
  serveCommand opSendFrame f (fun c fb l => l.sendFrame Config.fcsFn c fb) s

/-- SEND_FLAGS (R110). -/
def execSendFlags (f : CmdFields) (s : State) : Host.Outcome State Fault Refusal :=
  serveCommand opSendFlags f (fun c _ l => l.sendFlags c) s

end Sys2Proof.Machine
end

