-- ==== Sys2Proof/Machine/Dispatcher.lean ====
section
/-! DEFINITION. The meaning of L2_SEND, the Transmission Dispatcher, as an atomic step (42_dispatch; 70 R183). -/

namespace Sys2Proof.Machine

/-- L2_SEND on the operands acceptance latched (R130 to R135). -/
def Lane.l2Send (fcsFn : List Byte → BitVec 16) (c : ChanId) (fb : Fbuf) (l : Lane) : Lane :=
  if fxEnabled l.ch.fxp then
    let asked := l.fxEncap c
    if fxSuccess asked.ch.fxres then asked.respond c asked.ch.fxres
    else (asked.warn c).sendFrame fcsFn c fb
  else l.sendFrame fcsFn c fb

/-- L2_SEND (R130). -/
def execL2Send (f : CmdFields) (s : State) : Host.Outcome State Fault Refusal :=
  serveCommand opL2Send f (fun c fb l => l.l2Send Config.fcsFn c fb) s

end Sys2Proof.Machine
end

