-- ==== Sys2Proof/Machine/Dispatch.lean ====
section
/-! DEFINITION. `exec`: one arm per instruction of the opcode table. -/

namespace Sys2Proof.Machine

def exec (i : Instr) (s : State) : Host.Outcome State Fault Refusal :=
  match i with
  | .sendFrame f => Sys2Proof.Machine.execSendFrame f s
  | .sendFlags f => Sys2Proof.Machine.execSendFlags f s
  | .l2Send f => Sys2Proof.Machine.execL2Send f s
  | .uopBit uch b => Sys2Proof.Machine.execUopBit uch b s
  | .uopCtrl uch x => Sys2Proof.Machine.execUopCtrl uch x s
  | .uopData uch x => Sys2Proof.Machine.execUopData uch x s

end Sys2Proof.Machine
end

