-- ==== Sys2Proof/Machine/Engine.lean ====
section
/-! DEFINITION. The bit-granular engine (40_bit_level R80; 92 D32: the normative granularity): the sequencer's phases in
the order each command's rule fixes (10_state R25, R27), and its bit datapath, one handshake at a time. -/

namespace Sys2Proof.Machine

/-! ## Phases (R27) -/

/-- Enter START_FLAG: the count is cleared and the flag is issued (R100). -/
def Channel.enterStartFlag (c : ChanId) (ch : Channel) : Channel :=
  { ch with bitsSent := 0#32, phase := .startFlag, uop := some (uopCtrlWord c Config.flag) }

/-- The FCS is latched: issue its low byte (R100, R103). -/
def Channel.enterFcsLo (c : ChanId) (ch : Channel) : Channel :=
  { ch with phase := .fcsLo, uop := some (uopDataWord c (fcsLoByte ch.bf ch.fcs)) }

/-- Enter PAYLOAD while bytes are left to send; after the last one hold in FCS_WAIT, or go on to FCS_LO where the FCS is
latched already (R100, R103; log 13). -/
def Channel.enterPayload (c : ChanId) (ch : Channel) : Channel :=
  if ch.idx = ch.len.setWidth 17 then
    (if ch.fcsAsk = .answered then ch.enterFcsLo c else { ch with phase := .fcsWait })
  else { ch with phase := .payload }

/-- Issue the next flag of SEND_FLAGS, or go on to the flush or the response after the last one (R110, R112). -/
def Channel.enterFlags (c : ChanId) (ch : Channel) : Channel :=
  if ch.idx = ch.len.setWidth 17 then
    (if ch.fin then { ch with phase := .flushWait } else { ch with phase := .resp })
  else { ch with phase := .flags, uop := some (uopCtrlWord c Config.flag) }

/-- The first phase of an accepted command, by its instruction (R70, R100, R110, R130). A micro-operation is no host
command (R60) and starts none. -/
def Channel.start (c : ChanId) (ch : Channel) : Instr → Channel
  | .sendFrame f => (ch.latch opSendFrame f).enterStartFlag c
  | .sendFlags f => ({ ch.latch opSendFlags f with bitsSent := 0#32 } : Channel).enterFlags c
  | .l2Send f =>
    if fxEnabled f.fxp then { ch.latch opL2Send f with phase := .fxWait }
    else (ch.latch opL2Send f).enterStartFlag c
  | .uopBit _ _ => ch
  | .uopCtrl _ _ => ch
  | .uopData _ _ => ch

/-- The datapath has finished the issued word: the sequencer moves on (R27, R100, R110). -/
def Channel.uopDone (c : ChanId) (ch : Channel) : Channel :=
  let freed : Channel := { ch with uop := none, bitpos := 0#3 }
  match ch.phase with
  | .startFlag => freed.enterPayload c
  | .payload => ({ freed with idx := ch.idx + 1#17 } : Channel).enterPayload c
  | .fcsLo => { freed with phase := .fcsHi, uop := some (uopDataWord c (fcsHiByte ch.bf ch.fcs)) }
  | .fcsHi => { freed with phase := .endFlag, uop := some (uopCtrlWord c Config.flag) }
  | .endFlag => { freed with phase := .resp }
  | .flags => ({ freed with idx := ch.idx + 1#17 } : Channel).enterFlags c
  | .idle => freed
  | .fcsWait => freed
  | .flushWait => freed
  | .fxWait => freed
  | .warn => freed
  | .resp => freed

/-! ## The bit datapath, one bit at a time (R80, R91) -/

/-- Change the engine's own state, with no transfer. -/
def Lane.onChannel (g : Channel → Channel) (l : Lane) : Lane := { l with ch := g l.ch }

/-- The bit at the current position is dealt with: go to the next one, or finish the word. -/
def Lane.nextPos (c : ChanId) (l : Lane) : Lane :=
  if l.ch.bitpos = 7#3 then l.onChannel (Channel.uopDone c)
  else l.onChannel (fun ch => { ch with bitpos := ch.bitpos + 1#3 })

/-- One bit of UOP_CTRL (R84); the run is cleared after the eighth. -/
def Lane.ctrlMove (c : ChanId) (x : Byte) (l : Lane) : Lane :=
  let sent := l.sendBit c (x.getLsbD l.ch.bitpos.toNat)
  (if l.ch.bitpos = 7#3 then sent.setRun 0#3 else sent).nextPos c

/-- One bit of UOP_DATA (R87, R91): the owed stuffed bit if there is one, else the data bit at the current position. The
data bit that brings the run to 5 leaves `stuff_run` in 0..4 and sets `stuff_pending` (log 11). -/
def Lane.dataMove (c : ChanId) (x : Byte) (l : Lane) : Lane :=
  if l.ch.stuffPending then
    (((l.sendBit c false).setRun 0#3).onChannel (fun ch => { ch with stuffPending := false })).nextPos c
  else
    let b := x.getLsbD l.ch.bitpos.toNat
    let sent := l.sendBit c b
    if b then
      if runAtLimit (l.ch.stuffRun + 1#3) then sent.onChannel (fun ch => { ch with stuffPending := true })
      else (sent.setRun (l.ch.stuffRun + 1#3)).nextPos c
    else (sent.setRun 0#3).nextPos c

/-- One move of the datapath on the issued word: one `TXBIT` transfer (R80). -/
def Lane.bitMove (c : ChanId) (k : UopKind) (x : Byte) (l : Lane) : Lane :=
  match k with
  | .bit => (l.sendBit c (bitField x 0)).onChannel (Channel.uopDone c)
  | .ctrl => l.ctrlMove c x
  | .data => l.dataMove c x

/-! ## The sequencer's own handshakes -/

/-- The count of the response (R20, R130, R133): the encapsulator's on the encapsulated path, else `bits_sent`. -/
def Channel.respCount (ch : Channel) : Count :=
  if ch.op = opL2Send && fxEnabled ch.fxp && fxSuccess ch.fxres then ch.fxres else ch.bitsSent

/-- The engine may ask for the FCS: not asked yet, and a frame is being sent in the clear (R103; R133 and R134 for an
L2_SEND; log 13). -/
def Channel.mayAskFcs (ch : Channel) : Bool :=
  ch.fcsAsk = .no && (ch.phase = .startFlag || ch.phase = .payload || ch.phase = .fcsWait)

/-- The request of engine `c` on a port, where its rule lets it make one now (R41, R103, R112, R131). -/
def Lane.request (p : Port) (c : ChanId) (l : Lane) : Lane :=
  match p with
  | .txbit => l
  | .fbuf =>
    if l.ch.phase = .payload && l.ch.uop.isNone && !l.ch.asked then
      (l.askByte c (ea l.ch.base l.ch.idx.toNat)).onChannel (fun ch => { ch with asked := true })
    else l
  | .fcsq => if l.ch.mayAskFcs then (l.askFcs c).onChannel (fun ch => { ch with fcsAsk := .asked }) else l
  | .fxq =>
    if l.ch.phase = .fxWait && !l.ch.asked then (l.askFx c).onChannel (fun ch => { ch with asked := true }) else l
  | .flush =>
    if l.ch.phase = .flushWait && !l.ch.asked then (l.askFlush c).onChannel (fun ch => { ch with asked := true }) else l
  | .warn => l

/-- The read data of payload byte `idx` arrives and is issued for sending (R100, R101). -/
def Lane.byteArrives (c : ChanId) (fb : Fbuf) (l : Lane) : Lane :=
  let r := l.readByte c fb (ea l.ch.base l.ch.idx.toNat)
  r.2.onChannel (fun ch => { ch with asked := false, uop := some (uopDataWord c r.1) })

/-- The FCS arrives; an engine that holds for it goes on (R103). -/
def Lane.fcsArrives (fcsFn : List Byte → BitVec 16) (c : ChanId) (fb : Fbuf) (l : Lane) : Lane :=
  (l.latchFcs fcsFn c fb).onChannel (fun ch =>
    if ch.phase = .fcsWait then Channel.enterFcsLo c { ch with fcsAsk := .answered } else { ch with fcsAsk := .answered })

/-- The encapsulator's result arrives (R131, R132). -/
def Lane.fxArrives (c : ChanId) (l : Lane) : Lane :=
  (l.latchFx c).onChannel (fun ch => { ch with asked := false, phase := if fxSuccess ch.fxres then .resp else .warn })

/-- The word in an engine's slot, taken apart; refused where no sequencer of that engine issues it (R64). -/
def slotWord (c : ChanId) (w : UopWord) : Except Refusal (UopKind × Byte) :=
  match decodeUopFields w with
  | .error e => .error (.uopMalformed e)
  | .ok (k, uch, x) => if uch = c then .ok (k, x) else .error .uopForeign

/-- The collaborator at port `p` accepts or answers what engine `c` has up, if anything: the next bit of the issued
micro-operation, a read, the FCS, an encapsulation, a flush, a warning (R80, R136 to R140). An answer to a request that is
not open is discarded (R171). -/
def Lane.serve (fcsFn : List Byte → BitVec 16) (p : Port) (c : ChanId) (fb : Fbuf) (l : Lane) : Except Refusal Lane :=
  match p with
  | .txbit =>
    match l.ch.uop with
    | none => .ok l
    | some w => match slotWord c w with
      | .error r => .error r
      | .ok (k, x) => .ok (l.bitMove c k x)
  | .fbuf => .ok (if l.ch.phase = .payload && l.ch.asked then l.byteArrives c fb else l)
  | .fcsq => .ok (if l.ch.fcsAsk = .asked then l.fcsArrives fcsFn c fb else l)
  | .fxq => .ok (if l.ch.phase = .fxWait && l.ch.asked then l.fxArrives c else l)
  | .flush =>
    .ok (if l.ch.phase = .flushWait && l.ch.asked then
      (l.flushed c).onChannel (fun ch => { ch with asked := false, phase := .resp }) else l)
  | .warn => .ok (if l.ch.phase = .warn then (l.warn c).onChannel (Channel.enterStartFlag c) else l)

/-- One handshake of engine `c` with a collaborator (R10, R80). -/
def engineMove (fcsFn : List Byte → BitVec 16) (m : Move) (c : ChanId) (fb : Fbuf) (ch : Channel) : Except Refusal Lane :=
  match m with
  | .request p => .ok (Lane.request p c ⟨ch, []⟩)
  | .serve p => Lane.serve fcsFn p c fb ⟨ch, []⟩

end Sys2Proof.Machine
end

