-- ==== Sys2Proof/Machine/Turns.lean ====
section
/-! DEFINITION. What each turn of the schedule does: the command port in its atomic and its bit-granular form (30_encoding
R70; 70 R183), an engine's move (40 R80), the host's writes and responses (20 R50; 60 R158), and `RST` (70 R170, R171). -/

namespace Sys2Proof.Machine

/-- The word at the head of `CMD` is served as one atomic step (R70, R183): rejected, run whole, or left waiting. With no
word offered the block waits (R172). -/
def serveHead (s : State) : Host.Outcome State Fault Refusal :=
  match s.cmd with
  | [] => .next s
  | w :: _ =>
    match decodeCmd w with
    | .error st => if s.rst then .next s else .next (s.reject (cmdFields w).chan st)
    | .ok i => exec i s

/-- The bit-granular form of acceptance (R70): a bad word is taken at once and its response is outstanding; a good word
is accepted when its channel is idle, and waits at the head of `CMD` otherwise. -/
def acceptHead (s : State) : State :=
  match s.cmd with
  | [] => s
  | w :: _ =>
    if s.rst then s
    else match classifyCmd s.nchan w with
      | .error st => s.rejectLater (cmdFields w).chan st
      | .ok i =>
        match s.channel? i.chan with
        | none => s
        | some ch =>
          if ch.busy then s
          else s.popCmd.putLane i.chan ⟨ch.start i.chan i, [.cmd i.chan]⟩

/-- Engine `c` and a collaborator make a handshake (R10, R80); an engine the block does not have makes none. `fcsFn` is
`FCS_FN`. -/
def engineTurn (fcsFn : List Byte → BitVec 16) (m : Move) (c : ChanId) (s : State) : Host.Outcome State Fault Refusal :=
  match s.channel? c with
  | none => .next s
  | some ch =>
    match engineMove fcsFn m c (s.fbuf c ch) ch with
    | .error r => .refused r
    | .ok l => .next (s.putLane c l)

/-- The sequencer of engine `c` moves on after a micro-operation that ran whole. -/
def State.finishUop (c : ChanId) (s : State) : State :=
  match s.channel? c with
  | none => s
  | some ch => s.putLane c ⟨ch.uopDone c, []⟩

/-- The micro-operation in engine `c`'s slot runs whole, as its meaning says, and the sequencer moves on. A word whose
sending has begun goes on bit by bit (log 10). -/
def uopTurn (fcsFn : List Byte → BitVec 16) (c : ChanId) (s : State) : Host.Outcome State Fault Refusal :=
  match s.channel? c with
  | none => .refused .noEngine
  | some ch =>
    match ch.uop with
    | none => .next s
    | some w =>
      match slotWord c w with
      | .error r => .refused r
      | .ok (k, x) =>
        if ch.bitpos = 0#3 && !ch.stuffPending then
          match exec (uopInstr (k, c, x)) s with
          | .next t => .next (t.finishUop c)
          | .fault e => .fault e
          | .refused r => .refused r
        else engineTurn fcsFn (.serve .txbit) c s

/-- A host write seen by an engine: inside its open read window and in its command's region, the byte becomes unstable
(R50, R175). SEND_FLAGS has no region (R41). -/
def Channel.sawWrite (a : Addr) (ch : Channel) : Channel :=
  if ch.busy && (ch.op != opSendFlags) && inRegion ch.base ch.len a then
    { ch with unstable := a :: ch.unstable }
  else ch

/-- `MemWrite(addr, 1, v)` by the host (R40, R50, R175). -/
def State.hostWrite (a : Addr) (v : Byte) (s : State) : State :=
  { s with mem := Memory.set s.mem a.toNat v, channels := s.channels.map (Channel.sawWrite a) }

/-- The host does what it does next (R10, R14, R158). It waits for a response it is to take until there is one. -/
def hostTurn (s : State) : State :=
  match s.host with
  | [] => s
  | .offer w :: hs => { s with host := hs, cmd := s.cmd ++ [w] }
  | .write a v :: hs => State.hostWrite a v { s with host := hs }
  | .takeResp c :: hs =>
    match s.channel? c with
    | none => s
    | some ch =>
      if ch.phase = .resp then State.putLane c (Lane.respond c ch.respCount ⟨ch, []⟩) { s with host := hs } else s
  | .takeRejection k :: hs =>
    match s.rejections[k]? with
    | none => s
    | some r => { s with host := hs, rejections := s.rejections.eraseIdx k, trace := .resp r :: s.trace }

/-- An engine under `RST` (R170, R171): every register at its reset value, its command abandoned. What the model keeps of
the environment stays. -/
def Channel.afterRst (c : ChanId) (ch : Channel) : Channel :=
  { Channel.reset c with fxAnswers := ch.fxAnswers, draws := ch.draws }

/-- `afterRst` on every engine, the first with index `i`. -/
def resetChannels : Nat → List Channel → List Channel
  | _, [] => []
  | i, ch :: chs => ch.afterRst (BitVec.ofNat 8 i) :: resetChannels (i + 1) chs

/-- `RST` is asserted (R170, R171): all engines at once; no response stays outstanding; transfers already made stay made;
`FBUF` and the words not yet taken are the host's. Log 15. -/
def State.assertRst (s : State) : State :=
  { s with channels := resetChannels 0 s.channels, rejections := [], rst := true, trace := .rst :: s.trace }

/-- One turn of the schedule. -/
def takeTurn (t : Turn) (s : State) : Host.Outcome State Fault Refusal :=
  match t with
  | .command => serveHead s
  | .accept => .next (acceptHead s)
  | .engine m c => engineTurn Config.fcsFn m c s
  | .uop c => uopTurn Config.fcsFn c s
  | .host => .next (hostTurn s)
  | .assertRst => .next s.assertRst
  | .releaseRst => .next { s with rst := false }

/-- Put a word at the head of `CMD` and let the next turn serve it. -/
def State.withCmdWord (s : State) (w : CmdWord) : State :=
  { s with cmd := w :: s.cmd, sched := .command :: s.sched }

/-- Put a micro-operation word into the slot of the engine it names, at its first bit, and let the next turn run it. -/
def State.withUopWord (s : State) (w : UopWord) : State :=
  let c : ChanId := w.extractLsb' 16 8
  let channels := match s.channels[c.toNat]? with
    | none => s.channels
    | some ch => s.channels.set c.toNat { ch with uop := some w, bitpos := 0#3, stuffPending := false }
  { s with channels := channels, sched := .uop c :: s.sched }

end Sys2Proof.Machine
end

