-- ==== Sys2Proof/Machine/Step.lean ====
section
/-! DEFINITION. One step of the block, and the placing of one instruction for the next step. -/

namespace Sys2Proof.Machine

/-- One step: the next turn of the schedule; with nothing scheduled, the word at the head of `CMD` is served as one
atomic step (R183), and with no word offered the block waits (R172). Log 9, log 17. -/
def step (s : State) : Host.Outcome State Fault Refusal :=
  match s.sched with
  | [] => serveHead s
  | t :: ts => takeTurn t { s with sched := ts }

/-- The state whose next step takes the given word: a `CMD` word stands at the head of `CMD`, a `UOP` word in the slot of
the engine it names. Log 17, log 18. -/
def State.withFetchWord (s : State) (nbits w : Nat) : State :=
  match tableWord nbits w with
  | .cmd w => s.withCmdWord w
  | .uop w => s.withUopWord w

end Sys2Proof.Machine
end

