-- ==== Sys2Proof/Safety.lean ====
section
/-! DEFINITION. The terms claims are written in: bit streams as the rules describe them (40_bit_level R82, R87, R92, R93;
41_frame_and_flags R100, R106), the transfers a command makes in order (R143), and the invariant of a block in a
legal state (10_state R21 to R27; 30_encoding R64). Nothing here is used by the machine. -/

namespace Sys2Proof.Machine

/-! ## Bit streams -/

/-- The bits of bytes in sending order: buffer order, least significant bit first (R43). -/
def bytesBits : List Byte → List Bool
  | [] => []
  | x :: xs => byteBits x ++ bytesBits xs

/-- Raw bits of data bits, starting from a run of `r`: a 0 after every fifth consecutive 1 (R87, R88). -/
def stuff : Nat → List Bool → List Bool
  | _, [] => []
  | r, true :: bs => if r + 1 = 5 then true :: false :: stuff 0 bs else true :: stuff (r + 1) bs
  | _, false :: bs => false :: stuff 0 bs

/-- The run left after data bits that started from a run of `r` (R87, R89). -/
def runAfter : Nat → List Bool → Nat
  | r, [] => r
  | r, true :: bs => if r + 1 = 5 then runAfter 0 bs else runAfter (r + 1) bs
  | _, false :: bs => runAfter 0 bs

/-- How often the run reaches 5 over data bits that start from a run of `r` (R90, R106). -/
def stuffCount : Nat → List Bool → Nat
  | _, [] => 0
  | r, true :: bs => if r + 1 = 5 then 1 + stuffCount 0 bs else stuffCount (r + 1) bs
  | _, false :: bs => stuffCount 0 bs

/-- The line levels of raw bits from level `v`: a 0 toggles, a 1 holds (R82). -/
def nrzi : Bool → List Bool → List Bool
  | _, [] => []
  | v, b :: bs => (v ^^ !b) :: nrzi (v ^^ !b) bs

/-- The level after raw bits: `v` XOR the parity of the number of 0 bits (R82). -/
def levelAfter (v : Bool) (raw : List Bool) : Bool := v ^^ (raw.count false % 2 == 1)

/-- What a receiver makes of line levels: 1 where the level held, 0 where it changed (R82). -/
def unNrzi : Bool → List Bool → List Bool
  | _, [] => []
  | v, w :: ws => (v == w) :: unNrzi w ws

/-- Delete every 0 that immediately follows five consecutive 1 bits (R93); `r` counts the 1 bits just before. -/
def destuff : Nat → List Bool → List Bool
  | _, [] => []
  | r, b :: bs => if r = 5 ∧ b = false then destuff 0 bs else b :: destuff (if b then r + 1 else 0) bs

/-- A byte from its bits, least significant first (R93). -/
def bitsByte (b0 b1 b2 b3 b4 b5 b6 b7 : Bool) : Byte :=
  BitVec.ofBool b7 ++ BitVec.ofBool b6 ++ BitVec.ofBool b5 ++ BitVec.ofBool b4 ++ BitVec.ofBool b3 ++
    BitVec.ofBool b2 ++ BitVec.ofBool b1 ++ BitVec.ofBool b0

/-- Bits grouped eight at a time, least significant first (R93). -/
def groupBytes : List Bool → List Byte
  | b0 :: b1 :: b2 :: b3 :: b4 :: b5 :: b6 :: b7 :: bs => bitsByte b0 b1 b2 b3 b4 b5 b6 b7 :: groupBytes bs
  | _ => []

/-- The raw bits of one flag (R86). -/
def flagRaw : List Bool := byteBits Config.flag

/-- The two FCS bytes as sent (R44, R104). -/
def fcsBytes (bf : Bool) (f : BitVec 16) : List Byte := [fcsLoByte bf f, fcsHiByte bf f]

/-- The raw bits between the flags of a frame (R92, R100). -/
def innerRaw (payload : List Byte) (bf : Bool) (f : BitVec 16) : List Bool :=
  stuff 0 (bytesBits (payload ++ fcsBytes bf f))

/-- The raw bits of a whole frame (R100). -/
def frameRaw (payload : List Byte) (bf : Bool) (f : BitVec 16) : List Bool :=
  flagRaw ++ innerRaw payload bf f ++ flagRaw

/-- The raw bits of `n` flags (R110). -/
def flagsRaw : Nat → List Bool
  | 0 => []
  | n + 1 => flagRaw ++ flagsRaw n

/-! ## Transfers -/

/-- The `TXBIT[c]` transfers of raw bits from level `v` (R81, R82). -/
def txTransfers (c : ChanId) (v : Bool) (raw : List Bool) : List Event := (nrzi v raw).map (Event.txbit c)

/-- The payload's cells, in the order they are read (R41, R42). -/
def payloadCells (m : Memory) (base : Addr) : Nat → Nat → List (Addr × Byte)
  | 0, _ => []
  | n + 1, i => (ea base i, Memory.byteAt m (ea base i)) :: payloadCells m base n (i + 1)

/-- Each payload byte is read, then sent (R101), from level `v` and run `r`. -/
def payloadTransfers (c : ChanId) : List (Addr × Byte) → Bool → Nat → List Event
  | [], _, _ => []
  | (a, x) :: cells, v, r =>
    .fbufAsk c a :: .fbufRead c a x :: (txTransfers c v (stuff r (byteBits x)) ++
      payloadTransfers c cells (levelAfter v (stuff r (byteBits x))) (runAfter r (byteBits x)))

/-- The transfers of a SEND_FRAME between its acceptance and its response, oldest first (R100, R143), from level `v`. -/
def frameTransfers (c : ChanId) (m : Memory) (base : Addr) (len : BitVec 16) (bf : Bool) (f : BitVec 16) (v : Bool) :
    List Event :=
  let cells := payloadCells m base len.toNat 0
  let payload := cells.map Prod.snd
  let before := flagRaw ++ stuff 0 (bytesBits payload)
  let check := stuff (runAfter 0 (bytesBits payload)) (bytesBits (fcsBytes bf f))
  txTransfers c v flagRaw ++ payloadTransfers c cells (levelAfter v flagRaw) 0 ++
    [.fcsqAsk c base len, .fcsqAnswer c f] ++
    txTransfers c (levelAfter v before) check ++ txTransfers c (levelAfter v (before ++ check)) flagRaw

/-- The levels channel `c` has sent, oldest first, from a trace (newest first). -/
def sentLevels (c : ChanId) (trace : List Event) : List Bool :=
  trace.reverse.filterMap fun e => match e with
    | .txbit d v => if d = c then some v else none
    | _ => none

/-- The frame-buffer reads of channel `c`, oldest first. -/
def bufferReads (c : ChanId) (trace : List Event) : List (Addr × Byte) :=
  trace.reverse.filterMap fun e => match e with
    | .fbufRead d a x => if d = c then some (a, x) else none
    | _ => none

/-- The channel's encoding state after a frame that carried `payload` (R107), its latches aside. -/
def Channel.afterFrame (payload : List Byte) (f : BitVec 16) (ch : Channel) : Channel :=
  let raw := frameRaw payload ch.bf f
  { ch with bitsSent := BitVec.ofNat 32 raw.length, stuffRun := 0#3, lineLevel := levelAfter ch.lineLevel raw,
            idx := ch.len.setWidth 17, fcs := f, busy := false, phase := .idle, asked := false, fcsAsk := .no,
            unstable := [] }

/-- The channel's state after `n` flags (R113), its latches aside. -/
def Channel.afterFlags (n : Nat) (ch : Channel) : Channel :=
  { ch with bitsSent := BitVec.ofNat 32 (8 * n), stuffRun := if n = 0 then ch.stuffRun else 0#3,
            idx := ch.len.setWidth 17, busy := false, phase := .idle, asked := false, fcsAsk := .no, unstable := [] }

/-- The encapsulator's next answer on a channel (R138; log 5). -/
def Channel.fxAnswer (c : ChanId) (ch : Channel) : Count :=
  match ch.fxAnswers with
  | r :: _ => r
  | [] => Config.fxResult c ch.draws

/-- The channel once the encapsulator has answered (R131). -/
def Channel.fxAnswered (c : ChanId) (ch : Channel) : Channel :=
  match ch.fxAnswers with
  | r :: rs => { ch with fxAnswers := rs, fxres := r }
  | [] => { ch with draws := ch.draws + 1, fxres := Config.fxResult c ch.draws }

/-- The last level channel `c` sent since the latest `RST`, from a trace (newest first). -/
def lastLevel (c : ChanId) : List Event → Option Bool
  | [] => none
  | .txbit d v :: es => if d = c then some v else lastLevel c es
  | .rst :: _ => none
  | .cmd _ :: es => lastLevel c es
  | .resp _ :: es => lastLevel c es
  | .fbufAsk _ _ :: es => lastLevel c es
  | .fbufRead _ _ _ :: es => lastLevel c es
  | .fcsqAsk _ _ _ :: es => lastLevel c es
  | .fcsqAnswer _ _ :: es => lastLevel c es
  | .fxqAsk _ _ _ _ :: es => lastLevel c es
  | .fxqAnswer _ _ :: es => lastLevel c es
  | .flushAsk _ _ :: es => lastLevel c es
  | .flushDone _ :: es => lastLevel c es
  | .warn _ _ :: es => lastLevel c es

/-! ## Legal states -/

/-- Engine `c` can take a command: it exists, is not busy, and `RST` is not asserted (R70, R170). -/
def State.ready (s : State) (c : ChanId) (ch : Channel) : Prop :=
  s.rst = false ∧ s.channel? c = some ch ∧ ch.busy = false

/-- The micro-operation word a phase may have in the engine's slot (R64, R100, R110). -/
def slotLegal (c : ChanId) (ch : Channel) : Prop :=
  match ch.phase with
  | .startFlag => ch.uop = some (uopCtrlWord c Config.flag)
  | .endFlag => ch.uop = some (uopCtrlWord c Config.flag)
  | .flags => ch.uop = some (uopCtrlWord c Config.flag)
  | .payload => ch.uop = none ∨ ∃ x, ch.uop = some (uopDataWord c x)
  | .fcsLo => ch.uop = some (uopDataWord c (fcsLoByte ch.bf ch.fcs))
  | .fcsHi => ch.uop = some (uopDataWord c (fcsHiByte ch.bf ch.fcs))
  | .idle => ch.uop = none
  | .fcsWait => ch.uop = none
  | .flushWait => ch.uop = none
  | .fxWait => ch.uop = none
  | .warn => ch.uop = none
  | .resp => ch.uop = none

/-- The opcode a phase belongs to (R27, R100, R110, R130). -/
def phaseOp (ch : Channel) : Prop :=
  match ch.phase with
  | .idle => True
  | .resp => ch.op = opSendFrame ∨ ch.op = opSendFlags ∨ ch.op = opL2Send
  | .flags => ch.op = opSendFlags
  | .flushWait => ch.op = opSendFlags ∧ ch.fin = true
  | .fxWait => ch.op = opL2Send ∧ fxEnabled ch.fxp = true
  | .warn => ch.op = opL2Send ∧ fxEnabled ch.fxp = true ∧ fxSuccess ch.fxres = false
  | .startFlag => ch.op = opSendFrame ∨ ch.op = opL2Send
  | .payload => ch.op = opSendFrame ∨ ch.op = opL2Send
  | .fcsWait => ch.op = opSendFrame ∨ ch.op = opL2Send
  | .fcsLo => ch.op = opSendFrame ∨ ch.op = opL2Send
  | .fcsHi => ch.op = opSendFrame ∨ ch.op = opL2Send
  | .endFlag => ch.op = opSendFrame ∨ ch.op = opL2Send

/-- How much has been sent in a phase: less than the command asks for while bytes or flags are left, all of it after the
last one, nothing before the first (R25, R27). -/
def phaseSent (ch : Channel) : Prop :=
  match ch.phase with
  | .startFlag => ch.idx = 0#17
  | .fxWait => ch.idx = 0#17
  | .warn => ch.idx = 0#17
  | .payload => ch.idx.toNat < ch.len.toNat
  | .flags => ch.idx.toNat < ch.len.toNat
  | .fcsWait => ch.idx.toNat = ch.len.toNat
  | .fcsLo => ch.idx.toNat = ch.len.toNat
  | .fcsHi => ch.idx.toNat = ch.len.toNat
  | .endFlag => ch.idx.toNat = ch.len.toNat
  | .flushWait => ch.idx.toNat = ch.len.toNat
  | .idle => True
  | .resp => True

/-- The requests that may be open, and the FCS answer that must be there, in a phase (R41, R103, R112, R131). -/
def requestsLegal (ch : Channel) : Prop :=
  match ch.phase with
  | .idle => ch.asked = false ∧ ch.fcsAsk = .no
  | .startFlag => ch.asked = false
  | .payload => ch.asked = true → ch.uop = none
  | .fcsWait => ch.asked = false ∧ ch.fcsAsk ≠ .answered
  | .fcsLo => ch.asked = false ∧ ch.fcsAsk = .answered
  | .fcsHi => ch.asked = false ∧ ch.fcsAsk = .answered
  | .endFlag => ch.asked = false ∧ ch.fcsAsk = .answered
  | .flags => ch.asked = false ∧ ch.fcsAsk = .no
  | .flushWait => ch.fcsAsk = .no
  | .fxWait => ch.fcsAsk = .no
  | .warn => ch.asked = false ∧ ch.fcsAsk = .no
  | .resp => ch.asked = false ∧ ch.fcsAsk ≠ .asked

/-- A legal engine between two steps: the run is in 0..4 (R24); busy exactly outside IDLE (R25, R27); as much is sent as
the phase says, and never more than the command asks for (R25, R27); only words its sequencer issues (R64); only requests
its phase makes (R103, R170); a stuffed bit is owed only while a data byte is sent (R91); no read window open while idle
(R50). -/
structure Channel.Inv (c : ChanId) (ch : Channel) : Prop where
  run : ch.stuffRun.toNat ≤ 4
  busy_iff : ch.busy = true ↔ ch.phase ≠ .idle
  sent_le : ch.idx.toNat ≤ ch.len.toNat
  sent : phaseSent ch
  slot : slotLegal c ch
  op : phaseOp ch
  requests : requestsLegal ch
  at_start : ch.uop = none → ch.bitpos = 0#3 ∧ ch.stuffPending = false
  pending : ch.stuffPending = true → ∃ x, ch.uop = some (uopDataWord c x)
  window : ch.phase = .idle → ch.unstable = []

/-- A legal block: `NCHAN` engines, each legal; the frame buffer in its canonical form; under `RST` every engine idle. -/
structure State.Inv (s : State) : Prop where
  count : s.channels.length = Config.nchan
  channels : ∀ (i : Nat) (ch : Channel), s.channels[i]? = some ch → ch.Inv (BitVec.ofNat 8 i)
  mem : s.mem.wf = true
  rst : s.rst = true → ∀ ch ∈ s.channels, ch.phase = .idle

/-- The line level of every engine is the level it sent last, `LINE_INIT` where it has sent none since `RST` (R22, R82). -/
def State.LineLaw (s : State) : Prop :=
  ∀ (c : ChanId) (ch : Channel), s.channel? c = some ch →
    ch.lineLevel = (lastLevel c s.trace).getD (Config.lineInit c)

/-- The command words taken off `CMD` so far. -/
def State.wordsTaken (s : State) : Nat := s.trace.countP fun e => match e with | .cmd _ => true | _ => false

/-- The responses transferred so far. -/
def State.responsesSent (s : State) : Nat := s.trace.countP fun e => match e with | .resp _ => true | _ => false

/-- The responses still owed: outstanding rejections, and one for each busy engine (R14, R25). -/
def State.responsesOwed (s : State) : Nat := s.rejections.length + s.channels.countP (·.busy)

/-- The phase after the last payload byte: FCS_WAIT, or FCS_LO where the FCS is there already (R100, R103; log 13). -/
def Channel.afterPayload (ch : Channel) : Phase := if ch.fcsAsk = .answered then .fcsLo else .fcsWait

/-- The phases that can follow the engine's present one, as its command fixes them (R27, R100, R110, R112, R130, R132);
`IDLE` is left by acceptance and `RESP` by the host alone. That FCS_WAIT is passed by where the FCS is there already is
the model's choice (log 13), and where the encapsulator's answer comes from is log 5. -/
def Channel.successors (c : ChanId) (ch : Channel) : List Phase :=
  match ch.phase with
  | .idle => []
  | .startFlag => [if ch.len = 0#16 then ch.afterPayload else .payload]
  | .payload => if ch.idx.toNat + 1 = ch.len.toNat then [ch.afterPayload] else []
  | .fcsWait => [.fcsLo]
  | .fcsLo => [.fcsHi]
  | .fcsHi => [.endFlag]
  | .endFlag => [.resp]
  | .flags => if ch.idx.toNat + 1 = ch.len.toNat then [if ch.fin then .flushWait else .resp] else []
  | .flushWait => [.resp]
  | .fxWait => [if 0 < (ch.fxAnswer c).toInt then .resp else .warn]
  | .warn => [.startFlag]
  | .resp => []

/-- The handshakes an engine can make in its present state: a request its rule lets it make now and it has not made yet,
an answer to a request that is open, and the transfer it has up on a valid/ready port (R10, R41, R103, R112, R131, R136,
R140, R171). -/
def Channel.may (ch : Channel) : Move → Prop
  | .request .txbit => False
  | .request .fbuf => ch.phase = .payload ∧ ch.uop = none ∧ ch.asked = false
  | .request .fcsq => (ch.phase = .startFlag ∨ ch.phase = .payload ∨ ch.phase = .fcsWait) ∧ ch.fcsAsk = .no
  | .request .fxq => ch.phase = .fxWait ∧ ch.asked = false
  | .request .flush => ch.phase = .flushWait ∧ ch.asked = false
  | .request .warn => False
  | .serve .txbit => ch.uop ≠ none
  | .serve .fbuf => ch.phase = .payload ∧ ch.asked = true
  | .serve .fcsq => ch.fcsAsk = .asked
  | .serve .fxq => ch.phase = .fxWait ∧ ch.asked = true
  | .serve .flush => ch.phase = .flushWait ∧ ch.asked = true
  | .serve .warn => ch.phase = .warn

/-- The first phase of an accepted command, from its latched operands (R100, R110, R112, R130). -/
def Channel.firstPhase (ch : Channel) : Phase :=
  if ch.op = 2#4 then
    (if ch.len ≠ 0#16 then .flags else if ch.fin then .flushWait else .resp)
  else if ch.op = 3#4 ∧ ch.fxp ≠ 0#8 then .fxWait
  else .startFlag

end Sys2Proof.Machine
end

