-- ==== Sys2Proof/Certificates/Slice0/Obligations.lean ====
section
/-! DEFINITION. The statements for the provers, from the numbered rules of spec/. Each docstring names the rules it
formalises; a clause that rests on a choice of the model names its log entry. -/

open Sys2Proof Sys2Proof.Machine

/-! ## Encoding (30_encoding; 60_exceptions R153) -/

/-- R73, the worked words: each decodes to the command or micro-operation written beside it, or is rejected. -/
def Obligations.WorkedWordsDecode : Prop :=
  decodeCmd 0x0100000200000001#64 = .ok (.sendFrame ⟨false, false, 0#8, 0#8, 2#16, 0x0100#16⟩) ∧
  decodeCmd 0x0100000200000011#64 = .ok (.sendFrame ⟨true, false, 0#8, 0#8, 2#16, 0x0100#16⟩) ∧
  decodeCmd 0x0000000300000122#64 = .ok (.sendFlags ⟨false, true, 1#8, 0#8, 3#16, 0#16⟩) ∧
  decodeCmd 0x0000000000000002#64 = .ok (.sendFlags ⟨false, false, 0#8, 0#8, 0#16, 0#16⟩) ∧
  decodeCmd 0x0200000200100013#64 = .ok (.l2Send ⟨true, false, 0#8, 16#8, 2#16, 0x0200#16⟩) ∧
  decodeCmd 0x0000000000000203#64 = .ok (.l2Send ⟨false, false, 2#8, 0#8, 0#16, 0#16⟩) ∧
  decodeCmd 0x0000000000000004#64 = .error .illegalOp ∧
  decodeCmd 0x0000000001000001#64 = .error .rsvdBits ∧
  decodeUop 0x007E01#24 = .ok (.uopCtrl 0#8 0x7E#8) ∧
  decodeUop 0x00F002#24 = .ok (.uopData 0#8 0xF0#8) ∧
  decodeUop 0x000100#24 = .ok (.uopBit 0#8 true) ∧
  decodeUop 0x030000#24 = .ok (.uopBit 3#8 false)

/-- R61, R62, R64: decoding the word of an instruction gives the instruction back, every operand at every value. -/
def Obligations.DecodeOfEncode : Prop :=
  ∀ i : Instr, decode (encode i) = .ok i

/-- R61, R62, R64: no two words stand for one instruction: the word of what a word decodes to is that word. (That a `UOP`
word with `Z` not 0, or a `UOP_BIT` word with `VAL` above 1, decodes to nothing is the model's choice, log 16.) -/
def Obligations.EncodeOfDecode : Prop :=
  ∀ (w : InstrWord) (i : Instr), decode w = .ok i → encode i = w

/-- R69, R153: every word decodes to one of the three commands, or is rejected with the first cause in the order
ILLEGAL_OP, RSVD_BITS, BAD_CHAN. -/
def Obligations.CommandWordsClassifiedInOrder : Prop :=
  ∀ (nchan : Nat) (w : CmdWord),
    classifyCmd nchan w =
      if ¬ (w.extractLsb' 0 4 = 1#4 ∨ w.extractLsb' 0 4 = 2#4 ∨ w.extractLsb' 0 4 = 3#4) then .error .illegalOp
      else if w.extractLsb' 6 2 ≠ 0#2 ∨ w.extractLsb' 24 8 ≠ 0#8 then .error .rsvdBits
      else if nchan ≤ (w.extractLsb' 8 8).toNat then .error .badChan
      else if w.extractLsb' 0 4 = 1#4 then .ok (.sendFrame (cmdFields w))
      else if w.extractLsb' 0 4 = 2#4 then .ok (.sendFlags (cmdFields w))
      else .ok (.l2Send (cmdFields w))

/-- R64, U10: the engine whose slot holds a word with `K` = 3 is refused by both turns that would run it. -/
def Obligations.ReservedUopKindRefused : Prop :=
  ∀ (s : State) (c : ChanId) (ch : Channel) (w : UopWord) (ts : List Turn),
    s.channel? c = some ch → ch.uop = some w → w.extractLsb' 0 2 = 3#2 → w.extractLsb' 2 6 = 0#6 →
      step { s with sched := .uop c :: ts } = .refused (.uopMalformed .kindReserved) ∧
      step { s with sched := .engine (.serve .txbit) c :: ts } = .refused (.uopMalformed .kindReserved)

/-- A micro-operation for a channel that has no engine is refused (the model's choice, log 16: no sequencer issues one,
R64). -/
def Obligations.UopWithoutEngineRefused : Prop :=
  ∀ (s : State) (c : ChanId), s.channel? c = none →
    (∀ b, exec (.uopBit c b) s = .refused .noEngine) ∧ (∀ x, exec (.uopCtrl c x) s = .refused .noEngine) ∧
    (∀ x, exec (.uopData c x) s = .refused .noEngine)

/-! ## Micro-operations (40_bit_level) -/

/-- R81: UOP_BIT toggles the line on a 0 and holds it on a 1, sends the level after that, and counts the bit; nothing
else changes (the word leaves the engine's slot, log 10). -/
def Obligations.UopBitResult : Prop :=
  ∀ (s : State) (c : ChanId) (ch : Channel) (b : Bool), s.channel? c = some ch →
    exec (.uopBit c b) s = .next { s with
      channels := s.channels.set c.toNat { ch with
        uop := none
        lineLevel := if b then ch.lineLevel else !ch.lineLevel
        bitsSent := ch.bitsSent + 1#32 }
      trace := .txbit c (if b then ch.lineLevel else !ch.lineLevel) :: s.trace }

/-- R84: UOP_CTRL sends the eight bits of its byte, least significant first, with no stuffing whatever the run was, and
then sets the run to 0; nothing else changes (log 10). -/
def Obligations.UopCtrlResult : Prop :=
  ∀ (s : State) (c : ChanId) (ch : Channel) (x : Byte), s.channel? c = some ch →
    exec (.uopCtrl c x) s = .next { s with
      channels := s.channels.set c.toNat { ch with
        uop := none
        lineLevel := levelAfter ch.lineLevel (byteBits x)
        bitsSent := ch.bitsSent + 8#32
        stuffRun := 0#3 }
      trace := ((nrzi ch.lineLevel (byteBits x)).map (Event.txbit c)).reverse ++ s.trace }

/-- R87, R88: UOP_DATA sends the eight bits of its byte, least significant first, with a 0 after every fifth consecutive
1, counting the run it found; nothing else changes (log 10). The run is in 0..4 between micro-operations (R24). -/
def Obligations.UopDataResult : Prop :=
  ∀ (s : State) (c : ChanId) (ch : Channel) (x : Byte), s.channel? c = some ch → ch.stuffRun.toNat ≤ 4 →
    exec (.uopData c x) s = .next { s with
      channels := s.channels.set c.toNat { ch with
        uop := none
        lineLevel := levelAfter ch.lineLevel (stuff ch.stuffRun.toNat (byteBits x))
        bitsSent := ch.bitsSent + BitVec.ofNat 32 (stuff ch.stuffRun.toNat (byteBits x)).length
        stuffRun := BitVec.ofNat 3 (runAfter ch.stuffRun.toNat (byteBits x)) }
      trace := ((nrzi ch.lineLevel (stuff ch.stuffRun.toNat (byteBits x))).map (Event.txbit c)).reverse ++ s.trace }

/-- R90: one UOP_DATA emits `8 + s` bits, `s` the number of times the run reaches 5 inside it, `s` in 0..2, and `s` = 2 for
exactly the listed runs and bytes. The run is in 0..4 between micro-operations (R24). -/
def Obligations.UopDataBitCount : Prop :=
  ∀ (s : State) (c : ChanId) (ch : Channel) (x : Byte), s.channel? c = some ch → ch.stuffRun.toNat ≤ 4 →
    let k := stuffCount ch.stuffRun.toNat (byteBits x)
    ∃ (t : State) (ch' : Channel), exec (.uopData c x) s = .next t ∧ t.channel? c = some ch' ∧
      ch'.bitsSent = ch.bitsSent + BitVec.ofNat 32 (8 + k) ∧
      (∃ levels, levels.length = 8 + k ∧ sentLevels c t.trace = sentLevels c s.trace ++ levels ∧
        levels = nrzi ch.lineLevel (stuff ch.stuffRun.toNat (byteBits x))) ∧
      ch'.stuffRun.toNat = runAfter ch.stuffRun.toNat (byteBits x) ∧ k ≤ 2 ∧
      (k = 2 ↔ (ch.stuffRun = 2#3 ∧ x = 0xFF#8) ∨
        (ch.stuffRun = 3#3 ∧ x ∈ [0x7F#8, 0xFB#8, 0xFF#8]) ∨
        (ch.stuffRun = 4#3 ∧ x ∈ [0x3F#8, 0x7D#8, 0x7F#8, 0xBF#8, 0xF9#8, 0xFB#8, 0xFD#8, 0xFF#8]))

/-- R86: one flag sends the complement of the entry level seven times and then the entry level, and leaves the level as
it was, from any run. -/
def Obligations.FlagLevels : Prop :=
  ∀ (s : State) (c : ChanId) (ch : Channel), s.channel? c = some ch →
    ∃ (t : State) (ch' : Channel), exec (.uopCtrl c 0x7E#8) s = .next t ∧ t.channel? c = some ch' ∧
      ch'.lineLevel = ch.lineLevel ∧ ch'.stuffRun = 0#3 ∧
      sentLevels c t.trace = sentLevels c s.trace ++ List.replicate 7 (!ch.lineLevel) ++ [ch.lineLevel]

/-- R91: while a stuffed bit is owed, the channel's next bit is the stuffed 0: engine `c`'s next transfer on `TXBIT[c]`
toggles the line, sends that level, and clears the run; no data bit goes first. Both turns that can send the channel's next
bit, the tone consumer's and the whole micro-operation's, send this one bit and end alike. (The two turns are log 10.) -/
def Obligations.OwedStuffedBitGoesNext : Prop :=
  ∀ (s : State) (c : ChanId) (ch : Channel) (x : Byte) (ts : List Turn),
    s.channel? c = some ch → ch.uop = some (uopDataWord c x) → ch.stuffPending = true →
      ∃ (t : State) (ch' : Channel), step { s with sched := .engine (.serve .txbit) c :: ts } = .next t ∧
        step { s with sched := .uop c :: ts } = .next t ∧
        t.channel? c = some ch' ∧ t.trace = .txbit c (!ch.lineLevel) :: s.trace ∧
        ch'.lineLevel = !ch.lineLevel ∧ ch'.stuffPending = false ∧ ch'.stuffRun = 0#3

/-! ## SEND_FRAME (41_frame_and_flags) -/

/-- R100, R101, R102: on a ready channel SEND_FRAME completes. It sends the start flag, each payload byte as it is asked
for and read, the two FCS bytes of `FCS_FN` over those bytes and the end flag, responds OK with the bits sent, and leaves
everything else of the block as it was. (The model's choices: that the FCSQ request and answer stand between the payload
and the FCS, where R103 leaves their place open, log 13; what `idx`, `bitpos`, `stuff_pending` and the latched `fcs` hold
after the command, log 23 and log 26.) -/
def Obligations.SendFrameResult : Prop :=
  ∀ (s : State) (f : CmdFields) (ch : Channel), s.ready f.chan ch →
    let payload := s.mem.region f.base f.len.toNat 0
    let fcs := Config.fcsFn payload
    let raw := frameRaw payload f.bf fcs
    exec (.sendFrame f) s = .next { s with
      channels := s.channels.set f.chan.toNat ((ch.latch 1#4 f).afterFrame payload fcs)
      cmd := s.cmd.tail
      trace := .resp ⟨f.chan, .ok, BitVec.ofNat 32 raw.length⟩ ::
        ((frameTransfers f.chan s.mem f.base f.len f.bf fcs ch.lineLevel).reverse ++ .cmd f.chan :: s.trace) }

/-- R82, R100: the levels a SEND_FRAME puts on the line are the NRZI coding, from the level it found, of flag, stuffed
payload, stuffed FCS low byte, stuffed FCS high byte, flag. -/
def Obligations.SendFrameLevels : Prop :=
  ∀ (s : State) (f : CmdFields) (ch : Channel), s.ready f.chan ch →
    ∃ t, exec (.sendFrame f) s = .next t ∧
      sentLevels f.chan t.trace = sentLevels f.chan s.trace ++
        nrzi ch.lineLevel (byteBits 0x7E#8 ++
          stuff 0 (bytesBits (s.mem.region f.base f.len.toNat 0 ++
            fcsBytes f.bf (Config.fcsFn (s.mem.region f.base f.len.toNat 0)))) ++ byteBits 0x7E#8)

/-- R106: the response of SEND_FRAME counts `8 x len + 32 + S` bits, `S` the number of times the run reaches 5 over the
data bits, at most a fifth of them. -/
def Obligations.SendFrameCount : Prop :=
  ∀ (s : State) (f : CmdFields) (ch : Channel), s.ready f.chan ch →
    ∃ (t : State) (n : Count), exec (.sendFrame f) s = .next t ∧
      t.trace.head? = some (.resp ⟨f.chan, .ok, n⟩) ∧
      n.toNat = 8 * f.len.toNat + 32 + stuffCount 0 (bytesBits (s.mem.region f.base f.len.toNat 0 ++
        fcsBytes f.bf (Config.fcsFn (s.mem.region f.base f.len.toNat 0)))) ∧
      n.toNat ≤ 8 * f.len.toNat + 32 + 8 * (f.len.toNat + 2) / 5

/-- R107: after SEND_FRAME the run is 0, `bits_sent` is the count, the level is the entry level XOR the parity of the 0
bits between the flags, and the engine is idle. -/
def Obligations.SendFrameEndState : Prop :=
  ∀ (s : State) (f : CmdFields) (ch : Channel), s.ready f.chan ch →
    ∃ (t : State) (ch' : Channel), exec (.sendFrame f) s = .next t ∧ t.channel? f.chan = some ch' ∧
      ch'.stuffRun = 0#3 ∧ t.trace.head? = some (.resp ⟨f.chan, .ok, ch'.bitsSent⟩) ∧
      ch'.lineLevel = (ch.lineLevel ^^ (((innerRaw (s.mem.region f.base f.len.toNat 0) f.bf
        (Config.fcsFn (s.mem.region f.base f.len.toNat 0))).count false) % 2 == 1)) ∧
      ch'.busy = false ∧ ch'.phase = .idle

/-- R41, R101: a SEND_FRAME reads the bytes at `(base + i) mod 2^16`, `i` = 0 to `len - 1`, each once and in that order. -/
def Obligations.SendFrameReadsPayloadOnceInOrder : Prop :=
  ∀ (s : State) (f : CmdFields) (ch : Channel), s.ready f.chan ch →
    ∃ t, exec (.sendFrame f) s = .next t ∧
      bufferReads f.chan t.trace = bufferReads f.chan s.trace ++
        (List.range f.len.toNat).map fun i =>
          (f.base + BitVec.ofNat 16 i, s.mem.byteAt (f.base + BitVec.ofNat 16 i))

/-- R108: a SEND_FRAME of length 0 reads no byte, asks the FCS calculator about no bytes, and sends the two flags and the
two FCS bytes of the empty sequence: `32 + S` bits. -/
def Obligations.EmptyFrame : Prop :=
  ∀ (s : State) (f : CmdFields) (ch : Channel), s.ready f.chan ch → f.len = 0#16 →
    ∃ (t : State) (n : Count), exec (.sendFrame f) s = .next t ∧
      bufferReads f.chan t.trace = bufferReads f.chan s.trace ∧
      .fcsqAsk f.chan f.base 0#16 ∈ t.trace ∧ .fcsqAnswer f.chan (Config.fcsFn []) ∈ t.trace ∧
      t.trace.head? = some (.resp ⟨f.chan, .ok, n⟩) ∧
      n.toNat = 32 + stuffCount 0 (bytesBits (fcsBytes f.bf (Config.fcsFn []))) ∧
      sentLevels f.chan t.trace = sentLevels f.chan s.trace ++
        nrzi ch.lineLevel (byteBits 0x7E#8 ++ stuff 0 (bytesBits (fcsBytes f.bf (Config.fcsFn []))) ++
          byteBits 0x7E#8)

/-- R104: from one state, SEND_FRAME with and without bad_fcs sends the same start flag and payload, in raw bits and in
levels, the same raw end flag, and between them the FCS bytes, complemented in the one; both parts are stuffed. -/
def Obligations.BadFcsComplementsOnlyTheFcs : Prop :=
  ∀ (s : State) (f : CmdFields) (ch : Channel), s.ready f.chan ch →
    let fcs := Config.fcsFn (s.mem.region f.base f.len.toNat 0)
    let lo : Byte := fcs.extractLsb' 0 8
    let hi : Byte := fcs.extractLsb' 8 8
    let bits := bytesBits (s.mem.region f.base f.len.toNat 0)
    let opening := byteBits 0x7E#8 ++ stuff 0 bits
    ∃ t u, exec (.sendFrame { f with bf := false }) s = .next t ∧
      exec (.sendFrame { f with bf := true }) s = .next u ∧
      sentLevels f.chan t.trace = sentLevels f.chan s.trace ++ nrzi ch.lineLevel opening ++
        nrzi (levelAfter ch.lineLevel opening) (stuff (runAfter 0 bits) (bytesBits [lo, hi]) ++ byteBits 0x7E#8) ∧
      sentLevels f.chan u.trace = sentLevels f.chan s.trace ++ nrzi ch.lineLevel opening ++
        nrzi (levelAfter ch.lineLevel opening) (stuff (runAfter 0 bits) (bytesBits [~~~lo, ~~~hi]) ++ byteBits 0x7E#8)

/-- R93: a receiver that undoes NRZI from the entry level, drops the two flags, deletes every 0 after five 1 bits and
groups the rest by eight gets the payload and then the two FCS bytes as sent. -/
def Obligations.ReceiverRecoversFrame : Prop :=
  ∀ (s : State) (f : CmdFields) (ch : Channel), s.ready f.chan ch →
    ∃ t levels, exec (.sendFrame f) s = .next t ∧ sentLevels f.chan t.trace = sentLevels f.chan s.trace ++ levels ∧
      groupBytes (destuff 0 (((unNrzi ch.lineLevel levels).drop 8).take (levels.length - 16))) =
        s.mem.region f.base f.len.toNat 0 ++ fcsBytes f.bf (Config.fcsFn (s.mem.region f.base f.len.toNat 0))

/-- R92: between its flags a SEND_FRAME never sends six consecutive 1 bits, any five consecutive 1 bits are followed by a
0, and the flag pattern occurs neither among the raw bits there nor across either flag boundary. -/
def Obligations.NoFlagInsideFrame : Prop :=
  ∀ (s : State) (f : CmdFields) (ch : Channel), s.ready f.chan ch →
    ∃ t inner, exec (.sendFrame f) s = .next t ∧
      sentLevels f.chan t.trace = sentLevels f.chan s.trace ++
        nrzi ch.lineLevel (byteBits 0x7E#8 ++ inner ++ byteBits 0x7E#8) ∧
      (∀ pre post : List Bool, inner = pre ++ List.replicate 5 true ++ post → ∃ rest, post = false :: rest) ∧
      ¬ (List.replicate 6 true <:+: inner) ∧ ¬ (byteBits 0x7E#8 <:+: inner) ∧
      ¬ (byteBits 0x7E#8 <:+: (byteBits 0x7E#8).tail ++ inner ++ (byteBits 0x7E#8).dropLast)

/-- R34: the count of a SEND_FRAME, of an L2_SEND with `FXP` = 0, and of an L2_SEND that falls back to plain framing is at
most 629171, and a SEND_FLAGS's is at most 524280. (On the encapsulated path the count is the encapsulator's own, R133,
and no such bound holds.) -/
def Obligations.LargestCounts : Prop :=
  ∀ (s : State) (f : CmdFields) (ch : Channel), s.ready f.chan ch →
    (∃ (t : State) (n : Count), exec (.sendFrame f) s = .next t ∧
      t.trace.head? = some (.resp ⟨f.chan, .ok, n⟩) ∧ n.toNat ≤ 629171) ∧
    (∃ (t : State) (n : Count), exec (.sendFlags f) s = .next t ∧
      t.trace.head? = some (.resp ⟨f.chan, .ok, n⟩) ∧ n.toNat ≤ 524280) ∧
    (f.fxp = 0#8 ∨ (ch.fxAnswer f.chan).toInt ≤ 0 →
      ∃ (t : State) (n : Count), exec (.l2Send f) s = .next t ∧
        t.trace.head? = some (.resp ⟨f.chan, .ok, n⟩) ∧ n.toNat ≤ 629171)

/-! ## SEND_FLAGS (41_frame_and_flags) -/

/-- R110, R112, R113: on a ready channel SEND_FLAGS completes: `n` flags, then one flush of the channel's device if FIN is
set, asked for and completed, then the response with count `8 x n`; the level is as it was, and everything else of the
block. (What `idx`, `bitpos`, `stuff_pending` and the kept latches hold after the command is the model's choice, log 23
and log 26.) -/
def Obligations.SendFlagsResult : Prop :=
  ∀ (s : State) (f : CmdFields) (ch : Channel), s.ready f.chan ch →
    exec (.sendFlags f) s = .next { s with
      channels := s.channels.set f.chan.toNat ((ch.latch 2#4 f).afterFlags f.len.toNat)
      cmd := s.cmd.tail
      trace := .resp ⟨f.chan, .ok, BitVec.ofNat 32 (8 * f.len.toNat)⟩ ::
        ((if f.fin then [.flushDone f.chan, .flushAsk f.chan (Config.adevOf f.chan)] else []) ++
          ((nrzi ch.lineLevel (flagsRaw f.len.toNat)).map (Event.txbit f.chan)).reverse ++
          .cmd f.chan :: s.trace) }

/-- R111, R113, R114: SEND_FLAGS counts exactly `8 x n` bits and keeps the line level; the run is 0 after at least one
flag and untouched after none. -/
def Obligations.SendFlagsCountAndState : Prop :=
  ∀ (s : State) (f : CmdFields) (ch : Channel), s.ready f.chan ch →
    ∃ (t : State) (ch' : Channel), exec (.sendFlags f) s = .next t ∧ t.channel? f.chan = some ch' ∧
      ch'.bitsSent.toNat = 8 * f.len.toNat ∧ t.trace.head? = some (.resp ⟨f.chan, .ok, ch'.bitsSent⟩) ∧
      (sentLevels f.chan t.trace).length = (sentLevels f.chan s.trace).length + 8 * f.len.toNat ∧
      ch'.lineLevel = ch.lineLevel ∧ ch'.stuffRun = (if f.len = 0#16 then ch.stuffRun else 0#3)

/-- R63, R70: a command's ignored fields have no effect but on their own latches. (That acceptance latches the ignored
fields too, each into its own latch, is how the model reads R70, log 22.) -/
def Obligations.IgnoredFieldsHaveNoEffect : Prop :=
  ∀ (s : State) (f : CmdFields) (ch : Channel) (bf fin : Bool) (fxp : BitVec 8) (base : Addr), s.ready f.chan ch →
    (∃ t u a b, exec (.sendFlags f) s = .next t ∧
      exec (.sendFlags { f with bf := bf, fxp := fxp, base := base }) s = .next u ∧
      t.channel? f.chan = some a ∧ u.channel? f.chan = some b ∧ b = { a with bf := bf, fxp := fxp, base := base } ∧
      u = { t with channels := t.channels.set f.chan.toNat b }) ∧
    (∃ t u a b, exec (.sendFrame f) s = .next t ∧
      exec (.sendFrame { f with fin := fin, fxp := fxp }) s = .next u ∧
      t.channel? f.chan = some a ∧ u.channel? f.chan = some b ∧ b = { a with fin := fin, fxp := fxp } ∧
      u = { t with channels := t.channels.set f.chan.toNat b }) ∧
    (∃ t u a b, exec (.l2Send f) s = .next t ∧ exec (.l2Send { f with fin := fin }) s = .next u ∧
      t.channel? f.chan = some a ∧ u.channel? f.chan = some b ∧ b = { a with fin := fin } ∧
      u = { t with channels := t.channels.set f.chan.toNat b })

/-! ## L2_SEND (42_dispatch) -/

/-- R130 to R135: on a ready channel L2_SEND completes. With `FXP` = 0 it does what SEND_FRAME does; else it asks the
encapsulator, and on a positive answer responds with it at once and writes no encoding state, and on any other warns and
then does what SEND_FRAME does with the command's own bad_fcs. (The model's choices: where the encapsulator's answer comes
from, log 5; the place of the FCSQ request and answer, log 13; the latches after the command, log 23 and log 26.) -/
def Obligations.L2SendResult : Prop :=
  ∀ (s : State) (f : CmdFields) (ch : Channel), s.ready f.chan ch →
    let payload := s.mem.region f.base f.len.toNat 0
    let fcs := Config.fcsFn payload
    let r := ch.fxAnswer f.chan
    let sent := (frameTransfers f.chan s.mem f.base f.len f.bf fcs ch.lineLevel).reverse
    let count := BitVec.ofNat 32 (frameRaw payload f.bf fcs).length
    exec (.l2Send f) s = .next (
      if f.fxp = 0#8 then { s with
        channels := s.channels.set f.chan.toNat ((ch.latch 3#4 f).afterFrame payload fcs)
        cmd := s.cmd.tail
        trace := .resp ⟨f.chan, .ok, count⟩ :: (sent ++ .cmd f.chan :: s.trace) }
      else if 0 < r.toInt then { s with
        channels := s.channels.set f.chan.toNat
          { (ch.latch 3#4 f).fxAnswered f.chan with busy := false, phase := .idle }
        cmd := s.cmd.tail
        trace := .resp ⟨f.chan, .ok, r⟩ :: .fxqAnswer f.chan r :: .fxqAsk f.chan f.base f.len f.fxp ::
          .cmd f.chan :: s.trace }
      else { s with
        channels := s.channels.set f.chan.toNat (((ch.latch 3#4 f).fxAnswered f.chan).afterFrame payload fcs)
        cmd := s.cmd.tail
        trace := .resp ⟨f.chan, .ok, count⟩ ::
          (sent ++ .warn f.chan 0x01#8 :: .fxqAnswer f.chan r :: .fxqAsk f.chan f.base f.len f.fxp ::
            .cmd f.chan :: s.trace) })

/-- R133: on the encapsulated path the block sends no bit, reads no byte, and keeps `bits_sent`, `stuff_run` and
`line_level`, whatever `BF` is; the response carries the encapsulator's count. -/
def Obligations.EncapsulatedPathTouchesNoEncodingState : Prop :=
  ∀ (s : State) (f : CmdFields) (ch : Channel), s.ready f.chan ch → f.fxp ≠ 0#8 →
    0 < (ch.fxAnswer f.chan).toInt →
    ∃ (t : State) (ch' : Channel), exec (.l2Send f) s = .next t ∧ t.channel? f.chan = some ch' ∧
      ch'.bitsSent = ch.bitsSent ∧ ch'.stuffRun = ch.stuffRun ∧ ch'.lineLevel = ch.lineLevel ∧
      sentLevels f.chan t.trace = sentLevels f.chan s.trace ∧
      bufferReads f.chan t.trace = bufferReads f.chan s.trace ∧
      t.trace = .resp ⟨f.chan, .ok, ch.fxAnswer f.chan⟩ ::
        .fxqAnswer f.chan (ch.fxAnswer f.chan) :: .fxqAsk f.chan f.base f.len f.fxp :: .cmd f.chan :: s.trace

/-- R134: on the fallback path the warning comes before the first bit, and the bits, the encoding state and the response
are exactly those of SEND_FRAME from the same state. -/
def Obligations.FallbackEqualsSendFrame : Prop :=
  ∀ (s : State) (f : CmdFields) (ch : Channel), s.ready f.chan ch → f.fxp ≠ 0#8 →
    (ch.fxAnswer f.chan).toInt ≤ 0 →
    ∃ (t u : State) (a b : Channel) (sent : List Event),
      exec (.l2Send f) s = .next t ∧ exec (.sendFrame f) s = .next u ∧
      t.channel? f.chan = some a ∧ u.channel? f.chan = some b ∧
      t.trace = sent ++ .warn f.chan 0x01#8 :: .fxqAnswer f.chan (ch.fxAnswer f.chan) ::
        .fxqAsk f.chan f.base f.len f.fxp :: .cmd f.chan :: s.trace ∧
      u.trace = sent ++ .cmd f.chan :: s.trace ∧
      (∃ n, sent.head? = some (.resp ⟨f.chan, .ok, n⟩)) ∧
      a.bitsSent = b.bitsSent ∧ a.stuffRun = b.stuffRun ∧ a.lineLevel = b.lineLevel

/-- R135: with `FXP` = 0 an L2_SEND asks no encapsulator, warns of nothing, and is equal to SEND_FRAME in every effect: the
transfers and the state agree, but for the latched opcode. -/
def Obligations.L2SendWithoutFxEqualsSendFrame : Prop :=
  ∀ (s : State) (f : CmdFields) (ch : Channel), s.ready f.chan ch → f.fxp = 0#8 →
    ∃ (t : State) (a : Channel), exec (.l2Send f) s = .next t ∧ t.channel? f.chan = some a ∧
      exec (.sendFrame f) s = .next { t with channels := t.channels.set f.chan.toNat { a with op := 1#4 } } ∧
      ∃ sent, t.trace = sent ++ s.trace ∧
        ∀ e ∈ sent, (∀ d b n p, e ≠ .fxqAsk d b n p) ∧ (∀ d r, e ≠ .fxqAnswer d r) ∧ (∀ d k, e ≠ .warn d k)

/-- R41, R112, R131, R140: only a SEND_FLAGS with FIN flushes, only an L2_SEND with `FXP` not 0 asks the encapsulator or
warns, and a SEND_FLAGS reads no byte and asks for no FCS. R81, R84, R87: a micro-operation makes no transfer but on
`TXBIT`. -/
def Obligations.TransfersOnlyWhereTheRulesAsk : Prop :=
  ∀ (s t : State) (i : Instr), exec i s = .next t → ∃ new, t.trace = new ++ s.trace ∧ ∀ e ∈ new,
    (∀ c d, e = .flushAsk c d → ∃ f, i = .sendFlags f ∧ f.fin = true ∧ c = f.chan ∧ d = Config.adevOf c) ∧
    (∀ c, e = .flushDone c → ∃ f, i = .sendFlags f ∧ f.fin = true ∧ c = f.chan) ∧
    (∀ c b n p, e = .fxqAsk c b n p → ∃ f, i = .l2Send f ∧ f.fxp ≠ 0#8 ∧ c = f.chan ∧ b = f.base ∧ n = f.len ∧
      p = f.fxp) ∧
    (∀ c r, e = .fxqAnswer c r → ∃ f, i = .l2Send f ∧ f.fxp ≠ 0#8 ∧ c = f.chan) ∧
    (∀ c k, e = .warn c k → ∃ f, i = .l2Send f ∧ f.fxp ≠ 0#8 ∧ c = f.chan ∧ k = 0x01#8) ∧
    (∀ c a, e = .fbufAsk c a → ∃ f, (i = .sendFrame f ∨ i = .l2Send f) ∧ c = f.chan) ∧
    (∀ c a x, e = .fbufRead c a x → ∃ f, (i = .sendFrame f ∨ i = .l2Send f) ∧ c = f.chan) ∧
    (∀ c b n, e = .fcsqAsk c b n → ∃ f, (i = .sendFrame f ∨ i = .l2Send f) ∧ c = f.chan ∧ b = f.base ∧ n = f.len) ∧
    (∀ c x, e = .fcsqAnswer c x → ∃ f, (i = .sendFrame f ∨ i = .l2Send f) ∧ c = f.chan) ∧
    (∀ r, e = .resp r → ∃ f, i ∈ [Instr.sendFrame f, Instr.sendFlags f, Instr.l2Send f] ∧ r.chan = f.chan) ∧
    (∀ c, e = .cmd c → ∃ f, i ∈ [Instr.sendFrame f, Instr.sendFlags f, Instr.l2Send f] ∧ c = f.chan) ∧ e ≠ .rst

/-! ## Acceptance and rejection (30_encoding R70; 60_exceptions) -/

/-- R151, R152, R153: a word with a cause of rejection is taken off `CMD` at once, whatever any channel's `busy` is, and
answered with its `CHAN`, the status and count 0; nothing else of the block changes, but for the turn taken off the schedule
where the command port has one. (The port served by a turn, or with an empty schedule, is log 9; the response in the same
step is log 24.) -/
def Obligations.BadWordRejectedExactly : Prop :=
  ∀ (s : State) (w : CmdWord) (ws : List CmdWord) (st : Status), s.rst = false → s.cmd = w :: ws →
    classifyCmd s.nchan w = .error st →
    (s.sched = [] → step s = .next { s with
      cmd := ws
      trace := .resp ⟨w.extractLsb' 8 8, st, 0#32⟩ :: .cmd (w.extractLsb' 8 8) :: s.trace }) ∧
    ∀ ts, step { s with sched := .command :: ts } = .next { s with
      sched := ts
      cmd := ws
      trace := .resp ⟨w.extractLsb' 8 8, st, 0#32⟩ :: .cmd (w.extractLsb' 8 8) :: s.trace }

/-- R151, R152, R158, bit-granular form: a bad word is taken at once and its response stays outstanding; whatever stands at
`CMD`, the host takes any outstanding rejection, in any order, and waits where there is none; no channel changes (log 24;
the host's script is log 28). -/
def Obligations.BadWordRejectedThenAnswered : Prop :=
  ∀ (s : State) (ts : List Turn),
    (∀ (w : CmdWord) (ws : List CmdWord) (st : Status), s.rst = false → s.cmd = w :: ws →
      classifyCmd s.nchan w = .error st →
      step { s with sched := .accept :: ts } = .next { s with
        sched := ts
        cmd := ws
        rejections := s.rejections ++ [⟨w.extractLsb' 8 8, st, 0#32⟩]
        trace := .cmd (w.extractLsb' 8 8) :: s.trace }) ∧
    (∀ (k : Nat) (r : Resp) (hs : List HostAct), s.rejections[k]? = some r →
      step { s with sched := .host :: ts, host := .takeRejection k :: hs } = .next { s with
        sched := ts
        host := hs
        rejections := s.rejections.eraseIdx k
        trace := .resp r :: s.trace }) ∧
    (∀ (k : Nat) (hs : List HostAct), s.rejections[k]? = none →
      step { s with sched := .host :: ts, host := .takeRejection k :: hs } =
        .next { s with sched := ts, host := .takeRejection k :: hs })

/-- R154: a command for a channel the block does not have is rejected with BAD_CHAN, and changes nothing else. -/
def Obligations.BadChannelRejected : Prop :=
  ∀ (s : State) (f : CmdFields), s.rst = false → s.nchan ≤ f.chan.toNat →
    ∀ i ∈ [Instr.sendFrame f, Instr.sendFlags f, Instr.l2Send f],
      exec i s = .next { s with
        cmd := s.cmd.tail
        trace := .resp ⟨f.chan, .badChan, 0#32⟩ :: .cmd f.chan :: s.trace }

/-- R26, R70, R170: a good word for a busy channel waits at the head of `CMD`, and so it does while `RST` is asserted:
nothing changes, in the atomic and in the bit-granular form. -/
def Obligations.WordWaitsForItsChannel : Prop :=
  ∀ (s : State) (w : CmdWord) (ws : List CmdWord) (i : Instr) (ch : Channel) (ts : List Turn),
    s.cmd = w :: ws → classifyCmd s.nchan w = .ok i → s.channel? i.chan = some ch →
    (ch.busy = true ∨ s.rst = true) →
    step { s with sched := .command :: ts } = .next { s with sched := ts } ∧
    step { s with sched := .accept :: ts } = .next { s with sched := ts }

/-- R170: no word is accepted, and none is rejected, while `RST` is asserted. -/
def Obligations.NothingAcceptedUnderReset : Prop :=
  ∀ (s : State) (ts : List Turn), s.rst = true →
    step { s with sched := .command :: ts } = .next { s with sched := ts } ∧
    step { s with sched := .accept :: ts } = .next { s with sched := ts }

/-- R70, bit-granular form: a good word for an idle channel is accepted: the word is taken, `busy` is set, the operands
are latched as they stand in the word, and no bit is sent yet. -/
def Obligations.AcceptanceLatchesOperands : Prop :=
  ∀ (s : State) (w : CmdWord) (ws : List CmdWord) (i : Instr) (ch : Channel) (ts : List Turn),
    s.cmd = w :: ws → classifyCmd s.nchan w = .ok i → s.ready i.chan ch →
    ∃ (t : State) (ch' : Channel), step { s with sched := .accept :: ts } = .next t ∧
      t.channel? i.chan = some ch' ∧ ch'.busy = true ∧ ch'.op = w.extractLsb' 0 4 ∧ ch'.bf = w.getLsbD 4 ∧
      ch'.fin = w.getLsbD 5 ∧ ch'.fxp = w.extractLsb' 16 8 ∧ ch'.len = w.extractLsb' 32 16 ∧
      ch'.base = w.extractLsb' 48 16 ∧ ch'.lineLevel = ch.lineLevel ∧ ch'.stuffRun = ch.stuffRun ∧
      t.cmd = ws ∧ t.trace = .cmd i.chan :: s.trace

/-- When the word at the head of `CMD` decodes to an instruction and the command port has its turn, the step is `exec` of
that instruction at that state, the turn itself taken off the schedule (the model's form of R183, log 9). -/
def Obligations.StepRunsDecodedCommand : Prop :=
  ∀ (s : State) (w : CmdWord) (ws : List CmdWord) (i : Instr), s.cmd = w :: ws → decodeCmd w = .ok i →
    (s.sched = [] → step s = exec i s) ∧
    ∀ ts, step { s with sched := .command :: ts } = exec i { s with sched := ts }

/-- When the word in engine `c`'s slot decodes to a micro-operation of channel `c`, none of it is sent yet, and the slot
has its turn, the step is `exec` of it and then the sequencer's move to its next phase (log 10). -/
def Obligations.StepRunsIssuedUop : Prop :=
  ∀ (s : State) (c : ChanId) (ch : Channel) (w : UopWord) (i : Instr) (ts : List Turn),
    s.channel? c = some ch → ch.uop = some w → ch.bitpos = 0#3 → ch.stuffPending = false →
    decodeUop w = .ok i → i.chan = c →
    ∃ t, exec i { s with sched := ts } = .next t ∧
      step { s with sched := .uop c :: ts } = .next (t.finishUop c)

/-- The very next step runs a word placed by `withFetchWord`: a command word as the head of `CMD` is served (R70, R183),
a `UOP` word as the one in its engine's slot runs and the sequencer moves on (R64). (Placing is the model's, log 17 and
log 18.) -/
def Obligations.PlacedWordRunsNext : Prop :=
  (∀ (s : State) (w : Nat) (i : Instr), decodeTableWord 64 w = some i →
    step (s.withFetchWord 64 w) = exec i { s with cmd := BitVec.ofNat 64 (w % 2 ^ 64) :: s.cmd }) ∧
  (∀ (s : State) (w : Nat) (i : Instr) (ch : Channel), decodeTableWord 24 w = some i → s.channel? i.chan = some ch →
    let placed : Channel := { ch with uop := some (BitVec.ofNat 24 (w % 2 ^ 24)), bitpos := 0#3, stuffPending := false }
    ∃ t, exec i { s with channels := s.channels.set i.chan.toNat placed } = .next t ∧
      step (s.withFetchWord 24 w) = .next (t.finishUop i.chan))

/-! ## Whole-block rules (10_state; 20_memory; 70_reset_and_hazards) -/

/-- R32: right after reset every channel of the block is idle and not busy, its count and run are 0, and its level is its
`LINE_INIT`. -/
def Obligations.ResetValues : Prop :=
  State.reset.nchan = Config.nchan ∧
  ∀ (c : ChanId), c.toNat < Config.nchan → ∃ ch, State.reset.channel? c = some ch ∧
    ch.bitsSent = 0#32 ∧ ch.stuffRun = 0#3 ∧ ch.lineLevel = Config.lineInit c ∧ ch.busy = false ∧ ch.phase = .idle

/-- R170, R172: right after reset `RST` is released, no response is outstanding and no word is offered, and the block waits:
a step changes nothing. (The host's words, its script and the schedule being empty is log 9, log 20 and log 28.) -/
def Obligations.ResetWaits : Prop :=
  State.reset.rst = false ∧ State.reset.rejections = [] ∧ State.reset.cmd = [] ∧ step State.reset = .next State.reset

/-- R166, R172: a legal idle engine keeps all its state, its line level included, whichever of its turns comes: no
handshake with any collaborator happens, and no micro-operation runs. -/
def Obligations.IdleEngineKeepsItsState : Prop :=
  ∀ (s : State) (c : ChanId) (ch : Channel) (ts : List Turn), s.channel? c = some ch → ch.Inv c → ch.phase = .idle →
    (∀ m, step { s with sched := .engine m c :: ts } = .next { s with sched := ts }) ∧
    step { s with sched := .uop c :: ts } = .next { s with sched := ts }

/-- The state after reset is a legal one and keeps the line law: every level is its channel's `LINE_INIT` (R32). (Legality
asks that `idx`, `bitpos` and `stuff_pending` are at 0; R32 leaves them unspecified, and the zeros are the model's choice,
log 8.) -/
def Obligations.ResetIsLegal : Prop :=
  State.reset.Inv ∧ State.reset.LineLaw

/-- R24, R25, R27, R64, R91: every step from a legal state to a next state leads to a legal state: the run stays in 0..4,
an engine is busy exactly outside IDLE, as much is sent as its phase says, only words of R64 are issued, only the requests
of the phase are open, the frame buffer keeps its canonical form, the number of engines never changes. (What the slot, the
positions and the open requests hold between two steps is the model's form of it, log 10, log 11, log 14, log 23.) -/
def Obligations.StepKeepsLegalStates : Prop :=
  ∀ s t : State, s.Inv → step s = .next t → t.Inv

/-- From a legal state a step always answers a next state: the block has no faults (R156, R159), and nothing it issues
itself is refused. The schedule's `uop` turns name engines the block has (log 9). -/
def Obligations.LegalStatesAlwaysStep : Prop :=
  ∀ s : State, s.Inv → (∀ c ts, s.sched = .uop c :: ts → c.toNat < s.nchan) → ∃ t, step s = .next t

/-- R22, R82, R173: every step keeps the law that each engine's line level is the level it sent last, `LINE_INIT` where
it has sent none since `RST`: only a transfer on `TXBIT[c]` and `RST` change it. -/
def Obligations.StepKeepsLineLaw : Prop :=
  ∀ s t : State, s.LineLaw → step s = .next t → t.LineLaw

/-- R14: each word taken off `CMD` gets exactly one response. Along every step but the one that asserts `RST`, words
taken and responses sent or owed grow alike. (When an owed rejection is counted is the model's choice, log 24.) -/
def Obligations.OneResponsePerWord : Prop :=
  ∀ s t : State, s.Inv → step s = .next t → (∀ ts, s.sched ≠ .assertRst :: ts) →
    t.wordsTaken + s.responsesSent + s.responsesOwed = s.wordsTaken + t.responsesSent + t.responsesOwed

/-- R23: a handshake of an engine changes no other channel, no byte of the frame buffer and no word on `CMD`. -/
def Obligations.EngineMovesStayOnTheirChannel : Prop :=
  ∀ (s t : State) (m : Move) (c d : ChanId) (ts : List Turn), c ≠ d →
    (step { s with sched := .engine m c :: ts } = .next t ∨ step { s with sched := .uop c :: ts } = .next t) →
    t.channel? d = s.channel? d ∧ t.mem = s.mem ∧ t.cmd = s.cmd ∧ t.rejections = s.rejections ∧ t.rst = s.rst ∧
    t.host = s.host ∧ sentLevels d t.trace = sentLevels d s.trace

/-- R23: a command changes no channel but its own, and no byte of the frame buffer (R40: the block only reads it). -/
def Obligations.CommandsStayOnTheirChannel : Prop :=
  ∀ (s t : State) (i : Instr) (d : ChanId), exec i s = .next t → i.chan ≠ d →
    t.channel? d = s.channel? d ∧ t.mem = s.mem ∧ t.rejections = s.rejections ∧ t.rst = s.rst ∧
    t.sched = s.sched ∧ t.host = s.host ∧ sentLevels d t.trace = sentLevels d s.trace

/-- R52: handshakes of different engines may come in either order, on whichever ports: both orders give the same channels,
buffer, words and responses, and each engine makes the same transfers. -/
def Obligations.EnginesCommute : Prop :=
  ∀ (s t : State) (m n : Move) (c d : ChanId) (ts : List Turn), c ≠ d →
    Host.Core.run core 2 { s with sched := .engine m c :: .engine n d :: ts } = .next t →
    ∃ (u : State) (byC byD : List Event),
      Host.Core.run core 2 { s with sched := .engine n d :: .engine m c :: ts } = .next u ∧
      t.trace = byD ++ byC ++ s.trace ∧ u = { t with trace := byC ++ byD ++ s.trace }

/-- R27, R100, R110, R112, R130, R132: in a legal block an engine's phase changes only along the order its command fixes:
acceptance takes it from IDLE to the command's first phase, a handshake or a micro-operation of its own to the one phase
that follows, as the bytes or flags left, FIN, the FCS and the encapsulator's answer say, and the host's taking of the
response from RESP to IDLE. `RST` aside, nothing else changes a phase. (The model's choices: that an engine passes FCS_WAIT
by, from PAYLOAD or from START_FLAG at length 0, where the FCS is there already, log 13: R27 names no such branch, and R103
says only when the engine holds; where the encapsulator's answer comes from, log 5.) -/
def Obligations.PhasesAdvanceInOrder : Prop :=
  ∀ (s t : State) (c : ChanId) (ch ch' : Channel), s.Inv → step s = .next t →
    (∀ ts, s.sched ≠ .assertRst :: ts) → s.channel? c = some ch → t.channel? c = some ch' →
    ch'.phase = ch.phase ∨
    (((∃ m ts, s.sched = .engine m c :: ts) ∨ ∃ ts, s.sched = .uop c :: ts) ∧ ch'.phase ∈ ch.successors c) ∨
    ((∃ ts, s.sched = .accept :: ts) ∧ ch.phase = .idle ∧ ch'.phase = ch'.firstPhase) ∨
    ((∃ ts, s.sched = .host :: ts) ∧ (∃ hs, s.host = .takeResp c :: hs) ∧ ch.phase = .resp ∧ ch'.phase = .idle)

/-- R40, R50: a host write changes the byte at its address and no other, and no other turn changes the frame buffer. -/
def Obligations.OnlyTheHostWritesTheBuffer : Prop :=
  ∀ (s : State), s.mem.wf = true →
    (∀ (a b : Addr) (v : Byte) (hs : List HostAct) (ts : List Turn) (t : State),
      step { s with sched := .host :: ts, host := .write a v :: hs } = .next t →
      t.mem.byteAt b = (if a = b then v else s.mem.byteAt b)) ∧
    (∀ (t : State), step s = .next t →
      ¬ ((∃ ts, s.sched = .host :: ts) ∧ ∃ a v hs, s.host = .write a v :: hs) → t.mem = s.mem)

/-- R50, R175: inside an engine's read window every read of a byte the host writes in that window, before the read or
after it, by the engine or by the FCS calculator, is a free value, drawn for that read; every other byte is read as the
frame buffer holds it. `D` are those bytes: written already inside the window, or still to be written before the host
takes the engine's response. (The form of the free value and of the record is the model's choice, log 7 and log 28.) -/
def Obligations.WriteInsideWindowMakesReadFree : Prop :=
  ∀ (s : State) (c : ChanId) (ch : Channel) (ts : List Turn) (D : List Addr),
    s.channel? c = some ch →
    (∀ a, a ∈ D ↔ a ∈ ch.unstable ∨
      ∃ pre v post, s.host = pre ++ HostAct.write a v :: post ∧ HostAct.takeResp c ∉ pre) →
    (ch.phase = .payload → ch.asked = true →
      ∃ t ch', step { s with sched := .engine (.serve .fbuf) c :: ts } = .next t ∧ t.channel? c = some ch' ∧
        let a := ch.base + BitVec.ofNat 16 ch.idx.toNat
        let x := if a ∈ D then Config.hazardByte c ch.draws else s.mem.byteAt a
        ch'.uop = some (uopDataWord c x) ∧ t.trace = .fbufRead c a x :: s.trace ∧
        ch'.draws = ch.draws + (if a ∈ D then 1 else 0)) ∧
    (ch.fcsAsk = .asked →
      ∃ t ch', step { s with sched := .engine (.serve .fcsq) c :: ts } = .next t ∧ t.channel? c = some ch' ∧
        let a := fun i : Nat => ch.base + BitVec.ofNat 16 i
        let drawn := fun i : Nat => (List.range i).countP fun j => decide (a j ∈ D)
        ch'.fcs = Config.fcsFn ((List.range ch.len.toNat).map fun i =>
          if a i ∈ D then Config.hazardByte c (ch.draws + drawn i) else s.mem.byteAt (a i)) ∧
        t.trace = .fcsqAnswer c ch'.fcs :: s.trace ∧ ch'.draws = ch.draws + drawn ch.len.toNat)

/-- R170, R171: asserting `RST` at any moment brings every engine to its reset values and abandons its command with no
response; transfers already made stay made. (That the frame buffer, the words not yet taken and the host's
script stay is the model's choice, log 15.) -/
def Obligations.ResetAbandonsCommands : Prop :=
  ∀ (s : State) (ts : List Turn),
    ∃ t, step { s with sched := .assertRst :: ts } = .next t ∧ t.rst = true ∧ t.rejections = [] ∧
      t.trace = .rst :: s.trace ∧ t.mem = s.mem ∧ t.cmd = s.cmd ∧ t.host = s.host ∧ t.nchan = s.nchan ∧
      ∀ (c : ChanId) (ch : Channel), s.channel? c = some ch → ∃ ch', t.channel? c = some ch' ∧
        ch'.bitsSent = 0#32 ∧ ch'.stuffRun = 0#3 ∧ ch'.lineLevel = Config.lineInit c ∧ ch'.busy = false ∧
        ch'.phase = .idle ∧ ch'.uop = none ∧ ch'.asked = false ∧ ch'.fcsAsk = .no

/-! ## The two granularities agree (70 R183) -/

/-- R80, R182, R183: accepting a command, then its engine's handshakes with the collaborators in some order, then the host
taking its response, ends in exactly the state the command reaches as one atomic step, after at most 629171 bits, `len`
reads, an FCS request, an encapsulator request, a flush and a warning (a request and its answer are two handshakes). The
host writes no byte meanwhile, as R183 asks. (The two granularities as turns are the model's form, log 9.) -/
def Obligations.BitGranularRunEqualsAtomicCommand : Prop :=
  ∀ (s : State) (w : CmdWord) (ws : List CmdWord) (i : Instr) (ch : Channel),
    s.cmd = w :: ws → s.sched = [] → classifyCmd s.nchan w = .ok i → s.ready i.chan ch →
    ∃ ms : List Move, ms.length ≤ 629171 + 2 * 65535 + 7 ∧
      Host.Core.run core (ms.length + 2) { s with
        sched := .accept :: ms.map (Turn.engine · i.chan) ++ [.host]
        host := .takeResp i.chan :: s.host } = exec i s

/-! ## Requests, answers and the read window (00_scope R10; 20_memory R50; 41 R103; 42 R142, R143; 70 R171) -/

/-- R41, R112, R131, R134, R140, R143: a request and its answer are two handshakes. In PAYLOAD the engine asks for its next
byte; in FX_WAIT it asks the encapsulator, and once the answer is there goes to RESP on a positive result and to the
warning on any other; the warning comes before the first bit; in FLUSH_WAIT it asks for the flush and goes to RESP once it
is done. Each of these makes one transfer and changes nothing else. A handshake the engine cannot make
in its state does not happen, and its turn changes nothing (R171, R182): a request is not made again while it is open, an
answer where none is open is discarded, and on a valid/ready port there is nothing to ask for. (`asked` is the model's record of the open request, log 14; where the encapsulator's answer comes from, log 5.) -/
def Obligations.RequestAndAnswerAreTwoTransfers : Prop :=
  ∀ (s : State) (c : ChanId) (ch : Channel) (ts : List Turn), s.channel? c = some ch →
    let after := fun (d : Channel) (e : Event) => Host.Outcome.next (φ := Fault) (ρ := Refusal)
      { s with sched := ts, channels := s.channels.set c.toNat d, trace := e :: s.trace }
    (ch.phase = .payload → ch.uop = none → ch.asked = false →
      step { s with sched := .engine (.request .fbuf) c :: ts } =
        after { ch with asked := true } (.fbufAsk c (ch.base + BitVec.ofNat 16 ch.idx.toNat))) ∧
    (ch.phase = .fxWait → ch.asked = false →
      step { s with sched := .engine (.request .fxq) c :: ts } =
        after { ch with asked := true } (.fxqAsk c ch.base ch.len ch.fxp)) ∧
    (ch.phase = .fxWait → ch.asked = true →
      step { s with sched := .engine (.serve .fxq) c :: ts } =
        after { ch.fxAnswered c with asked := false, phase := if 0 < (ch.fxAnswer c).toInt then .resp else .warn }
          (.fxqAnswer c (ch.fxAnswer c))) ∧
    (ch.phase = .warn →
      step { s with sched := .engine (.serve .warn) c :: ts } =
        after { ch with bitsSent := 0#32, phase := .startFlag, uop := some (uopCtrlWord c 0x7E#8) } (.warn c 0x01#8)) ∧
    (ch.phase = .flushWait → ch.asked = false →
      step { s with sched := .engine (.request .flush) c :: ts } =
        after { ch with asked := true } (.flushAsk c (Config.adevOf c))) ∧
    (ch.phase = .flushWait → ch.asked = true →
      step { s with sched := .engine (.serve .flush) c :: ts } =
        after { ch with asked := false, phase := .resp } (.flushDone c)) ∧
    (∀ m, ¬ ch.may m → step { s with sched := .engine m c :: ts } = .next { s with sched := ts })

/-- R103: while the start flag or the payload is being sent, or once the engine holds for it, the engine may ask for the FCS
of its region, once. The answer, which may come in any of these phases, is latched in `fcs` and changes no other register,
but for an engine that holds for it, which goes on to the FCS low byte; so no bit sent before depends on it. The engine
holds in FCS_WAIT after the last payload byte exactly while the answer is not there. A turn to ask while the request is open
or answered (R182), or in any other phase, does nothing, and so does an answer where no request is open. (That an L2_SEND
does not ask before it knows its path, and that FCS_WAIT is passed by where the answer is there, is log 13. No byte of the region is written inside the window here; see R175's own statement.) -/
def Obligations.FcsMayBeAskedEarly : Prop :=
  ∀ (s : State) (c : ChanId) (ch : Channel) (ts : List Turn), s.channel? c = some ch →
    (ch.fcsAsk = .no → ch.phase = .startFlag ∨ ch.phase = .payload ∨ ch.phase = .fcsWait →
      step { s with sched := .engine (.request .fcsq) c :: ts } = .next { s with
        sched := ts
        channels := s.channels.set c.toNat { ch with fcsAsk := .asked }
        trace := .fcsqAsk c ch.base ch.len :: s.trace }) ∧
    (ch.fcsAsk = .asked → ch.unstable = [] → (∀ a v, HostAct.write a v ∉ s.host) →
      let f := Config.fcsFn (s.mem.region ch.base ch.len.toNat 0)
      step { s with sched := .engine (.serve .fcsq) c :: ts } = .next { s with
        sched := ts
        channels := s.channels.set c.toNat (if ch.phase = .fcsWait then
            { ch with fcs := f, fcsAsk := .answered, phase := .fcsLo, uop := some (uopDataWord c (fcsLoByte ch.bf f)) }
          else { ch with fcs := f, fcsAsk := .answered })
        trace := .fcsqAnswer c f :: s.trace }) ∧
    (ch.phase = .payload → ch.idx.toNat + 1 = ch.len.toNat →
      (ch.uopDone c).phase = if ch.fcsAsk = .answered then .fcsLo else .fcsWait) ∧
    (ch.fcsAsk ≠ .no ∨ (ch.phase ≠ .startFlag ∧ ch.phase ≠ .payload ∧ ch.phase ≠ .fcsWait) →
      step { s with sched := .engine (.request .fcsq) c :: ts } = .next { s with sched := ts }) ∧
    (ch.fcsAsk ≠ .asked → step { s with sched := .engine (.serve .fcsq) c :: ts } = .next { s with sched := ts })

/-- R171: an answer to a request that `RST` has abandoned is discarded, on whichever port it comes: with it or without it
the block ends in the same state. -/
def Obligations.LateAnswersAreDiscarded : Prop :=
  ∀ (s : State) (c : ChanId) (p : Port) (ts : List Turn),
    Host.Core.run core 2 { s with sched := .assertRst :: .engine (.serve p) c :: ts } =
      Host.Core.run core 1 { s with sched := .assertRst :: ts }

/-- R14, R20, R53, R133, R142: the response of a command is transferred when the host takes it, and not before the engine
is done: it carries the encapsulator's count on the encapsulated path and `bits_sent` on any other; with it the engine is
idle, no request stays open and the read window closes. In RESP the engine itself does nothing, and a host that is to take
the response of an engine that has none waits (log 28). -/
def Obligations.HostTakesResponse : Prop :=
  ∀ (s : State) (c : ChanId) (ch : Channel) (hs : List HostAct) (ts : List Turn), s.channel? c = some ch →
    (ch.phase = .resp →
      step { s with sched := .host :: ts, host := .takeResp c :: hs } = .next { s with
        sched := ts
        host := hs
        channels := s.channels.set c.toNat
          { ch with busy := false, phase := .idle, asked := false, fcsAsk := .no, unstable := [] }
        trace := .resp ⟨c, .ok, if ch.op = 3#4 ∧ ch.fxp ≠ 0#8 ∧ 0 < ch.fxres.toInt then ch.fxres else ch.bitsSent⟩ ::
          s.trace }) ∧
    (ch.phase = .resp → ch.Inv c → ∀ m, step { s with sched := .engine m c :: ts } = .next { s with sched := ts }) ∧
    (ch.phase ≠ .resp → step { s with sched := .host :: ts, host := .takeResp c :: hs } =
      .next { s with sched := ts, host := .takeResp c :: hs })

/-- R50, R175: an engine's read window opens with acceptance and closes with the response. While it is open every host
write to a byte of the command's region is recorded, and the record is kept; SEND_FLAGS has no region (R41). (The record is
the model's form, log 7.) -/
def Obligations.ReadWindowKeepsItsWrites : Prop :=
  (∀ (s t : State) (c : ChanId) (ch ch' : Channel), s.Inv → step s = .next t →
    s.channel? c = some ch → t.channel? c = some ch' →
    (ch.busy = true → ch'.busy = true → ∀ a ∈ ch.unstable, a ∈ ch'.unstable) ∧
    (ch'.busy = false → ch'.unstable = []) ∧ (ch.busy = false → ch'.unstable = [])) ∧
  (∀ (s : State) (a : Addr) (v : Byte) (hs : List HostAct) (ts : List Turn),
    ∃ t, step { s with sched := .host :: ts, host := .write a v :: hs } = .next t ∧ t.host = hs ∧
      ∀ (c : ChanId) (ch : Channel), s.channel? c = some ch → ∃ ch', t.channel? c = some ch' ∧
        (a ∈ ch'.unstable ↔ a ∈ ch.unstable ∨
          (ch.busy = true ∧ ch.op ≠ 2#4 ∧ ∃ i < ch.len.toNat, a = ch.base + BitVec.ofNat 16 i)))
end

