-- ==== Sys2Proof/Laws/State.lean ====
section
/-! SUPPORT. What each update of the block's state, and acceptance's update of an engine, does to each field. -/

namespace Sys2Proof.Machine

/-! ## State.putLane -/

@[simp] theorem State.putLane_channels (c : ChanId) (l : Lane) (s : State) : (s.putLane c l).channels =
    s.channels.set c.toNat l.ch := rfl
@[simp] theorem State.putLane_mem (c : ChanId) (l : Lane) (s : State) : (s.putLane c l).mem = s.mem := rfl
@[simp] theorem State.putLane_cmd (c : ChanId) (l : Lane) (s : State) : (s.putLane c l).cmd = s.cmd := rfl
@[simp] theorem State.putLane_rejections (c : ChanId) (l : Lane) (s : State) : (s.putLane c l).rejections =
    s.rejections := rfl
@[simp] theorem State.putLane_rst (c : ChanId) (l : Lane) (s : State) : (s.putLane c l).rst = s.rst := rfl
@[simp] theorem State.putLane_host (c : ChanId) (l : Lane) (s : State) : (s.putLane c l).host = s.host := rfl
@[simp] theorem State.putLane_sched (c : ChanId) (l : Lane) (s : State) : (s.putLane c l).sched = s.sched := rfl
@[simp] theorem State.putLane_trace (c : ChanId) (l : Lane) (s : State) : (s.putLane c l).trace = l.out ++ s.trace := rfl

/-! ## State.popCmd -/

@[simp] theorem State.popCmd_channels (s : State) : s.popCmd.channels = s.channels := rfl
@[simp] theorem State.popCmd_mem (s : State) : s.popCmd.mem = s.mem := rfl
@[simp] theorem State.popCmd_cmd (s : State) : s.popCmd.cmd = s.cmd.tail := rfl
@[simp] theorem State.popCmd_rejections (s : State) : s.popCmd.rejections = s.rejections := rfl
@[simp] theorem State.popCmd_rst (s : State) : s.popCmd.rst = s.rst := rfl
@[simp] theorem State.popCmd_host (s : State) : s.popCmd.host = s.host := rfl
@[simp] theorem State.popCmd_sched (s : State) : s.popCmd.sched = s.sched := rfl
@[simp] theorem State.popCmd_trace (s : State) : s.popCmd.trace = s.trace := rfl

/-! ## State.reject -/

@[simp] theorem State.reject_channels (c : ChanId) (st : Status) (s : State) : (s.reject c st).channels = s.channels := rfl
@[simp] theorem State.reject_mem (c : ChanId) (st : Status) (s : State) : (s.reject c st).mem = s.mem := rfl
@[simp] theorem State.reject_cmd (c : ChanId) (st : Status) (s : State) : (s.reject c st).cmd = s.cmd.tail := rfl
@[simp] theorem State.reject_rejections (c : ChanId) (st : Status) (s : State) : (s.reject c st).rejections =
    s.rejections := rfl
@[simp] theorem State.reject_rst (c : ChanId) (st : Status) (s : State) : (s.reject c st).rst = s.rst := rfl
@[simp] theorem State.reject_host (c : ChanId) (st : Status) (s : State) : (s.reject c st).host = s.host := rfl
@[simp] theorem State.reject_sched (c : ChanId) (st : Status) (s : State) : (s.reject c st).sched = s.sched := rfl
@[simp] theorem State.reject_trace (c : ChanId) (st : Status) (s : State) : (s.reject c st).trace =
    .resp (rejection c st) :: .cmd c :: s.trace := rfl

/-! ## State.rejectLater -/

@[simp] theorem State.rejectLater_channels (c : ChanId) (st : Status) (s : State) : (s.rejectLater c st).channels =
    s.channels := rfl
@[simp] theorem State.rejectLater_mem (c : ChanId) (st : Status) (s : State) : (s.rejectLater c st).mem = s.mem := rfl
@[simp] theorem State.rejectLater_cmd (c : ChanId) (st : Status) (s : State) : (s.rejectLater c st).cmd = s.cmd.tail := rfl
@[simp] theorem State.rejectLater_rejections (c : ChanId) (st : Status) (s : State) : (s.rejectLater c st).rejections =
    s.rejections ++ [rejection c st] := rfl
@[simp] theorem State.rejectLater_rst (c : ChanId) (st : Status) (s : State) : (s.rejectLater c st).rst = s.rst := rfl
@[simp] theorem State.rejectLater_host (c : ChanId) (st : Status) (s : State) : (s.rejectLater c st).host = s.host := rfl
@[simp] theorem State.rejectLater_sched (c : ChanId) (st : Status) (s : State) : (s.rejectLater c st).sched = s.sched := rfl
@[simp] theorem State.rejectLater_trace (c : ChanId) (st : Status) (s : State) : (s.rejectLater c st).trace = .cmd c ::
    s.trace := rfl

/-! ## State.hostWrite -/

@[simp] theorem State.hostWrite_channels (a : Addr) (v : Byte) (s : State) : (s.hostWrite a v).channels =
    s.channels.map (Channel.sawWrite a) := rfl
@[simp] theorem State.hostWrite_mem (a : Addr) (v : Byte) (s : State) : (s.hostWrite a v).mem =
    Memory.set s.mem a.toNat v := rfl
@[simp] theorem State.hostWrite_cmd (a : Addr) (v : Byte) (s : State) : (s.hostWrite a v).cmd = s.cmd := rfl
@[simp] theorem State.hostWrite_rejections (a : Addr) (v : Byte) (s : State) : (s.hostWrite a v).rejections =
    s.rejections := rfl
@[simp] theorem State.hostWrite_rst (a : Addr) (v : Byte) (s : State) : (s.hostWrite a v).rst = s.rst := rfl
@[simp] theorem State.hostWrite_host (a : Addr) (v : Byte) (s : State) : (s.hostWrite a v).host = s.host := rfl
@[simp] theorem State.hostWrite_sched (a : Addr) (v : Byte) (s : State) : (s.hostWrite a v).sched = s.sched := rfl
@[simp] theorem State.hostWrite_trace (a : Addr) (v : Byte) (s : State) : (s.hostWrite a v).trace = s.trace := rfl

/-! ## State.assertRst -/

@[simp] theorem State.assertRst_channels (s : State) : s.assertRst.channels = resetChannels 0 s.channels := rfl
@[simp] theorem State.assertRst_mem (s : State) : s.assertRst.mem = s.mem := rfl
@[simp] theorem State.assertRst_cmd (s : State) : s.assertRst.cmd = s.cmd := rfl
@[simp] theorem State.assertRst_rejections (s : State) : s.assertRst.rejections = [] := rfl
@[simp] theorem State.assertRst_rst (s : State) : s.assertRst.rst = true := rfl
@[simp] theorem State.assertRst_host (s : State) : s.assertRst.host = s.host := rfl
@[simp] theorem State.assertRst_sched (s : State) : s.assertRst.sched = s.sched := rfl
@[simp] theorem State.assertRst_trace (s : State) : s.assertRst.trace = .rst :: s.trace := rfl

/-! ## Channel.latch (R70) -/

@[simp] theorem Channel.latch_bitsSent (op : BitVec 4) (f : CmdFields) (ch : Channel) :
    (ch.latch op f).bitsSent = ch.bitsSent := rfl
@[simp] theorem Channel.latch_stuffRun (op : BitVec 4) (f : CmdFields) (ch : Channel) :
    (ch.latch op f).stuffRun = ch.stuffRun := rfl
@[simp] theorem Channel.latch_lineLevel (op : BitVec 4) (f : CmdFields) (ch : Channel) :
    (ch.latch op f).lineLevel = ch.lineLevel := rfl
@[simp] theorem Channel.latch_busy (op : BitVec 4) (f : CmdFields) (ch : Channel) :
    (ch.latch op f).busy = true := rfl
@[simp] theorem Channel.latch_phase (op : BitVec 4) (f : CmdFields) (ch : Channel) :
    (ch.latch op f).phase = ch.phase := rfl
@[simp] theorem Channel.latch_op (op : BitVec 4) (f : CmdFields) (ch : Channel) :
    (ch.latch op f).op = op := rfl
@[simp] theorem Channel.latch_bf (op : BitVec 4) (f : CmdFields) (ch : Channel) :
    (ch.latch op f).bf = f.bf := rfl
@[simp] theorem Channel.latch_fin (op : BitVec 4) (f : CmdFields) (ch : Channel) :
    (ch.latch op f).fin = f.fin := rfl
@[simp] theorem Channel.latch_fxp (op : BitVec 4) (f : CmdFields) (ch : Channel) :
    (ch.latch op f).fxp = f.fxp := rfl
@[simp] theorem Channel.latch_len (op : BitVec 4) (f : CmdFields) (ch : Channel) :
    (ch.latch op f).len = f.len := rfl
@[simp] theorem Channel.latch_base (op : BitVec 4) (f : CmdFields) (ch : Channel) :
    (ch.latch op f).base = f.base := rfl
@[simp] theorem Channel.latch_idx (op : BitVec 4) (f : CmdFields) (ch : Channel) :
    (ch.latch op f).idx = 0#17 := rfl
@[simp] theorem Channel.latch_bitpos (op : BitVec 4) (f : CmdFields) (ch : Channel) :
    (ch.latch op f).bitpos = 0#3 := rfl
@[simp] theorem Channel.latch_stuffPending (op : BitVec 4) (f : CmdFields) (ch : Channel) :
    (ch.latch op f).stuffPending = false := rfl
@[simp] theorem Channel.latch_fcs (op : BitVec 4) (f : CmdFields) (ch : Channel) :
    (ch.latch op f).fcs = ch.fcs := rfl
@[simp] theorem Channel.latch_fxres (op : BitVec 4) (f : CmdFields) (ch : Channel) :
    (ch.latch op f).fxres = ch.fxres := rfl
@[simp] theorem Channel.latch_uop (op : BitVec 4) (f : CmdFields) (ch : Channel) :
    (ch.latch op f).uop = none := rfl
@[simp] theorem Channel.latch_asked (op : BitVec 4) (f : CmdFields) (ch : Channel) :
    (ch.latch op f).asked = false := rfl
@[simp] theorem Channel.latch_fcsAsk (op : BitVec 4) (f : CmdFields) (ch : Channel) :
    (ch.latch op f).fcsAsk = .no := rfl
@[simp] theorem Channel.latch_unstable (op : BitVec 4) (f : CmdFields) (ch : Channel) :
    (ch.latch op f).unstable = [] := rfl
@[simp] theorem Channel.latch_fxAnswers (op : BitVec 4) (f : CmdFields) (ch : Channel) :
    (ch.latch op f).fxAnswers = ch.fxAnswers := rfl
@[simp] theorem Channel.latch_draws (op : BitVec 4) (f : CmdFields) (ch : Channel) :
    (ch.latch op f).draws = ch.draws := rfl

/-! ## Reading engines back -/

/-- An engine put back is the one read. -/
theorem State.channel?_putLane_self {s : State} {c : ChanId} {ch : Channel} (l : Lane) (h : s.channel? c = some ch) :
    (s.putLane c l).channel? c = some l.ch := by
  have hlt : c.toNat < s.channels.length := (List.getElem?_eq_some_iff.1 h).1
  simp [State.channel?, hlt]

theorem State.channels_set_self {s : State} {c : ChanId} {ch : Channel} (h : s.channel? c = some ch) (a : Channel) :
    (s.channels.set c.toNat a)[c.toNat]? = some a := by
  have hlt : c.toNat < s.channels.length := (List.getElem?_eq_some_iff.1 h).1
  simp [hlt]

/-- Storing an engine as it was changes no engine. -/
theorem State.set_channel_self {s : State} {c : ChanId} {ch : Channel} (h : s.channel? c = some ch) :
    s.channels.set c.toNat ch = s.channels := by
  unfold State.channel? at h
  obtain ⟨hl, rfl⟩ := List.getElem?_eq_some_iff.1 h
  exact List.set_getElem_self hl

/-- An engine put back as it was, with no transfer, leaves the block as it was. -/
theorem State.putLane_still {s : State} {c : ChanId} {ch : Channel} (h : s.channel? c = some ch) :
    s.putLane c ⟨ch, []⟩ = s := by
  simp [State.putLane, State.set_channel_self h]

/-- Putting one engine back leaves the others (R23). -/
theorem State.channel?_putLane_ne {s : State} {c d : ChanId} (l : Lane) (h : c ≠ d) :
    (s.putLane c l).channel? d = s.channel? d := by
  have hn : c.toNat ≠ d.toNat := fun e => h (BitVec.eq_of_toNat_eq e)
  simp [State.channel?, hn]

@[simp] theorem State.channel?_popCmd (s : State) (c : ChanId) : s.popCmd.channel? c = s.channel? c := rfl

@[simp] theorem State.nchan_putLane (c : ChanId) (l : Lane) (s : State) : (s.putLane c l).nchan = s.nchan := by
  simp [State.nchan]

theorem State.channel?_none_iff (s : State) (c : ChanId) : s.channel? c = none ↔ s.nchan ≤ c.toNat := by
  simp [State.channel?, State.nchan]

theorem State.channel?_some_lt {s : State} {c : ChanId} {ch : Channel} (h : s.channel? c = some ch) :
    c.toNat < s.nchan := (List.getElem?_eq_some_iff.1 h).1

/-- `RST` gives every engine its own reset state (R170). -/
theorem getElem?_resetChannels (i j : Nat) (chs : List Channel) :
    (resetChannels i chs)[j]? = chs[j]?.map (Channel.afterRst (BitVec.ofNat 8 (i + j))) := by
  induction chs generalizing i j with
  | nil => simp [resetChannels]
  | cons ch chs ih =>
    cases j with
    | zero => simp [resetChannels]
    | succ j => simp [resetChannels, ih, Nat.add_assoc, Nat.add_comm 1 j]

@[simp] theorem length_resetChannels (i : Nat) (chs : List Channel) :
    (resetChannels i chs).length = chs.length := by
  induction chs generalizing i with
  | nil => rfl
  | cons ch chs ih => simp [resetChannels, ih]

/-- The engines right after reset (R32). -/
theorem getElem?_initChannels (n i j : Nat) :
    (initChannels n i)[j]? = if j < n then some (Channel.reset (BitVec.ofNat 8 (i + j))) else none := by
  induction n generalizing i j with
  | zero => simp [initChannels]
  | succ n ih =>
    cases j with
    | zero => simp [initChannels]
    | succ j => simp [initChannels, ih, Nat.add_assoc, Nat.add_comm 1 j]

@[simp] theorem length_initChannels (n i : Nat) : (initChannels n i).length = n := by
  induction n generalizing i with
  | zero => rfl
  | succ n ih => simp [initChannels, ih]

end Sys2Proof.Machine
end

