-- ==== Sys2Proof/Laws/Stream.lean ====
section
/-! SUPPORT. Lemmas about the bit streams claims are written in (40_bit_level R82, R87, R92, R93). -/

namespace Sys2Proof.Machine

@[simp] theorem length_byteBits (x : Byte) : (byteBits x).length = 8 := rfl

theorem bytesBits_append (xs ys : List Byte) : bytesBits (xs ++ ys) = bytesBits xs ++ bytesBits ys := by
  induction xs with
  | nil => rfl
  | cons x xs ih => simp [bytesBits, ih]

@[simp] theorem length_bytesBits (xs : List Byte) : (bytesBits xs).length = 8 * xs.length := by
  induction xs with
  | nil => rfl
  | cons x xs ih => simp [bytesBits, ih]; omega

/-! ## Stuffing -/

theorem stuff_append (r : Nat) (bs cs : List Bool) :
    stuff r (bs ++ cs) = stuff r bs ++ stuff (runAfter r bs) cs := by
  induction bs generalizing r with
  | nil => rfl
  | cons b bs ih =>
    cases b <;> simp only [List.cons_append, stuff, runAfter, ih]
    split <;> simp

theorem runAfter_append (r : Nat) (bs cs : List Bool) :
    runAfter r (bs ++ cs) = runAfter (runAfter r bs) cs := by
  induction bs generalizing r with
  | nil => rfl
  | cons b bs ih =>
    cases b <;> simp only [List.cons_append, runAfter, ih]
    split <;> simp

theorem runAfter_le (r : Nat) (bs : List Bool) (h : r ≤ 4) : runAfter r bs ≤ 4 := by
  induction bs generalizing r with
  | nil => exact h
  | cons b bs ih =>
    cases b with
    | false => exact ih 0 (by omega)
    | true =>
      simp only [runAfter]
      split
      · exact ih 0 (by omega)
      · exact ih (r + 1) (by omega)

/-- Stuffing adds one bit for each time the run reaches 5 (R90, R106). -/
theorem length_stuff (r : Nat) (bs : List Bool) : (stuff r bs).length = bs.length + stuffCount r bs := by
  induction bs generalizing r with
  | nil => rfl
  | cons b bs ih => cases b <;> simp only [stuff, stuffCount] <;> (try split) <;> simp [ih] <;> omega

/-- A stuffed bit needs five data bits before it (R34). -/
theorem stuffCount_bound (r : Nat) (bs : List Bool) (h : r ≤ 4) : 5 * stuffCount r bs ≤ r + bs.length := by
  induction bs generalizing r with
  | nil => simp [stuffCount]
  | cons b bs ih =>
    cases b with
    | false => have := ih 0 (by omega); simp only [stuffCount, List.length_cons]; omega
    | true =>
      simp only [stuffCount, List.length_cons]
      split
      · have := ih 0 (by omega); omega
      · have := ih (r + 1) (by omega); omega

/-- The receiver's deletion undoes stuffing (R93). -/
theorem destuff_stuff (r : Nat) (bs : List Bool) (h : r ≤ 4) : destuff r (stuff r bs) = bs := by
  induction bs generalizing r with
  | nil => rfl
  | cons b bs ih =>
    cases b with
    | false => simp [stuff, destuff, ih 0, show r ≠ 5 by omega]
    | true =>
      simp only [stuff]
      split
      · next h5 => simp [destuff, ih 0, h5, show r ≠ 5 by omega]
      · simp [destuff, ih (r + 1) (by omega), show r ≠ 5 by omega]

theorem bitsByte_byteBits (x : Byte) :
    bitsByte (x.getLsbD 0) (x.getLsbD 1) (x.getLsbD 2) (x.getLsbD 3) (x.getLsbD 4) (x.getLsbD 5) (x.getLsbD 6)
      (x.getLsbD 7) = x := by
  revert x; decide

/-- Grouping by eight undoes the sending order of bytes (R93). -/
theorem groupBytes_bytesBits (xs : List Byte) : groupBytes (bytesBits xs) = xs := by
  induction xs with
  | nil => rfl
  | cons x xs ih =>
    simp only [bytesBits, byteBits, List.cons_append, List.nil_append, groupBytes, ih, bitsByte_byteBits]

/-! ## NRZI -/

@[simp] theorem length_nrzi (v : Bool) (bs : List Bool) : (nrzi v bs).length = bs.length := by
  induction bs generalizing v with
  | nil => rfl
  | cons b bs ih => simp [nrzi, ih]

@[simp] theorem levelAfter_nil (v : Bool) : levelAfter v [] = v := by simp [levelAfter]

theorem levelAfter_cons (v b : Bool) (bs : List Bool) : levelAfter v (b :: bs) = levelAfter (v ^^ !b) bs := by
  simp only [levelAfter, List.count_cons]
  rcases Nat.mod_two_eq_zero_or_one (bs.count false) with h | h <;> cases b <;> cases v <;> simp [h, Nat.add_mod]

theorem levelAfter_append (v : Bool) (bs cs : List Bool) :
    levelAfter v (bs ++ cs) = levelAfter (levelAfter v bs) cs := by
  induction bs generalizing v with
  | nil => simp
  | cons b bs ih => simp [levelAfter_cons, ih]

theorem nrzi_append (v : Bool) (bs cs : List Bool) :
    nrzi v (bs ++ cs) = nrzi v bs ++ nrzi (levelAfter v bs) cs := by
  induction bs generalizing v with
  | nil => simp [nrzi]
  | cons b bs ih => simp [nrzi, levelAfter_cons, ih]

/-- The receiver's differential decoding undoes NRZI (R82). -/
theorem unNrzi_nrzi (v : Bool) (bs : List Bool) : unNrzi v (nrzi v bs) = bs := by
  induction bs generalizing v with
  | nil => rfl
  | cons b bs ih => simp only [nrzi, unNrzi, ih]; cases v <;> cases b <;> rfl

/-- A flag leaves the level as it was (R86). -/
@[simp] theorem levelAfter_flagRaw (v : Bool) : levelAfter v flagRaw = v := by cases v <;> decide

@[simp] theorem length_flagRaw : flagRaw.length = 8 := rfl

@[simp] theorem levelAfter_flagsRaw (v : Bool) (n : Nat) : levelAfter v (flagsRaw n) = v := by
  induction n with
  | zero => simp [flagsRaw]
  | succ n ih => simp [flagsRaw, levelAfter_append, ih]

@[simp] theorem length_flagsRaw (n : Nat) : (flagsRaw n).length = 8 * n := by
  induction n with
  | zero => rfl
  | succ n ih => simp [flagsRaw, ih]; omega

theorem txTransfers_append (c : ChanId) (v : Bool) (bs cs : List Bool) :
    txTransfers c v (bs ++ cs) = txTransfers c v bs ++ txTransfers c (levelAfter v bs) cs := by
  simp [txTransfers, nrzi_append]

/-! ## Traces -/

@[simp] theorem sentLevels_nil (c : ChanId) : sentLevels c [] = [] := rfl

@[simp] theorem bufferReads_nil (c : ChanId) : bufferReads c [] = [] := rfl

@[simp] theorem sentLevels_cmd (c : ChanId) (d : ChanId) (es : List Event) :
    sentLevels c (.cmd d :: es) = sentLevels c es := by simp [sentLevels]
@[simp] theorem sentLevels_resp (c : ChanId) (r : Resp) (es : List Event) :
    sentLevels c (.resp r :: es) = sentLevels c es := by simp [sentLevels]
@[simp] theorem sentLevels_fbufRead (c : ChanId) (d : ChanId) (a : Addr) (x : Byte) (es : List Event) :
    sentLevels c (.fbufRead d a x :: es) = sentLevels c es := by simp [sentLevels]
@[simp] theorem sentLevels_fbufAsk (c : ChanId) (d : ChanId) (a : Addr) (es : List Event) :
    sentLevels c (.fbufAsk d a :: es) = sentLevels c es := by simp [sentLevels]
@[simp] theorem sentLevels_fcsqAsk (c : ChanId) (d : ChanId) (b : Addr) (n : BitVec 16) (es : List Event) :
    sentLevels c (.fcsqAsk d b n :: es) = sentLevels c es := by simp [sentLevels]
@[simp] theorem sentLevels_fcsqAnswer (c : ChanId) (d : ChanId) (f : BitVec 16) (es : List Event) :
    sentLevels c (.fcsqAnswer d f :: es) = sentLevels c es := by simp [sentLevels]
@[simp] theorem sentLevels_fxqAsk (c : ChanId) (d : ChanId) (b : Addr) (n : BitVec 16) (p : BitVec 8) (es : List Event) :
    sentLevels c (.fxqAsk d b n p :: es) = sentLevels c es := by simp [sentLevels]
@[simp] theorem sentLevels_fxqAnswer (c : ChanId) (d : ChanId) (r : Count) (es : List Event) :
    sentLevels c (.fxqAnswer d r :: es) = sentLevels c es := by simp [sentLevels]
@[simp] theorem sentLevels_flushAsk (c : ChanId) (d : ChanId) (k : Nat) (es : List Event) :
    sentLevels c (.flushAsk d k :: es) = sentLevels c es := by simp [sentLevels]
@[simp] theorem sentLevels_flushDone (c : ChanId) (d : ChanId) (es : List Event) :
    sentLevels c (.flushDone d :: es) = sentLevels c es := by simp [sentLevels]
@[simp] theorem sentLevels_warn (c : ChanId) (d : ChanId) (k : BitVec 8) (es : List Event) :
    sentLevels c (.warn d k :: es) = sentLevels c es := by simp [sentLevels]
@[simp] theorem sentLevels_rst (c : ChanId) (es : List Event) :
    sentLevels c (.rst :: es) = sentLevels c es := by simp [sentLevels]
theorem sentLevels_txbit (c d : ChanId) (v : Bool) (es : List Event) :
    sentLevels c (.txbit d v :: es) = sentLevels c es ++ if d = c then [v] else [] := by
  by_cases h : d = c <;> simp [sentLevels, h]

@[simp] theorem bufferReads_cmd (c : ChanId) (d : ChanId) (es : List Event) :
    bufferReads c (.cmd d :: es) = bufferReads c es := by simp [bufferReads]
@[simp] theorem bufferReads_resp (c : ChanId) (r : Resp) (es : List Event) :
    bufferReads c (.resp r :: es) = bufferReads c es := by simp [bufferReads]
@[simp] theorem bufferReads_fbufAsk (c : ChanId) (d : ChanId) (a : Addr) (es : List Event) :
    bufferReads c (.fbufAsk d a :: es) = bufferReads c es := by simp [bufferReads]
@[simp] theorem bufferReads_fcsqAsk (c : ChanId) (d : ChanId) (b : Addr) (n : BitVec 16) (es : List Event) :
    bufferReads c (.fcsqAsk d b n :: es) = bufferReads c es := by simp [bufferReads]
@[simp] theorem bufferReads_fcsqAnswer (c : ChanId) (d : ChanId) (f : BitVec 16) (es : List Event) :
    bufferReads c (.fcsqAnswer d f :: es) = bufferReads c es := by simp [bufferReads]
@[simp] theorem bufferReads_fxqAsk (c : ChanId) (d : ChanId) (b : Addr) (n : BitVec 16) (p : BitVec 8) (es : List Event) :
    bufferReads c (.fxqAsk d b n p :: es) = bufferReads c es := by simp [bufferReads]
@[simp] theorem bufferReads_fxqAnswer (c : ChanId) (d : ChanId) (r : Count) (es : List Event) :
    bufferReads c (.fxqAnswer d r :: es) = bufferReads c es := by simp [bufferReads]
@[simp] theorem bufferReads_flushAsk (c : ChanId) (d : ChanId) (k : Nat) (es : List Event) :
    bufferReads c (.flushAsk d k :: es) = bufferReads c es := by simp [bufferReads]
@[simp] theorem bufferReads_flushDone (c : ChanId) (d : ChanId) (es : List Event) :
    bufferReads c (.flushDone d :: es) = bufferReads c es := by simp [bufferReads]
@[simp] theorem bufferReads_warn (c : ChanId) (d : ChanId) (k : BitVec 8) (es : List Event) :
    bufferReads c (.warn d k :: es) = bufferReads c es := by simp [bufferReads]
@[simp] theorem bufferReads_rst (c : ChanId) (es : List Event) :
    bufferReads c (.rst :: es) = bufferReads c es := by simp [bufferReads]
@[simp] theorem bufferReads_txbit (c : ChanId) (d : ChanId) (v : Bool) (es : List Event) :
    bufferReads c (.txbit d v :: es) = bufferReads c es := by simp [bufferReads]
theorem bufferReads_fbufRead (c d : ChanId) (a : Addr) (x : Byte) (es : List Event) :
    bufferReads c (.fbufRead d a x :: es) = bufferReads c es ++ if d = c then [(a, x)] else [] := by
  by_cases h : d = c <;> simp [bufferReads, h]

theorem sentLevels_append (c : ChanId) (es fs : List Event) :
    sentLevels c (es ++ fs) = sentLevels c fs ++ sentLevels c es := by
  simp [sentLevels]

theorem bufferReads_append (c : ChanId) (es fs : List Event) :
    bufferReads c (es ++ fs) = bufferReads c fs ++ bufferReads c es := by
  simp [bufferReads]

theorem sentLevels_txTransfers (c : ChanId) (v : Bool) (bs : List Bool) :
    sentLevels c (txTransfers c v bs).reverse = nrzi v bs := by
  simp [sentLevels, txTransfers, List.filterMap_map]

theorem bufferReads_txTransfers (c d : ChanId) (v : Bool) (bs : List Bool) :
    bufferReads c (txTransfers d v bs).reverse = [] := by
  simp [bufferReads, txTransfers, List.filterMap_map]

theorem map_snd_payloadCells (m : Memory) (base : Addr) (n i : Nat) :
    (payloadCells m base n i).map Prod.snd = m.region base n i := by
  induction n generalizing i with
  | zero => rfl
  | succ n ih => simp [payloadCells, Memory.region, ih]

@[simp] theorem length_region (m : Memory) (base : Addr) (n i : Nat) : (m.region base n i).length = n := by
  induction n generalizing i with
  | zero => rfl
  | succ n ih => simp [Memory.region, ih]

/-- The levels of a payload's transfers are those of its stuffed bits (R101). -/
theorem sentLevels_payloadTransfers (c : ChanId) (cells : List (Addr × Byte)) (v : Bool) (r : Nat) :
    sentLevels c (payloadTransfers c cells v r).reverse = nrzi v (stuff r (bytesBits (cells.map Prod.snd))) := by
  induction cells generalizing v r with
  | nil => rfl
  | cons cell cells ih =>
    obtain ⟨a, x⟩ := cell
    simp only [payloadTransfers, List.map_cons, bytesBits, stuff_append, nrzi_append, List.reverse_cons,
      List.reverse_append, sentLevels_append, ih, sentLevels_txTransfers]
    simp [sentLevels]

/-- A payload is read once, in buffer order (R101). -/
theorem bufferReads_payloadTransfers (c : ChanId) (cells : List (Addr × Byte)) (v : Bool) (r : Nat) :
    bufferReads c (payloadTransfers c cells v r).reverse = cells := by
  induction cells generalizing v r with
  | nil => rfl
  | cons cell cells ih =>
    obtain ⟨a, x⟩ := cell
    simp only [payloadTransfers, List.reverse_cons, List.reverse_append, bufferReads_append, ih,
      bufferReads_txTransfers]
    simp [bufferReads]

/-- The raw bits between the flags, taken apart at the FCS (R89). -/
theorem innerRaw_eq (payload : List Byte) (bf : Bool) (f : BitVec 16) :
    innerRaw payload bf f = stuff 0 (bytesBits payload) ++
      stuff (runAfter 0 (bytesBits payload)) (bytesBits (fcsBytes bf f)) := by
  rw [innerRaw, bytesBits_append, stuff_append]

/-- The levels of a frame's transfers (R82, R100). -/
theorem sentLevels_frameTransfers (c : ChanId) (m : Memory) (base : Addr) (len : BitVec 16) (bf : Bool)
    (f : BitVec 16) (v : Bool) :
    sentLevels c (frameTransfers c m base len bf f v).reverse = nrzi v (frameRaw (m.region base len.toNat 0) bf f) := by
  simp only [frameTransfers, map_snd_payloadCells, List.reverse_append, sentLevels_append, sentLevels_txTransfers,
    sentLevels_payloadTransfers, frameRaw, innerRaw_eq, nrzi_append, levelAfter_append]
  simp

/-- The reads of a frame's transfers (R41, R101). -/
theorem bufferReads_frameTransfers (c : ChanId) (m : Memory) (base : Addr) (len : BitVec 16) (bf : Bool)
    (f : BitVec 16) (v : Bool) :
    bufferReads c (frameTransfers c m base len bf f v).reverse = payloadCells m base len.toNat 0 := by
  simp only [frameTransfers, List.reverse_append, bufferReads_append, bufferReads_txTransfers,
    bufferReads_payloadTransfers]
  simp

end Sys2Proof.Machine
end

