-- ==== Sys2Proof/Laws/Lane.lean ====
section
/-! SUPPORT. One lemma per operation of an engine, saying everything the operation does (40_bit_level R81, R84, R87;
41_frame_and_flags R100, R110; 42_dispatch R130). Later proofs cite these and unfold no operation. -/

namespace Sys2Proof.Machine

/-! ## The bit datapath -/

theorem Lane.sendBit_eq (c : ChanId) (b : Bool) (l : Lane) :
    l.sendBit c b =
      { ch := { l.ch with lineLevel := l.ch.lineLevel ^^ !b, bitsSent := l.ch.bitsSent + 1#32 },
        out := .txbit c (l.ch.lineLevel ^^ !b) :: l.out } := by
  cases b <;> simp [Lane.sendBit, Lane.emit]

/-- What sending raw bits does to the line and the count (R81, R82, R83). -/
def Channel.lined (ch : Channel) (raw : List Bool) : Channel :=
  { ch with lineLevel := levelAfter ch.lineLevel raw, bitsSent := ch.bitsSent + BitVec.ofNat 32 raw.length }

theorem Channel.lined_nil (ch : Channel) : ch.lined [] = ch := by simp [Channel.lined]

theorem Channel.lined_append (ch : Channel) (bs cs : List Bool) : ch.lined (bs ++ cs) = (ch.lined bs).lined cs := by
  simp [Channel.lined, levelAfter_append, BitVec.ofNat_add, BitVec.add_assoc]

theorem Lane.sendBit_lined (c : ChanId) (b : Bool) (l : Lane) :
    l.sendBit c b = { ch := l.ch.lined [b], out := (txTransfers c l.ch.lineLevel [b]).reverse ++ l.out } := by
  simp [Lane.sendBit_eq, Channel.lined, levelAfter_cons, txTransfers, nrzi]

theorem Lane.sendBits_eq (c : ChanId) (bs : List Bool) (l : Lane) :
    l.sendBits c bs =
      { ch := l.ch.lined bs, out := (txTransfers c l.ch.lineLevel bs).reverse ++ l.out } := by
  induction bs generalizing l with
  | nil => simp [Lane.sendBits, Channel.lined_nil, txTransfers, nrzi]
  | cons b bs ih =>
    have h : l.sendBits c (b :: bs) = (l.sendBit c b).sendBits c bs := rfl
    rw [h, ih, Lane.sendBit_lined, show b :: bs = [b] ++ bs from rfl, Channel.lined_append, txTransfers_append]
    simp [Channel.lined]

/-- UOP_CTRL: eight unstuffed bits, then the run is 0 (R84). -/
theorem Lane.sendCtrl_eq (c : ChanId) (x : Byte) (l : Lane) :
    l.sendCtrl c x =
      { ch := { l.ch.lined (byteBits x) with stuffRun := 0#3 },
        out := (txTransfers c l.ch.lineLevel (byteBits x)).reverse ++ l.out } := by
  simp [Lane.sendCtrl, Lane.sendBits_eq, Lane.setRun]

/-- What sending data bits does to the engine: the stuffed bits on the line, the run they leave (R87). -/
def Channel.dataSent (ch : Channel) (bs : List Bool) : Channel :=
  { ch.lined (stuff ch.stuffRun.toNat bs) with
    stuffRun := BitVec.ofNat 3 (runAfter ch.stuffRun.toNat bs) }

theorem toNat_ofNat_run (n : Nat) (h : n ≤ 4) : (BitVec.ofNat 3 n).toNat = n := by
  simp only [BitVec.toNat_ofNat]; omega

theorem Channel.dataSent_nil (ch : Channel) : ch.dataSent [] = ch := by
  simp [Channel.dataSent, stuff, runAfter, Channel.lined_nil]

theorem Channel.dataSent_run (ch : Channel) (bs : List Bool) (h : ch.stuffRun.toNat ≤ 4) :
    (ch.dataSent bs).stuffRun.toNat = runAfter ch.stuffRun.toNat bs :=
  toNat_ofNat_run _ (runAfter_le _ _ h)

theorem Channel.dataSent_append (ch : Channel) (bs cs : List Bool) (h : ch.stuffRun.toNat ≤ 4) :
    ch.dataSent (bs ++ cs) = (ch.dataSent bs).dataSent cs := by
  have hr := ch.dataSent_run bs h
  rw [Channel.dataSent, Channel.dataSent, hr, stuff_append, runAfter_append, Channel.lined_append]
  rfl

theorem runAtLimit_iff (r : BitVec 3) (h : r.toNat ≤ 4) : runAtLimit (r + 1#3) = decide (r.toNat + 1 = 5) := by
  revert h; revert r; decide

theorem Lane.sendDataBit_eq (c : ChanId) (b : Bool) (l : Lane) (h : l.ch.stuffRun.toNat ≤ 4) :
    l.sendDataBit c b =
      { ch := l.ch.dataSent [b],
        out := (txTransfers c l.ch.lineLevel (stuff l.ch.stuffRun.toNat [b])).reverse ++ l.out } := by
  cases b with
  | false => simp [Lane.sendDataBit, Lane.sendBit_lined, Channel.dataSent, stuff, runAfter, Lane.setRun]
  | true =>
    simp only [Lane.sendDataBit, runAtLimit_iff _ h, Channel.dataSent, stuff, runAfter]
    by_cases h5 : l.ch.stuffRun.toNat + 1 = 5
    · simp only [h5, decide_true, if_true, Lane.sendBit_lined, Lane.setRun,
        show [true, false] = [true] ++ [false] from rfl, Channel.lined_append, txTransfers_append]
      simp [Channel.lined]
    · have hb : l.ch.stuffRun + 1#3 = BitVec.ofNat 3 (l.ch.stuffRun.toNat + 1) := by
        apply BitVec.eq_of_toNat_eq; simp [BitVec.toNat_add]
      simp [h5, Lane.sendBit_lined, Lane.setRun, hb]

theorem Lane.sendDataBits_eq (c : ChanId) (bs : List Bool) (l : Lane) (h : l.ch.stuffRun.toNat ≤ 4) :
    bs.foldl (fun l b => l.sendDataBit c b) l =
      { ch := l.ch.dataSent bs,
        out := (txTransfers c l.ch.lineLevel (stuff l.ch.stuffRun.toNat bs)).reverse ++ l.out } := by
  induction bs generalizing l with
  | nil => simp [Channel.dataSent_nil, stuff, txTransfers, nrzi]
  | cons b bs ih =>
    rw [List.foldl_cons, Lane.sendDataBit_eq c b l h, ih _ (by
      rw [Channel.dataSent_run _ _ h]; exact runAfter_le _ _ h)]
    simp only [Channel.dataSent_run _ _ h]
    rw [show b :: bs = [b] ++ bs from rfl, Channel.dataSent_append _ _ _ h, stuff_append, txTransfers_append]
    simp [Channel.dataSent, Channel.lined]

/-- UOP_DATA: eight data bits with the stuffed bits they owe (R87). -/
theorem Lane.sendData_eq (c : ChanId) (x : Byte) (l : Lane) (h : l.ch.stuffRun.toNat ≤ 4) :
    l.sendData c x =
      { ch := l.ch.dataSent (byteBits x),
        out := (txTransfers c l.ch.lineLevel (stuff l.ch.stuffRun.toNat (byteBits x))).reverse ++ l.out } :=
  Lane.sendDataBits_eq c _ l h

/-! ## Reads -/

theorem Lane.look_stable (c : ChanId) (fb : Fbuf) (a : Addr) (l : Lane) (h : fb.disturbed = []) :
    l.look c fb a = (fb.mem.byteAt a, l) := by
  simp [Lane.look, h]

theorem Lane.lookRegion_stable (c : ChanId) (fb : Fbuf) (base : Addr) (n i : Nat) (l : Lane)
    (h : fb.disturbed = []) : l.lookRegion c fb base n i = (fb.mem.region base n i, l) := by
  induction n generalizing i with
  | zero => rfl
  | succ n ih => simp [Lane.lookRegion, Lane.look_stable, h, ih, Memory.region]

/-- How many of the first `n` bytes from byte `i` on are disturbed. -/
def disturbedCount (fb : Fbuf) (base : Addr) : Nat → Nat → Nat
  | 0, _ => 0
  | n + 1, i => (fb.disturbed.contains (ea base i)).toNat + disturbedCount fb base n (i + 1)

theorem Lane.look_eq (c : ChanId) (fb : Fbuf) (a : Addr) (l : Lane) :
    l.look c fb a = (if fb.disturbed.contains a then Config.hazardByte c l.ch.draws else fb.mem.byteAt a,
      { l with ch := { l.ch with draws := l.ch.draws + (fb.disturbed.contains a).toNat } }) := by
  simp only [Lane.look]; cases fb.disturbed.contains a <;> simp

/-- Reading a region draws one free value for each disturbed byte, and changes nothing else (R175). -/
theorem Lane.lookRegion_lane (c : ChanId) (fb : Fbuf) (base : Addr) (n i : Nat) (l : Lane) :
    (l.lookRegion c fb base n i).2 =
      { l with ch := { l.ch with draws := l.ch.draws + disturbedCount fb base n i } } := by
  induction n generalizing i l with
  | zero => rfl
  | succ n ih => simp [Lane.lookRegion, ih, Lane.look_eq, disturbedCount, Nat.add_assoc]

/-- With no byte of the region written inside the window, the FCS is `FCS_FN` of the bytes the buffer holds (R102). -/
theorem Lane.fcsCalc_stable (fcsFn : List Byte → BitVec 16) (c : ChanId) (fb : Fbuf) (l : Lane)
    (h : fb.disturbed = []) :
    l.fcsCalc fcsFn c fb =
      { ch := { l.ch with fcs := fcsFn (fb.mem.region l.ch.base l.ch.len.toNat 0) },
        out := .fcsqAnswer c (fcsFn (fb.mem.region l.ch.base l.ch.len.toNat 0)) :: .fcsqAsk c l.ch.base l.ch.len ::
            l.out } := by
  simp [Lane.fcsCalc, Lane.askFcs, Lane.latchFcs, Lane.lookRegion_stable, h, Lane.emit, lenOperand]

/-- One payload byte with a stable buffer (R101). -/
theorem Lane.sendPayloadByte_eq (c : ChanId) (fb : Fbuf) (i : Nat) (l : Lane) (h : l.ch.stuffRun.toNat ≤ 4)
    (hu : fb.disturbed = []) :
    l.sendPayloadByte c fb i =
      { ch := { l.ch.dataSent (byteBits (fb.mem.byteAt (ea l.ch.base i))) with idx := l.ch.idx + 1#17 },
        out := (Event.fbufAsk c (ea l.ch.base i) :: Event.fbufRead c (ea l.ch.base i) (fb.mem.byteAt (ea l.ch.base i)) ::
          txTransfers c l.ch.lineLevel
            (stuff l.ch.stuffRun.toNat (byteBits (fb.mem.byteAt (ea l.ch.base i))))).reverse ++ l.out } := by
  simp [Lane.sendPayloadByte, Lane.memRead, Lane.askByte, Lane.readByte, Lane.look_stable, hu, Lane.emit,
      Lane.sendData_eq, h, Lane.countUnit,
    Channel.dataSent, Channel.lined]

/-- The payload with a stable buffer (R101). -/
theorem Lane.sendPayload_eq (c : ChanId) (fb : Fbuf) (n i : Nat) (l : Lane) (h : l.ch.stuffRun.toNat ≤ 4)
    (hu : fb.disturbed = []) :
    l.sendPayload c fb n i =
      { ch := { l.ch.dataSent (bytesBits (fb.mem.region l.ch.base n i)) with idx := l.ch.idx + BitVec.ofNat 17 n },
        out := (payloadTransfers c (payloadCells fb.mem l.ch.base n i) l.ch.lineLevel l.ch.stuffRun.toNat).reverse
          ++ l.out } := by
  induction n generalizing i l with
  | zero => simp [Lane.sendPayload, Memory.region, bytesBits, Channel.dataSent_nil, payloadCells, payloadTransfers]
  | succ n ih =>
    have hrun := runAfter_le _ (byteBits (fb.mem.byteAt (ea l.ch.base i))) h
    rw [← Channel.dataSent_run _ _ h] at hrun
    have hr := l.ch.dataSent_run (byteBits (fb.mem.byteAt (ea l.ch.base i))) h
    rw [Lane.sendPayload, Lane.sendPayloadByte_eq c fb i l h hu, ih]
    · simp only [Memory.region, bytesBits, Channel.dataSent_append _ _ _ h, payloadCells, payloadTransfers, hr]
      simp only [Channel.dataSent, Channel.lined, Lane.mk.injEq, Channel.mk.injEq, true_and, and_true]
      refine ⟨?_, by simp⟩
      rw [BitVec.ofNat_add, BitVec.add_assoc, BitVec.add_comm (BitVec.ofNat 17 n)]
    · exact hrun

end Sys2Proof.Machine
end

