-- ==== Sys2Proof/Laws/Command.lean ====
section
/-! SUPPORT. What each command does to its engine, whole (41_frame_and_flags R100, R106, R110; 42_dispatch R130), and
what serving a command or a micro-operation does to the block (30_encoding R70). -/

namespace Sys2Proof.Machine

/-! ## Frames -/

theorem Lane.sendFcs_eq (c : ChanId) (l : Lane) (h : l.ch.stuffRun.toNat ≤ 4) :
    l.sendFcs c =
      { ch := l.ch.dataSent (bytesBits (fcsBytes l.ch.bf l.ch.fcs)),
        out := (txTransfers c l.ch.lineLevel
          (stuff l.ch.stuffRun.toNat (bytesBits (fcsBytes l.ch.bf l.ch.fcs)))).reverse ++ l.out } := by
  have hrun := runAfter_le _ (byteBits (fcsLoByte l.ch.bf l.ch.fcs)) h
  rw [← Channel.dataSent_run _ _ h] at hrun
  have hr := l.ch.dataSent_run (byteBits (fcsLoByte l.ch.bf l.ch.fcs)) h
  rw [Lane.sendFcs, Lane.sendData_eq c _ l h, Lane.sendData_eq]
  · simp only [fcsBytes, bytesBits, List.append_nil, Channel.dataSent_append _ _ _ h, hr, stuff_append,
      txTransfers_append, List.reverse_append, List.append_assoc]
    simp only [Channel.dataSent, Channel.lined]
  · exact hrun

/-- The body of SEND_FRAME, whole, with a stable buffer (R100). -/
theorem Lane.sendFrameBody_eq (fcsFn : List Byte → BitVec 16) (c : ChanId) (fb : Fbuf) (l : Lane)
    (hu : fb.disturbed = []) :
    l.sendFrameBody fcsFn c fb =
      { ch := { l.ch with
          bitsSent := BitVec.ofNat 32 (frameRaw (fb.mem.region l.ch.base l.ch.len.toNat 0) l.ch.bf
            (fcsFn (fb.mem.region l.ch.base l.ch.len.toNat 0))).length
          stuffRun := 0#3
          lineLevel := levelAfter l.ch.lineLevel (frameRaw (fb.mem.region l.ch.base l.ch.len.toNat 0) l.ch.bf
            (fcsFn (fb.mem.region l.ch.base l.ch.len.toNat 0)))
          idx := l.ch.idx + BitVec.ofNat 17 l.ch.len.toNat
          fcs := fcsFn (fb.mem.region l.ch.base l.ch.len.toNat 0) },
        out := (frameTransfers c fb.mem l.ch.base l.ch.len l.ch.bf (fcsFn (fb.mem.region l.ch.base l.ch.len.toNat 0))
          l.ch.lineLevel).reverse ++ l.out } := by
  have hrun := runAfter_le 0 (bytesBits (fb.mem.region l.ch.base l.ch.len.toNat 0)) (by omega)
  simp only [Lane.sendFrameBody, Lane.clearCount, lenOperand, Lane.sendCtrl_eq]
  rw [Lane.sendPayload_eq]
  · rw [Lane.fcsCalc_stable]
    · rw [Lane.sendFcs_eq]
      · simp only [Channel.dataSent, Channel.lined, frameTransfers, map_snd_payloadCells, frameRaw, innerRaw_eq,
          levelAfter_append, toNat_ofNat_run _ hrun, List.reverse_append, List.append_assoc, BitVec.toNat_zero]
        simp only [List.length_append, BitVec.ofNat_add, flagRaw, BitVec.zero_add, BitVec.add_assoc, Config.flag,
          List.reverse_cons, List.reverse_nil, List.nil_append, List.cons_append]
      · simp only [Channel.dataSent, Channel.lined]
        exact le_of_eq_of_le (toNat_ofNat_run _ hrun) hrun
    · exact hu
  · simp
  · exact hu

theorem setWidth_len (n : BitVec 16) : 0#17 + BitVec.ofNat 17 n.toNat = n.setWidth 17 := by
  simp

/-- SEND_FRAME from its start to its response, with a stable buffer (R100, R107). -/
theorem Lane.sendFrame_eq (fcsFn : List Byte → BitVec 16) (c : ChanId) (fb : Fbuf) (l : Lane)
    (hu : fb.disturbed = []) (hi : l.ch.idx = 0#17) :
    l.sendFrame fcsFn c fb =
      { ch := l.ch.afterFrame (fb.mem.region l.ch.base l.ch.len.toNat 0) (fcsFn (fb.mem.region l.ch.base l.ch.len.toNat 0)),
        out := .resp ⟨c, .ok, (l.ch.afterFrame (fb.mem.region l.ch.base l.ch.len.toNat 0)
            (fcsFn (fb.mem.region l.ch.base l.ch.len.toNat 0))).bitsSent⟩ ::
          ((frameTransfers c fb.mem l.ch.base l.ch.len l.ch.bf (fcsFn (fb.mem.region l.ch.base l.ch.len.toNat 0))
            l.ch.lineLevel).reverse ++ l.out) } := by
  simp only [Lane.sendFrame, Lane.sendFrameBody_eq fcsFn c fb l hu, Lane.respond, Lane.emit, Channel.afterFrame, hi,
    setWidth_len]

/-! ## Flags -/

/-- `n` flags (R110, R113). -/
theorem Lane.sendFlagOctets_eq (c : ChanId) (n : Nat) (l : Lane) :
    l.sendFlagOctets c n =
      { ch := { l.ch.lined (flagsRaw n) with
          stuffRun := if n = 0 then l.ch.stuffRun else 0#3
          idx := l.ch.idx + BitVec.ofNat 17 n },
        out := (txTransfers c l.ch.lineLevel (flagsRaw n)).reverse ++ l.out } := by
  induction n generalizing l with
  | zero => simp [Lane.sendFlagOctets, flagsRaw, Channel.lined_nil, txTransfers, nrzi]
  | succ n ih =>
    rw [Lane.sendFlagOctets, ih, Lane.sendCtrl_eq]
    simp only [flagsRaw, Channel.lined_append, txTransfers_append, Lane.countUnit,
      show byteBits Config.flag = flagRaw from rfl]
    simp only [Channel.lined, Lane.mk.injEq, Channel.mk.injEq, true_and, and_true]
    simp [BitVec.ofNat_add, BitVec.add_assoc, BitVec.add_comm (BitVec.ofNat 17 n)]

/-- The transfers of SEND_FLAGS between its acceptance and its response, oldest first (R110, R112). -/
theorem Lane.sendFlags_eq (c : ChanId) (l : Lane) (hi : l.ch.idx = 0#17) :
    l.sendFlags c =
      { ch := l.ch.afterFlags l.ch.len.toNat,
        out := .resp ⟨c, .ok, BitVec.ofNat 32 (8 * l.ch.len.toNat)⟩ ::
          ((if l.ch.fin then [.flushDone c, .flushAsk c (Config.adevOf c)] else []) ++
            (txTransfers c l.ch.lineLevel (flagsRaw l.ch.len.toNat)).reverse ++ l.out) } := by
  simp only [Lane.sendFlags, Lane.clearCount, lenOperand, Lane.sendFlagOctets_eq]
  cases hf : l.ch.fin <;>
    simp [Lane.flush, Lane.askFlush, Lane.flushed, Lane.respond, Lane.emit, Channel.afterFlags, Channel.lined, hi, hf]

/-! ## The dispatcher -/

/-- The encapsulator's answer (R131). -/
theorem Lane.latchFx_eq (c : ChanId) (l : Lane) :
    l.latchFx c = { ch := l.ch.fxAnswered c, out := .fxqAnswer c (l.ch.fxAnswer c) :: l.out } := by
  simp only [Lane.latchFx, Channel.fxAnswered, Channel.fxAnswer]
  split <;> rename_i h <;> simp [h, Lane.emit]

/-- The encapsulator's request and its answer (R131). -/
theorem Lane.fxEncap_eq (c : ChanId) (l : Lane) :
    l.fxEncap c =
      { ch := l.ch.fxAnswered c,
        out := .fxqAnswer c (l.ch.fxAnswer c) :: .fxqAsk c l.ch.base l.ch.len l.ch.fxp :: l.out } := by
  rw [Lane.fxEncap, Lane.latchFx_eq]; rfl

theorem Channel.fxAnswered_fxres (c : ChanId) (ch : Channel) : (ch.fxAnswered c).fxres = ch.fxAnswer c := by
  simp only [Channel.fxAnswered, Channel.fxAnswer]; split <;> rfl

/-- The encapsulator's answer touches nothing but `fxres` and where the answer came from (R131). -/
theorem Channel.fxAnswered_eq (c : ChanId) (ch : Channel) :
    ch.fxAnswered c = { ch with fxres := (ch.fxAnswered c).fxres, fxAnswers := (ch.fxAnswered c).fxAnswers,
                                draws := (ch.fxAnswered c).draws } := by
  simp only [Channel.fxAnswered]; split <;> rfl

/-! ## The block -/

/-- What serving an accepted command does to the block (R70). -/
theorem serveCommand_ready {s : State} {f : CmdFields} {ch : Channel} (op : BitVec 4)
    (run : ChanId → Fbuf → Lane → Lane) (h : s.ready f.chan ch) :
    serveCommand op f run s =
      .next (s.popCmd.putLane f.chan (run f.chan ⟨s.mem, []⟩ ⟨ch.latch op f, [.cmd f.chan]⟩)) := by
  obtain ⟨h1, h2, h3⟩ := h
  simp [serveCommand, h1, h2, h3]

/-- Everything serving a command can do (R70, R154): the word waits, the word is rejected, or it runs. -/
theorem serveCommand_cases (op : BitVec 4) (f : CmdFields) (run : ChanId → Fbuf → Lane → Lane) (s : State) :
    serveCommand op f run s = .next s ∨
    (s.rst = false ∧ s.channel? f.chan = none ∧ serveCommand op f run s = .next (s.reject f.chan .badChan)) ∨
    (∃ ch, s.ready f.chan ch ∧ serveCommand op f run s =
      .next (s.popCmd.putLane f.chan (run f.chan ⟨s.mem, []⟩ ⟨ch.latch op f, [.cmd f.chan]⟩))) := by
  simp only [serveCommand, State.ready]
  cases hr : s.rst <;> simp
  cases hc : s.channel? f.chan with
  | none => simp
  | some ch => cases hb : ch.busy <;> simp [hb]

/-- What running a micro-operation does to the block (R80). -/
theorem serveUop_some {s : State} {uch : ChanId} {ch : Channel} (run : ChanId → Lane → Lane)
    (h : s.channel? uch = some ch) :
    serveUop uch run s = .next (s.putLane uch (run uch ⟨{ ch with uop := none }, []⟩)) := by
  simp [serveUop, h]

theorem serveUop_none {s : State} {uch : ChanId} (run : ChanId → Lane → Lane) (h : s.channel? uch = none) :
    serveUop uch run s = .refused .noEngine := by
  simp [serveUop, h]

end Sys2Proof.Machine
end

