-- ==== Sys2Proof/Laws/Decode.lean ====
section
/-! SUPPORT. The fields of encoded words (30_encoding R61, R64), and that a word is made of its fields. -/

namespace Sys2Proof

/-! ## Fields of an encoded command word (R61) -/

theorem opField_encodeCmd (op : BitVec 4) (f : CmdFields) : opField (encodeCmd op f) = op := by
  apply BitVec.eq_of_getLsbD_eq
  intro i hi
  interval_cases i <;> simp [opField, encodeCmd, placed]

theorem chan_encodeCmd (op : BitVec 4) (f : CmdFields) : (encodeCmd op f).extractLsb' 8 8 = f.chan := by
  apply BitVec.eq_of_getLsbD_eq
  intro i hi
  interval_cases i <;> simp [encodeCmd, placed]

theorem fxp_encodeCmd (op : BitVec 4) (f : CmdFields) : (encodeCmd op f).extractLsb' 16 8 = f.fxp := by
  apply BitVec.eq_of_getLsbD_eq
  intro i hi
  interval_cases i <;> simp [encodeCmd, placed]

theorem len_encodeCmd (op : BitVec 4) (f : CmdFields) : (encodeCmd op f).extractLsb' 32 16 = f.len := by
  apply BitVec.eq_of_getLsbD_eq
  intro i hi
  interval_cases i <;> simp [encodeCmd, placed]

theorem base_encodeCmd (op : BitVec 4) (f : CmdFields) : (encodeCmd op f).extractLsb' 48 16 = f.base := by
  apply BitVec.eq_of_getLsbD_eq
  intro i hi
  interval_cases i <;> simp [encodeCmd, placed]

theorem cmdFields_encodeCmd (op : BitVec 4) (f : CmdFields) : cmdFields (encodeCmd op f) = f := by
  have hb : bitField (encodeCmd op f) 4 = f.bf := by simp [bitField, encodeCmd, placed]
  have hf : bitField (encodeCmd op f) 5 = f.fin := by simp [bitField, encodeCmd, placed]
  simp only [cmdFields, hb, hf, chan_encodeCmd, fxp_encodeCmd, len_encodeCmd, base_encodeCmd]

theorem reservedClear_encodeCmd (op : BitVec 4) (f : CmdFields) : reservedClear (encodeCmd op f) = true := by
  have ha : (encodeCmd op f).extractLsb' 6 2 = 0#2 := by
    apply BitVec.eq_of_getLsbD_eq
    intro i hi
    interval_cases i <;> simp [encodeCmd, placed]
  have hb : (encodeCmd op f).extractLsb' 24 8 = 0#8 := by
    apply BitVec.eq_of_getLsbD_eq
    intro i hi
    interval_cases i <;> simp [encodeCmd, placed]
  simp [reservedClear, ha, hb]

/-- A command word whose reserved bits are clear is its opcode and its fields (R61). -/
theorem encodeCmd_fields (w : CmdWord) (h : reservedClear w = true) : encodeCmd (opField w) (cmdFields w) = w := by
  simp only [reservedClear, Bool.and_eq_true, beq_iff_eq] at h
  have ha : ∀ i, i < 2 → w.getLsbD (6 + i) = false := by
    intro i hi; have := congrArg (·.getLsbD i) h.1; simpa [BitVec.getLsbD_extractLsb', hi] using this
  have hb : ∀ i, i < 8 → w.getLsbD (24 + i) = false := by
    intro i hi; have := congrArg (·.getLsbD i) h.2; simpa [BitVec.getLsbD_extractLsb', hi] using this
  have h6 := ha 0 (by omega)
  have h7 := ha 1 (by omega)
  apply BitVec.eq_of_getLsbD_eq
  intro i hi
  rcases Nat.lt_or_ge i 24 with h24 | h24
  · interval_cases i <;> simp_all [opField, encodeCmd, placed, cmdFields, bitField]
  · rcases Nat.lt_or_ge i 32 with h32 | h32
    · have := hb (i - 24) (by omega)
      rw [show 24 + (i - 24) = i by omega] at this
      rw [this]
      interval_cases i <;> simp [opField, encodeCmd, placed, cmdFields, bitField]
    · interval_cases i <;> simp [opField, encodeCmd, placed, cmdFields, bitField]

/-! ## Fields of an encoded micro-operation word (R64) -/

theorem decodeUopFields_encodeUop (k : BitVec 2) (uch : ChanId) (x : Byte) :
    decodeUopFields (encodeUop k uch x) =
      if k = 0#2 then (if x.extractLsb' 1 7 = 0#7 then .ok (.bit, uch, x) else .error .bitValueHigh)
      else if k = 1#2 then .ok (.ctrl, uch, x)
      else if k = 2#2 then .ok (.data, uch, x)
      else .error .kindReserved := by
  have hk : (encodeUop k uch x).extractLsb' 0 2 = k := by
    apply BitVec.eq_of_getLsbD_eq
    intro i hi
    interval_cases i <;> simp [encodeUop, placed]
  have hz : (encodeUop k uch x).extractLsb' 2 6 = 0#6 := by
    apply BitVec.eq_of_getLsbD_eq
    intro i hi
    interval_cases i <;> simp [encodeUop, placed]
  have hv : (encodeUop k uch x).extractLsb' 8 8 = x := by
    apply BitVec.eq_of_getLsbD_eq
    intro i hi
    interval_cases i <;> simp [encodeUop, placed]
  have hc : (encodeUop k uch x).extractLsb' 16 8 = uch := by
    apply BitVec.eq_of_getLsbD_eq
    intro i hi
    interval_cases i <;> simp [encodeUop, placed]
  simp [decodeUopFields, hk, hz, hv, hc]

theorem decodeUopFields_bit (uch : ChanId) (b : Bool) :
    decodeUopFields (uopBitWord uch b) = .ok (.bit, uch, (BitVec.ofBool b).setWidth 8) := by
  rw [uopBitWord, decodeUopFields_encodeUop]
  cases b <;> rfl

theorem decodeUopFields_ctrl (uch : ChanId) (x : Byte) :
    decodeUopFields (uopCtrlWord uch x) = .ok (.ctrl, uch, x) := by
  rw [uopCtrlWord, decodeUopFields_encodeUop]; rfl

theorem decodeUopFields_data (uch : ChanId) (x : Byte) :
    decodeUopFields (uopDataWord uch x) = .ok (.data, uch, x) := by
  rw [uopDataWord, decodeUopFields_encodeUop]; rfl

/-- A micro-operation word with `Z` = 0 is its kind, channel and value (R64). -/
theorem encodeUop_fields (w : UopWord) (h : w.extractLsb' 2 6 = 0#6) :
    encodeUop (w.extractLsb' 0 2) (w.extractLsb' 16 8) (w.extractLsb' 8 8) = w := by
  have hz : ∀ i, i < 6 → w.getLsbD (2 + i) = false := by
    intro i hi; have := congrArg (·.getLsbD i) h; simpa [BitVec.getLsbD_extractLsb', hi] using this
  apply BitVec.eq_of_getLsbD_eq
  intro i hi
  rcases Nat.lt_or_ge i 2 with h2 | h2
  · interval_cases i <;> simp [encodeUop, placed]
  · rcases Nat.lt_or_ge i 8 with h8 | h8
    · have := hz (i - 2) (by omega)
      rw [show 2 + (i - 2) = i by omega] at this
      rw [this]
      interval_cases i <;> simp [encodeUop, placed]
    · interval_cases i <;> simp [encodeUop, placed]

end Sys2Proof
end

