-- ==== Sys2Proof/Laws/Turns.lean ====
section
/-! SUPPORT. What a decoded word can be, and what serving, accepting and moving do, said once for the proofs about steps
(30_encoding R61 to R70; 40_bit_level R80). -/

namespace Sys2Proof.Machine

/-! ## Decoded words -/

/-- A word that decodes is one of the three commands, with the word's fields and opcode (R62). -/
theorem decodeCmd_cases {w : CmdWord} {i : Instr} (h : decodeCmd w = .ok i) :
    (i = .sendFrame (cmdFields w) ∧ opField w = opSendFrame) ∨
    (i = .sendFlags (cmdFields w) ∧ opField w = opSendFlags) ∨
    (i = .l2Send (cmdFields w) ∧ opField w = opL2Send) := by
  simp only [decodeCmd, opcode?] at h
  split at h
  · simp at h
  · rename_i mk hk
    split at h <;> simp at h
    subst h
    split at hk
    · simp at hk; subst hk; simp_all
    · split at hk
      · simp at hk; subst hk; simp_all
      · split at hk <;> simp at hk; subst hk; simp_all

/-- A word a block of `n` engines accepts decodes, and its channel exists (R69). -/
theorem classifyCmd_ok {n : Nat} {w : CmdWord} {i : Instr} (h : classifyCmd n w = .ok i) :
    decodeCmd w = .ok i ∧ i.chan.toNat < n := by
  simp only [classifyCmd] at h
  split at h
  · simp at h
  · rename_i j hj
    split at h <;> simp at h
    subst h
    rename_i hc
    simp only [Instr.chanOk, decide_eq_true_eq] at hc
    exact ⟨hj, hc⟩

/-- The commands with fields `f`. -/
def commandsOf (f : CmdFields) : List Instr := [.sendFrame f, .sendFlags f, .l2Send f]

theorem decodeCmd_mem {w : CmdWord} {i : Instr} (h : decodeCmd w = .ok i) :
    i ∈ commandsOf (cmdFields w) ∧ i.chan = (cmdFields w).chan := by
  rcases decodeCmd_cases h with ⟨h, _⟩ | ⟨h, _⟩ | ⟨h, _⟩ <;> simp [h, commandsOf, Instr.chan]

/-- Every command runs through `serveCommand` (R70). -/
theorem exec_command {i : Instr} {f : CmdFields} (h : i ∈ commandsOf f) :
    ∃ op run, ∀ s, exec i s = serveCommand op f run s := by
  simp only [commandsOf, List.mem_cons, List.not_mem_nil, or_false] at h
  rcases h with rfl | rfl | rfl
  · exact ⟨opSendFrame, fun c fb l => l.sendFrame Config.fcsFn c fb, fun _ => rfl⟩
  · exact ⟨opSendFlags, fun c _ l => l.sendFlags c, fun _ => rfl⟩
  · exact ⟨opL2Send, fun c fb l => l.l2Send Config.fcsFn c fb, fun _ => rfl⟩

/-- What a micro-operation does to its engine (R81, R84, R87). -/
def uopRun (k : UopKind) (x : Byte) (c : ChanId) (l : Lane) : Lane :=
  match k with
  | .bit => l.sendBit c (bitField x 0)
  | .ctrl => l.sendCtrl c x
  | .data => l.sendData c x

/-- Every micro-operation runs through `serveUop` (R80). -/
theorem exec_uopInstr (k : UopKind) (c : ChanId) (x : Byte) (s : State) :
    exec (uopInstr (k, c, x)) s = serveUop c (uopRun k x) s := by
  cases k <;> rfl

/-- The slot's word, when it decodes to a micro-operation of engine `c` (R64). -/
theorem slotWord_of_decodeUop {c : ChanId} {w : UopWord} {i : Instr} (h : decodeUop w = .ok i) (hc : i.chan = c) :
    ∃ k x, slotWord c w = .ok (k, x) ∧ uopInstr (k, c, x) = i := by
  simp only [decodeUop] at h
  split at h
  · simp at h
  · rename_i u hu
    obtain ⟨k, uch, x⟩ := u
    simp at h
    have : uch = c := by rw [← hc, ← h]; cases k <;> rfl
    exact ⟨k, x, by simp [slotWord, hu, this], by rw [← this]; exact h⟩

@[simp] theorem slotWord_ctrl (c : ChanId) (x : Byte) : slotWord c (uopCtrlWord c x) = .ok (.ctrl, x) := by
  simp [slotWord, decodeUopFields_ctrl]

@[simp] theorem slotWord_data (c : ChanId) (x : Byte) : slotWord c (uopDataWord c x) = .ok (.data, x) := by
  simp [slotWord, decodeUopFields_data]

theorem uopCtrlWord_ne_uopDataWord (c : ChanId) (x y : Byte) : uopCtrlWord c x ≠ uopDataWord c y := by
  intro h
  have := slotWord_ctrl c x
  simp [h] at this

/-! ## Acceptance -/

/-- A good word for an engine that can take it is accepted (R70). -/
theorem acceptHead_ready {s : State} {w : CmdWord} {ws : List CmdWord} {i : Instr} {ch : Channel} (hc : s.cmd = w :: ws)
    (hcl : classifyCmd s.nchan w = .ok i) (h : s.ready i.chan ch) :
    acceptHead s = s.popCmd.putLane i.chan ⟨ch.start i.chan i, [.cmd i.chan]⟩ := by
  obtain ⟨hr, hch, hb⟩ := h
  simp [acceptHead, hc, hcl, hr, hch, hb]

/-- Everything acceptance can do (R70): nothing, a rejection whose response is outstanding, or a command's start. -/
theorem acceptHead_cases (s : State) :
    acceptHead s = s ∨
    (∃ c st, s.rst = false ∧ acceptHead s = s.rejectLater c st) ∨
    (∃ w ws i ch, s.cmd = w :: ws ∧ classifyCmd s.nchan w = .ok i ∧ s.ready i.chan ch ∧
      acceptHead s = s.popCmd.putLane i.chan ⟨ch.start i.chan i, [.cmd i.chan]⟩) := by
  cases hc : s.cmd with
  | nil => left; simp [acceptHead, hc]
  | cons w ws =>
    cases hr : s.rst with
    | true => left; simp [acceptHead, hc, hr]
    | false =>
      cases hcl : classifyCmd s.nchan w with
      | error st => right; left; exact ⟨_, st, rfl, by simp [acceptHead, hc, hr, hcl]; rfl⟩
      | ok i =>
        cases hch : s.channel? i.chan with
        | none => left; simp [acceptHead, hc, hr, hcl, hch]
        | some ch =>
          cases hb : ch.busy with
          | true => left; simp [acceptHead, hc, hr, hcl, hch, hb]
          | false =>
            right; right
            exact ⟨w, ws, i, ch, rfl, hcl, ⟨hr, hch, hb⟩, acceptHead_ready hc hcl ⟨hr, hch, hb⟩⟩

/-- Everything serving the head word can do (R70, R183): nothing, a rejection, or a command run whole. -/
theorem serveHead_cases (s : State) :
    serveHead s = .next s ∨
    (∃ c st, s.rst = false ∧ s.cmd ≠ [] ∧ serveHead s = .next (s.reject c st)) ∨
    (∃ f i ch, i ∈ commandsOf f ∧ s.cmd ≠ [] ∧ s.ready f.chan ch ∧ serveHead s = exec i s) := by
  cases hc : s.cmd with
  | nil => left; simp [serveHead, hc]
  | cons w ws =>
    cases hd : decodeCmd w with
    | error st =>
      cases hr : s.rst with
      | true => left; simp [serveHead, hc, hd, hr]
      | false => right; left; exact ⟨_, st, rfl, by simp, by simp [serveHead, hc, hd, hr]; rfl⟩
    | ok i =>
      obtain ⟨hi, -⟩ := decodeCmd_mem hd
      have hs : serveHead s = exec i s := by simp [serveHead, hc, hd]
      obtain ⟨op, run, he⟩ := exec_command hi
      rcases serveCommand_cases op (cmdFields w) run s with h | ⟨hr, -, h⟩ | ⟨ch, hch, -⟩
      · left; rw [hs, he, h]
      · right; left; exact ⟨_, _, hr, by simp, by rw [hs, he, h]⟩
      · right; right; exact ⟨cmdFields w, i, ch, hi, by simp, hch, hs⟩

/-! ## Engine turns -/

/-- Everything an engine's turn can do when it answers a next state (R80). -/
theorem engineTurn_next {fcsFn : List Byte → BitVec 16} {m : Move} {c : ChanId} {s t : State}
    (h : engineTurn fcsFn m c s = .next t) :
    (s.channel? c = none ∧ t = s) ∨
    (∃ ch l, s.channel? c = some ch ∧ engineMove fcsFn m c (s.fbuf c ch) ch = .ok l ∧ t = s.putLane c l) := by
  simp only [engineTurn] at h
  split at h
  · rename_i hc; left; exact ⟨hc, by simpa using h.symm⟩
  · rename_i ch hc
    split at h
    · simp at h
    · rename_i l hl
      right; exact ⟨ch, l, hc, hl, by simpa using h.symm⟩

theorem engineTurn_some {fcsFn : List Byte → BitVec 16} {m : Move} {c : ChanId} {s : State} {ch : Channel} {l : Lane}
    (h1 : s.channel? c = some ch) (h2 : engineMove fcsFn m c (s.fbuf c ch) ch = .ok l) :
    engineTurn fcsFn m c s = .next (s.putLane c l) := by
  simp [engineTurn, h1, h2]

theorem Channel.mayAskFcs_iff {ch : Channel} : ch.mayAskFcs = true ↔ ch.may (.request .fcsq) := by
  simp only [Channel.mayAskFcs, Channel.may, Bool.and_eq_true, Bool.or_eq_true, decide_eq_true_eq, or_assoc]
  exact And.comm

/-- A handshake that is not possible does not happen: the engine stays as it is and makes no transfer (R10, R171). -/
theorem engineMove_still {fcsFn : List Byte → BitVec 16} {m : Move} {c : ChanId} {fb : Fbuf} {ch : Channel}
    (h : ¬ ch.may m) : engineMove fcsFn m c fb ch = .ok ⟨ch, []⟩ := by
  rcases m with p | p <;> cases p
  case request.fcsq => exact congrArg Except.ok (if_neg fun k => h (Channel.mayAskFcs_iff.1 k))
  all_goals simp_all [engineMove, Lane.request, Lane.serve, Channel.may]

/-- And the block stays as it is. -/
theorem engineTurn_still {fcsFn : List Byte → BitVec 16} {m : Move} {c : ChanId} {s : State} {ch : Channel}
    (hs : s.channel? c = some ch) (h : ¬ ch.may m) : engineTurn fcsFn m c s = .next s := by
  simp [engineTurn, hs, engineMove_still h, State.putLane_still hs]

theorem engineTurn_none {fcsFn : List Byte → BitVec 16} {m : Move} {c : ChanId} {s : State} (h : s.channel? c = none) :
    engineTurn fcsFn m c s = .next s := by
  simp [engineTurn, h]

/-- The engine after a micro-operation that ran whole, its transfers, and the sequencer's move (R80). -/
def uopLane (c : ChanId) (k : UopKind) (x : Byte) (ch : Channel) : Lane :=
  (uopRun k x c ⟨{ ch with uop := none }, []⟩).onChannel (Channel.uopDone c)

theorem putLane_finishUop {c : ChanId} {s : State} {ch : Channel} (h : s.channel? c = some ch) (l : Lane) :
    (s.putLane c l).finishUop c = s.putLane c (l.onChannel (Channel.uopDone c)) := by
  simp only [State.finishUop, State.channel?_putLane_self l h]
  simp [State.putLane, Lane.onChannel]

/-- Everything a `uop` turn can do when it answers a next state. -/
theorem uopTurn_next {fcsFn : List Byte → BitVec 16} {c : ChanId} {s t : State} (h : uopTurn fcsFn c s = .next t) :
    t = s ∨ engineTurn fcsFn (.serve .txbit) c s = .next t ∨
    (∃ ch w k x, s.channel? c = some ch ∧ ch.uop = some w ∧ slotWord c w = .ok (k, x) ∧ ch.bitpos = 0#3 ∧
      ch.stuffPending = false ∧ t = s.putLane c (uopLane c k x ch)) := by
  simp only [uopTurn] at h
  split at h
  · simp at h
  · rename_i ch hch
    split at h
    · left; simpa using h.symm
    · rename_i w hw
      split at h
      · simp at h
      · rename_i k x hs
        split at h
        · rename_i hb
          simp only [Bool.and_eq_true, decide_eq_true_eq, Bool.not_eq_true'] at hb
          rw [exec_uopInstr, serveUop_some _ hch] at h
          right; right
          refine ⟨ch, w, k, x, hch, hw, hs, hb.1, hb.2, ?_⟩
          simp only [Host.Outcome.next.injEq] at h
          rw [← h, putLane_finishUop hch]
          rfl
        · right; left; exact h

/-! ## The host's turn -/

/-- Everything the host's turn can do: wait, offer, write, take an engine's response, take a rejection's. -/
theorem hostTurn_cases (s : State) :
    (hostTurn s = s) ∨
    (∃ w hs, s.host = .offer w :: hs ∧ hostTurn s = { s with host := hs, cmd := s.cmd ++ [w] }) ∨
    (∃ a v hs, s.host = .write a v :: hs ∧ hostTurn s = State.hostWrite a v { s with host := hs }) ∨
    (∃ c hs ch, s.host = .takeResp c :: hs ∧ s.channel? c = some ch ∧ ch.phase = .resp ∧
      hostTurn s = State.putLane c (Lane.respond c ch.respCount ⟨ch, []⟩) { s with host := hs }) ∨
    (∃ k r hs, s.host = .takeRejection k :: hs ∧ s.rejections[k]? = some r ∧
      hostTurn s = { s with host := hs, rejections := s.rejections.eraseIdx k, trace := .resp r :: s.trace }) := by
  rcases hh : s.host with - | ⟨(w | ⟨a, v⟩ | c | k), hs⟩
  · left; simp [hostTurn, hh]
  · right; left; exact ⟨w, hs, rfl, by simp [hostTurn, hh]⟩
  · right; right; left; exact ⟨a, v, hs, rfl, by simp [hostTurn, hh]⟩
  · rcases hc : s.channel? c with - | ch
    · left; simp [hostTurn, hh, hc]
    · by_cases hp : ch.phase = .resp
      · right; right; right; left; exact ⟨c, hs, ch, rfl, hc, hp, by simp [hostTurn, hh, hc, hp]⟩
      · left; simp [hostTurn, hh, hc, hp]
  · rcases hr : s.rejections[k]? with - | r
    · left; simp [hostTurn, hh, hr]
    · right; right; right; right; exact ⟨k, r, hs, rfl, hr, by simp [hostTurn, hh, hr]⟩

/-- The host takes a response that is there (R14). -/
theorem hostTurn_takeResp {s : State} {c : ChanId} {hs : List HostAct} {ch : Channel} (hh : s.host = .takeResp c :: hs)
    (hc : s.channel? c = some ch) (hp : ch.phase = .resp) :
    hostTurn s = State.putLane c (Lane.respond c ch.respCount ⟨ch, []⟩) { s with host := hs } := by
  simp [hostTurn, hh, hc, hp]

/-! ## Runs -/

theorem run_next {k : Nat} {s t : State} (h : step s = .next t) :
    Host.Core.run core (k + 1) s = Host.Core.run core k t := by
  have : core.step s = .next t := h
  simp only [Host.Core.run, this]

theorem run_succ {k : Nat} {s t : State} (h : Host.Core.run core (k + 1) s = .next t) :
    ∃ u, step s = .next u ∧ Host.Core.run core k u = .next t := by
  simp only [Host.Core.run] at h
  split at h
  · rename_i u hu; exact ⟨u, hu, h⟩
  · simp at h
  · simp at h

end Sys2Proof.Machine
end

