-- ==== Sys2Proof/Laws/Engine.lean ====
section
/-! SUPPORT. What every operation of an engine keeps: its transfers are its own, and its line level is the level it sent
last (10_state R22, R23). -/

namespace Sys2Proof.Machine

/-- The transfer served engine `c`. -/
def Event.on (c : ChanId) : Event → Prop
  | .cmd d => d = c
  | .resp r => r.chan = c
  | .txbit d _ => d = c
  | .fbufAsk d _ => d = c
  | .fbufRead d _ _ => d = c
  | .fcsqAsk d _ _ => d = c
  | .fcsqAnswer d _ => d = c
  | .fxqAsk d _ _ _ => d = c
  | .fxqAnswer d _ => d = c
  | .flushAsk d _ => d = c
  | .flushDone d => d = c
  | .warn d _ => d = c
  | .rst => False

theorem lastLevel_append (c : ChanId) (es fs : List Event) (h : ∀ e ∈ es, e.on c) :
    lastLevel c (es ++ fs) = (lastLevel c es).or (lastLevel c fs) := by
  induction es with
  | nil => rfl
  | cons e es ih =>
    have he := h e (by simp)
    have ih := ih fun e he => h e (by simp [he])
    cases e <;> simp_all [lastLevel, Event.on]

theorem lastLevel_append_ne (c d : ChanId) (es fs : List Event) (hcd : c ≠ d) (h : ∀ e ∈ es, e.on c) :
    lastLevel d (es ++ fs) = lastLevel d fs := by
  induction es with
  | nil => rfl
  | cons e es ih =>
    have he := h e (by simp)
    have ih := ih fun e he => h e (by simp [he])
    cases e <;> simp_all [lastLevel, Event.on]

theorem sentLevels_ne (c d : ChanId) (es : List Event) (hcd : c ≠ d) (h : ∀ e ∈ es, e.on c) : sentLevels d es = [] := by
  induction es with
  | nil => rfl
  | cons e es ih =>
    have he := h e (by simp)
    have ih := ih fun e he => h e (by simp [he])
    cases e <;> simp_all [sentLevels_txbit, Event.on]

/-- The engine's transfers are its own, and its level is the level it sent last, `v` where it has sent none. -/
def Lane.Tracks (c : ChanId) (v : Bool) (l : Lane) : Prop :=
  (∀ e ∈ l.out, e.on c) ∧ l.ch.lineLevel = (lastLevel c l.out).getD v

variable {c : ChanId} {v : Bool} {l : Lane}

theorem Lane.Tracks.start (c : ChanId) (ch : Channel) : Lane.Tracks c ch.lineLevel ⟨ch, []⟩ := by
  simp [Lane.Tracks, lastLevel]

/-- Changing an engine's own state keeps this if it leaves the line level alone (R22). -/
theorem Lane.Tracks.withCh (h : l.Tracks c v) (ch : Channel) (hl : ch.lineLevel = l.ch.lineLevel) :
    Lane.Tracks c v { l with ch := ch } := ⟨h.1, hl.trans h.2⟩

theorem Lane.Tracks.emit (h : l.Tracks c v) (e : Event) (he : e.on c) (ht : ∀ w, e ≠ .txbit c w) :
    (l.emit e).Tracks c v := by
  refine ⟨by simpa [Lane.emit, he] using h.1, ?_⟩
  cases e <;> simp_all [Lane.emit, lastLevel, Lane.Tracks, Event.on]

theorem Lane.Tracks.sendBit (h : l.Tracks c v) (b : Bool) : (l.sendBit c b).Tracks c v := by
  rw [Lane.sendBit_eq]
  exact ⟨by simpa [Event.on] using h.1, by simp [lastLevel]⟩

theorem Lane.Tracks.foldl (f : Lane → Bool → Lane) (hf : ∀ l b, Lane.Tracks c v l → (f l b).Tracks c v) (bs : List Bool) :
    ∀ {l : Lane}, l.Tracks c v → (bs.foldl f l).Tracks c v := by
  induction bs with
  | nil => exact fun h => h
  | cons b bs ih => exact fun h => ih (hf _ b h)

theorem Lane.Tracks.setRun (h : l.Tracks c v) (r : BitVec 3) : (l.setRun r).Tracks c v := h.withCh _ rfl

theorem Lane.Tracks.sendCtrl (h : l.Tracks c v) (x : Byte) : (l.sendCtrl c x).Tracks c v :=
  (Lane.Tracks.foldl _ (fun _ b h => h.sendBit b) _ h).setRun _

theorem Lane.Tracks.sendDataBit (h : l.Tracks c v) (b : Bool) : (l.sendDataBit c b).Tracks c v := by
  simp only [Lane.sendDataBit]
  split
  · split
    · exact ((h.sendBit b).sendBit false).setRun _
    · exact (h.sendBit b).setRun _
  · exact (h.sendBit b).setRun _

theorem Lane.Tracks.sendData (h : l.Tracks c v) (x : Byte) : (l.sendData c x).Tracks c v :=
  Lane.Tracks.foldl _ (fun _ b h => h.sendDataBit b) _ h

theorem Lane.Tracks.look (h : l.Tracks c v) (fb : Fbuf) (a : Addr) : (l.look c fb a).2.Tracks c v := by
  rw [Lane.look_eq]; exact h.withCh _ rfl

theorem Lane.Tracks.askByte (h : l.Tracks c v) (a : Addr) : (l.askByte c a).Tracks c v := h.emit _ rfl (by simp)

theorem Lane.Tracks.readByte (h : l.Tracks c v) (fb : Fbuf) (a : Addr) : (l.readByte c fb a).2.Tracks c v :=
  (h.look fb a).emit _ rfl (by simp)

theorem Lane.Tracks.memRead (h : l.Tracks c v) (fb : Fbuf) (a : Addr) : (l.memRead c fb a).2.Tracks c v :=
  (h.askByte a).readByte fb a

theorem Lane.Tracks.askFcs (h : l.Tracks c v) : (l.askFcs c).Tracks c v := h.emit _ rfl (by simp)

theorem Lane.Tracks.latchFcs (h : l.Tracks c v) (fcsFn : List Byte → BitVec 16) (fb : Fbuf) :
    (l.latchFcs fcsFn c fb).Tracks c v := by
  simp only [Lane.latchFcs, Lane.lookRegion_lane]
  exact Lane.Tracks.emit (h.withCh _ rfl) _ rfl (by simp)

theorem Lane.Tracks.fcsCalc (h : l.Tracks c v) (fcsFn : List Byte → BitVec 16) (fb : Fbuf) :
    (l.fcsCalc fcsFn c fb).Tracks c v := h.askFcs.latchFcs fcsFn fb

theorem Lane.Tracks.askFx (h : l.Tracks c v) : (l.askFx c).Tracks c v := h.emit _ rfl (by simp)

theorem Lane.Tracks.latchFx (h : l.Tracks c v) : (l.latchFx c).Tracks c v := by
  simp only [Lane.latchFx]
  split
  · exact Lane.Tracks.emit (h.withCh _ rfl) _ rfl (by simp)
  · exact Lane.Tracks.emit (h.withCh _ rfl) _ rfl (by simp)

theorem Lane.Tracks.fxEncap (h : l.Tracks c v) : (l.fxEncap c).Tracks c v := h.askFx.latchFx

theorem Lane.Tracks.askFlush (h : l.Tracks c v) : (l.askFlush c).Tracks c v := h.emit _ rfl (by simp)

theorem Lane.Tracks.flushed (h : l.Tracks c v) : (l.flushed c).Tracks c v := h.emit _ rfl (by simp)

theorem Lane.Tracks.flush (h : l.Tracks c v) : (l.flush c).Tracks c v := h.askFlush.flushed

theorem Lane.Tracks.warn (h : l.Tracks c v) : (l.warn c).Tracks c v := h.emit _ rfl (by simp)

theorem Lane.Tracks.respond (h : l.Tracks c v) (n : Count) : (l.respond c n).Tracks c v :=
  (h.withCh _ rfl).emit _ rfl (by simp)

theorem Lane.Tracks.onChannel (h : l.Tracks c v) (g : Channel → Channel) (hg : ∀ ch, (g ch).lineLevel = ch.lineLevel) :
    (l.onChannel g).Tracks c v := h.withCh _ (hg _)

/-! ## Commands run whole -/

theorem Lane.Tracks.sendPayload (fb : Fbuf) (n : Nat) :
    ∀ (i : Nat) {l : Lane}, l.Tracks c v → (l.sendPayload c fb n i).Tracks c v := by
  induction n with
  | zero => exact fun _ _ h => h
  | succ n ih => exact fun i _ h => ih (i + 1) (((h.memRead fb _).sendData _).withCh _ rfl)

theorem Lane.Tracks.sendFrame (h : l.Tracks c v) (fcsFn : List Byte → BitVec 16) (fb : Fbuf) :
    (l.sendFrame fcsFn c fb).Tracks c v := by
  have h1 : l.clearCount.Tracks c v := h.withCh _ rfl
  exact (((((Lane.Tracks.sendPayload fb _ _ (h1.sendCtrl _)).fcsCalc fcsFn fb).sendData _).sendData _).sendCtrl _).respond _

theorem Lane.Tracks.sendFlagOctets (n : Nat) :
    ∀ {l : Lane}, l.Tracks c v → (l.sendFlagOctets c n).Tracks c v := by
  induction n with
  | zero => exact fun h => h
  | succ n ih => exact fun h => ih ((h.sendCtrl _).withCh _ rfl)

theorem Lane.Tracks.sendFlags (h : l.Tracks c v) : (l.sendFlags c).Tracks c v := by
  have h1 : l.clearCount.Tracks c v := h.withCh _ rfl
  simp only [Lane.sendFlags]
  split
  · exact (Lane.Tracks.sendFlagOctets _ h1).flush.respond _
  · exact (Lane.Tracks.sendFlagOctets _ h1).respond _

theorem Lane.Tracks.l2Send (h : l.Tracks c v) (fcsFn : List Byte → BitVec 16) (fb : Fbuf) :
    (l.l2Send fcsFn c fb).Tracks c v := by
  simp only [Lane.l2Send]
  split
  · split
    · exact h.fxEncap.respond _
    · exact h.fxEncap.warn.sendFrame fcsFn fb
  · exact h.sendFrame fcsFn fb

/-! ## One move -/

theorem Channel.uopDone_lineLevel (c : ChanId) (ch : Channel) : (ch.uopDone c).lineLevel = ch.lineLevel := by
  simp only [Channel.uopDone, Channel.enterPayload, Channel.enterFcsLo, Channel.enterFlags]
  split <;> (repeat' split) <;> rfl

theorem Channel.start_lineLevel (c : ChanId) (ch : Channel) (i : Instr) : (ch.start c i).lineLevel = ch.lineLevel := by
  cases i <;> simp only [Channel.start, Channel.enterStartFlag, Channel.enterFlags] <;> (repeat' split) <;> rfl

theorem Lane.Tracks.nextPos (h : l.Tracks c v) : (l.nextPos c).Tracks c v := by
  simp only [Lane.nextPos]
  split
  · exact h.onChannel _ (Channel.uopDone_lineLevel c)
  · exact h.onChannel _ fun _ => rfl

theorem Lane.Tracks.bitMove (h : l.Tracks c v) (k : UopKind) (x : Byte) : (l.bitMove c k x).Tracks c v := by
  cases k with
  | bit => exact (h.sendBit _).onChannel _ (Channel.uopDone_lineLevel c)
  | ctrl =>
    simp only [Lane.bitMove, Lane.ctrlMove]
    split
    · exact ((h.sendBit _).setRun _).nextPos
    · exact (h.sendBit _).nextPos
  | data =>
    simp only [Lane.bitMove, Lane.dataMove]
    (repeat' split)
    · exact (((h.sendBit _).setRun _).onChannel (fun ch => { ch with stuffPending := false }) fun _ => rfl).nextPos
    · exact (h.sendBit _).onChannel _ fun _ => rfl
    · exact ((h.sendBit _).setRun _).nextPos
    · exact ((h.sendBit _).setRun _).nextPos

theorem Lane.Tracks.request (h : l.Tracks c v) (p : Port) : (l.request p c).Tracks c v := by
  cases p <;> simp only [Lane.request]
  · exact h
  · split
    · exact (h.askByte _).onChannel _ fun _ => rfl
    · exact h
  · split
    · exact h.askFcs.onChannel _ fun _ => rfl
    · exact h
  · split
    · exact h.askFx.onChannel _ fun _ => rfl
    · exact h
  · split
    · exact h.askFlush.onChannel _ fun _ => rfl
    · exact h
  · exact h

theorem Lane.Tracks.byteArrives (h : l.Tracks c v) (fb : Fbuf) : (l.byteArrives c fb).Tracks c v :=
  (h.readByte fb _).onChannel _ fun _ => rfl

theorem Lane.Tracks.fcsArrives (h : l.Tracks c v) (fcsFn : List Byte → BitVec 16) (fb : Fbuf) :
    (l.fcsArrives fcsFn c fb).Tracks c v :=
  (h.latchFcs fcsFn fb).onChannel _ fun ch => by split <;> rfl

theorem Lane.Tracks.fxArrives (h : l.Tracks c v) : (l.fxArrives c).Tracks c v := h.latchFx.onChannel _ fun _ => rfl

theorem Lane.Tracks.serve {l' : Lane} (h : l.Tracks c v) (fcsFn : List Byte → BitVec 16) (p : Port) (fb : Fbuf)
    (hs : l.serve fcsFn p c fb = .ok l') : l'.Tracks c v := by
  cases p <;> simp only [Lane.serve, Except.ok.injEq] at hs
  · split at hs
    · cases hs; exact h
    · split at hs
      · cases hs
      · cases hs; exact h.bitMove _ _
  all_goals
    rw [← hs]
    split
  · exact h.byteArrives fb
  · exact h
  · exact h.fcsArrives fcsFn fb
  · exact h
  · exact h.fxArrives
  · exact h
  · exact h.flushed.onChannel _ fun _ => rfl
  · exact h
  · exact h.warn.onChannel _ fun _ => rfl
  · exact h

/-- A handshake's transfers are the engine's own, and keep its line law (R22, R23). -/
theorem engineMove_tracks {fcsFn : List Byte → BitVec 16} {m : Move} {c : ChanId} {fb : Fbuf} {ch : Channel} {l : Lane}
    (h : engineMove fcsFn m c fb ch = .ok l) : l.Tracks c ch.lineLevel := by
  cases m with
  | request p => cases h; exact (Lane.Tracks.start c ch).request p
  | serve p => exact (Lane.Tracks.start c ch).serve fcsFn p fb h

theorem uopRun_tracks {c : ChanId} {v : Bool} {l : Lane} (h : l.Tracks c v) (k : UopKind) (x : Byte) :
    (uopRun k x c l).Tracks c v := by
  cases k
  · exact h.sendBit _
  · exact h.sendCtrl _
  · exact h.sendData _

theorem uopLane_tracks (c : ChanId) (k : UopKind) (x : Byte) (ch : Channel) :
    (uopLane c k x ch).Tracks c ch.lineLevel :=
  (uopRun_tracks (Lane.Tracks.start c { ch with uop := none }) k x).onChannel _ (Channel.uopDone_lineLevel c)

/-- A command that runs is its engine's whole work, put back into the block; its transfers are the engine's own. -/
theorem exec_command_ready {s : State} {f : CmdFields} {ch : Channel} {i : Instr} (hi : i ∈ commandsOf f)
    (h : s.ready f.chan ch) :
    ∃ l : Lane, exec i s = .next (s.popCmd.putLane f.chan l) ∧ l.Tracks f.chan ch.lineLevel := by
  simp only [commandsOf, List.mem_cons, List.not_mem_nil, or_false] at hi
  have hstart : ∀ op, Lane.Tracks f.chan ch.lineLevel ⟨ch.latch op f, [.cmd f.chan]⟩ := by
    intro op; simp [Lane.Tracks, lastLevel, Event.on]
  rcases hi with rfl | rfl | rfl
  · exact ⟨_, serveCommand_ready opSendFrame _ h, (hstart _).sendFrame _ _⟩
  · exact ⟨_, serveCommand_ready opSendFlags (fun c _ l => l.sendFlags c) h, (hstart _).sendFlags⟩
  · exact ⟨_, serveCommand_ready opL2Send (fun c fb l => l.l2Send Config.fcsFn c fb) h, (hstart _).l2Send _ _⟩

end Sys2Proof.Machine
end

