-- ==== Sys2Proof/Laws/Legal.lean ====
section
/-! SUPPORT. Legal engines and legal blocks: what every move, command and acceptance keeps (10_state R24 to R27; 30_encoding
R64; 40_bit_level R91). -/

namespace Sys2Proof.Machine

/-! ## Words taken and responses sent -/

/-- The transfer takes a word off `CMD`. -/
def Event.isCmd : Event → Bool := fun e => match e with | .cmd _ => true | _ => false
/-- The transfer is a response. -/
def Event.isResp : Event → Bool := fun e => match e with | .resp _ => true | _ => false

@[simp] theorem Event.isCmd_cmd {c} : Event.isCmd (.cmd c) = true := rfl
@[simp] theorem Event.isCmd_resp {r} : Event.isCmd (.resp r) = false := rfl
@[simp] theorem Event.isCmd_txbit {c v} : Event.isCmd (.txbit c v) = false := rfl
@[simp] theorem Event.isCmd_fbufAsk {c a} : Event.isCmd (.fbufAsk c a) = false := rfl
@[simp] theorem Event.isCmd_fbufRead {c a x} : Event.isCmd (.fbufRead c a x) = false := rfl
@[simp] theorem Event.isCmd_fcsqAsk {c a n} : Event.isCmd (.fcsqAsk c a n) = false := rfl
@[simp] theorem Event.isCmd_fcsqAnswer {c f} : Event.isCmd (.fcsqAnswer c f) = false := rfl
@[simp] theorem Event.isCmd_fxqAsk {c a n p} : Event.isCmd (.fxqAsk c a n p) = false := rfl
@[simp] theorem Event.isCmd_fxqAnswer {c r} : Event.isCmd (.fxqAnswer c r) = false := rfl
@[simp] theorem Event.isCmd_flushAsk {c k} : Event.isCmd (.flushAsk c k) = false := rfl
@[simp] theorem Event.isCmd_flushDone {c} : Event.isCmd (.flushDone c) = false := rfl
@[simp] theorem Event.isCmd_warn {c k} : Event.isCmd (.warn c k) = false := rfl
@[simp] theorem Event.isCmd_rst : Event.isCmd .rst = false := rfl
@[simp] theorem Event.isResp_cmd {c} : Event.isResp (.cmd c) = false := rfl
@[simp] theorem Event.isResp_resp {r} : Event.isResp (.resp r) = true := rfl
@[simp] theorem Event.isResp_txbit {c v} : Event.isResp (.txbit c v) = false := rfl
@[simp] theorem Event.isResp_fbufAsk {c a} : Event.isResp (.fbufAsk c a) = false := rfl
@[simp] theorem Event.isResp_fbufRead {c a x} : Event.isResp (.fbufRead c a x) = false := rfl
@[simp] theorem Event.isResp_fcsqAsk {c a n} : Event.isResp (.fcsqAsk c a n) = false := rfl
@[simp] theorem Event.isResp_fcsqAnswer {c f} : Event.isResp (.fcsqAnswer c f) = false := rfl
@[simp] theorem Event.isResp_fxqAsk {c a n p} : Event.isResp (.fxqAsk c a n p) = false := rfl
@[simp] theorem Event.isResp_fxqAnswer {c r} : Event.isResp (.fxqAnswer c r) = false := rfl
@[simp] theorem Event.isResp_flushAsk {c k} : Event.isResp (.flushAsk c k) = false := rfl
@[simp] theorem Event.isResp_flushDone {c} : Event.isResp (.flushDone c) = false := rfl
@[simp] theorem Event.isResp_warn {c k} : Event.isResp (.warn c k) = false := rfl
@[simp] theorem Event.isResp_rst : Event.isResp .rst = false := rfl

/-! ## Legal engines -/

theorem toNat_idx_succ {idx : BitVec 17} {len : BitVec 16} (h : idx.toNat < len.toNat) :
    (idx + 1#17).toNat = idx.toNat + 1 := by
  have := len.isLt
  rw [BitVec.toNat_add]; simp; omega

theorem idx_eq_len {idx : BitVec 17} {len : BitVec 16} : idx = len.setWidth 17 ↔ idx.toNat = len.toNat := by
  have := len.isLt
  rw [← BitVec.toNat_inj]; simp; omega

theorem idx_zero {len : BitVec 16} : 0#17 = len.setWidth 17 ↔ len = 0#16 := by
  rw [idx_eq_len, ← BitVec.toNat_inj]; simp [eq_comm]

/-- Entering PAYLOAD, FCS_WAIT or FCS_LO gives a legal engine. -/
theorem Channel.Inv.enterPayload {c : ChanId} {ch : Channel} (hr : ch.stuffRun.toNat ≤ 4) (hb : ch.busy = true)
    (hi : ch.idx.toNat ≤ ch.len.toNat)
    (ho : ch.op = opSendFrame ∨ ch.op = opL2Send) (hu : ch.uop = none) (hbp : ch.bitpos = 0#3)
    (hsp : ch.stuffPending = false) (ha : ch.asked = false) :
    (ch.enterPayload c).Inv c := by
  simp only [Channel.enterPayload, Channel.enterFcsLo, idx_eq_len]
  split
  · split
    · constructor <;> simp_all [slotLegal, phaseOp, phaseSent, requestsLegal]
    · constructor <;> simp_all [slotLegal, phaseOp, phaseSent, requestsLegal]
  · constructor <;> simp_all [slotLegal, phaseOp, phaseSent, requestsLegal]
    omega

theorem Channel.Inv.enterFlags {c : ChanId} {ch : Channel} (hr : ch.stuffRun.toNat ≤ 4) (hb : ch.busy = true)
    (hi : ch.idx.toNat ≤ ch.len.toNat)
    (ho : ch.op = opSendFlags) (hu : ch.uop = none) (hbp : ch.bitpos = 0#3) (hsp : ch.stuffPending = false)
    (ha : ch.asked = false) (hf : ch.fcsAsk = .no) : (ch.enterFlags c).Inv c := by
  simp only [Channel.enterFlags, idx_eq_len]
  split
  · split
    · constructor <;> simp_all [slotLegal, phaseOp, phaseSent, requestsLegal]
    · constructor <;> simp_all [slotLegal, phaseOp, phaseSent, requestsLegal]
  · constructor <;> simp_all [slotLegal, phaseOp, phaseSent, requestsLegal]
    omega

theorem Channel.Inv.enterStartFlag {c : ChanId} {ch : Channel} (hr : ch.stuffRun.toNat ≤ 4) (hb : ch.busy = true)
    (hi : ch.idx = 0#17)
    (ho : ch.op = opSendFrame ∨ ch.op = opL2Send) (hbp : ch.bitpos = 0#3) (hsp : ch.stuffPending = false)
    (ha : ch.asked = false) : (ch.enterStartFlag c).Inv c := by
  simp only [Channel.enterStartFlag]
  constructor <;> simp_all [slotLegal, phaseOp, phaseSent, requestsLegal]

/-- The engine after its bit datapath has moved inside a word: only the encoding state and the position change (R80). -/
def Channel.atBit (n : BitVec 32) (v : Bool) (r : BitVec 3) (p : BitVec 3) (sp : Bool) (ch : Channel) : Channel :=
  { ch with bitsSent := n, lineLevel := v, stuffRun := r, bitpos := p, stuffPending := sp }

/-- What a handshake keeps: the engine stays legal and as busy as it was, its phase stays or advances as its command fixes
it, and no word is taken and no response sent. -/
def Lane.Lawful (c : ChanId) (ch : Channel) (l : Lane) : Prop :=
  l.ch.Inv c ∧ (l.ch.phase = ch.phase ∨ l.ch.phase ∈ ch.successors c) ∧ l.ch.busy = ch.busy ∧
    l.out.countP Event.isCmd = 0 ∧ l.out.countP Event.isResp = 0

theorem Channel.enterPayload_phase (c : ChanId) (ch : Channel) :
    (ch.enterPayload c).phase = if ch.idx.toNat = ch.len.toNat then ch.afterPayload else .payload := by
  simp only [Channel.enterPayload, Channel.enterFcsLo, Channel.afterPayload, idx_eq_len]
  (repeat' split) <;> rfl

theorem Channel.enterFlags_phase (c : ChanId) (ch : Channel) :
    (ch.enterFlags c).phase =
      if ch.idx.toNat = ch.len.toNat then (if ch.fin then .flushWait else .resp) else .flags := by
  simp only [Channel.enterFlags, idx_eq_len]
  (repeat' split) <;> rfl

theorem Channel.enterPayload_busy (c : ChanId) (ch : Channel) : (ch.enterPayload c).busy = ch.busy := by
  simp only [Channel.enterPayload, Channel.enterFcsLo]; (repeat' split) <;> rfl

theorem Channel.enterFlags_busy (c : ChanId) (ch : Channel) : (ch.enterFlags c).busy = ch.busy := by
  simp only [Channel.enterFlags]; (repeat' split) <;> rfl

/-- The sequencer moves on from a finished word to a legal engine, in order. The slot may be empty already. -/
theorem Channel.Inv.uopDone {c : ChanId} {ch : Channel} (h : ch.Inv c) (hu : ch.uop ≠ none) (n v r p)
    (u : Option UopWord) (hr : r.toNat ≤ 4) :
    (Channel.uopDone c { ch.atBit n v r p false with uop := u }).Inv c ∧
    ((Channel.uopDone c { ch.atBit n v r p false with uop := u }).phase = ch.phase ∨
      (Channel.uopDone c { ch.atBit n v r p false with uop := u }).phase ∈ ch.successors c) ∧
    (Channel.uopDone c { ch.atBit n v r p false with uop := u }).busy = ch.busy := by
  obtain ⟨h1, h2, h3, h4, h5, h6, h7, h8, h9, h10⟩ := h
  simp only [slotLegal, phaseOp, phaseSent, requestsLegal] at h4 h5 h6 h7
  simp only [Channel.uopDone, Channel.atBit, Channel.successors]
  cases hph : ch.phase <;> simp only [hph] at h4 h5 h6 h7 h2 ⊢
  case idle => exact absurd h5 hu
  case fcsWait => exact absurd h5 hu
  case flushWait => exact absurd h5 hu
  case fxWait => exact absurd h5 hu
  case warn => exact absurd h5 hu
  case resp => exact absurd h5 hu
  case startFlag =>
    refine ⟨Channel.Inv.enterPayload hr (by simpa using h2) h3 h6 rfl rfl rfl h7, .inr ?_, ?_⟩
    · rw [Channel.enterPayload_phase]
      simp only [h4, BitVec.toNat_zero, Channel.afterPayload, ← BitVec.toNat_inj, eq_comm (a := 0)]
      simp
    · rw [Channel.enterPayload_busy]
  case payload =>
    have := toNat_idx_succ h4
    have ha : ch.asked = false := by cases hx : ch.asked <;> simp_all
    refine ⟨Channel.Inv.enterPayload hr (by simpa using h2) (by dsimp only; omega) h6 rfl rfl rfl ha, ?_, ?_⟩
    · rw [Channel.enterPayload_phase]
      dsimp only
      rw [this]
      split
      · right; simp [Channel.afterPayload]
      · left; rfl
    · rw [Channel.enterPayload_busy]
  case flags =>
    have := toNat_idx_succ h4
    refine ⟨Channel.Inv.enterFlags hr (by simpa using h2) (by dsimp only; omega) h6 rfl rfl rfl h7.1 h7.2, ?_, ?_⟩
    · rw [Channel.enterFlags_phase]
      dsimp only
      rw [this]
      split
      · right; simp
      · left; rfl
    · rw [Channel.enterFlags_busy]
  case fcsLo =>
    refine ⟨?_, by simp, by simp⟩
    constructor <;> simp_all [slotLegal, phaseOp, phaseSent, requestsLegal]
  case fcsHi =>
    refine ⟨?_, by simp, by simp⟩
    constructor <;> simp_all [slotLegal, phaseOp, phaseSent, requestsLegal]
  case endFlag =>
    refine ⟨?_, by simp, by simp⟩
    constructor <;> simp_all [slotLegal, phaseOp, phaseSent, requestsLegal]
    rcases h6 with h6 | h6 <;> simp [h6]

/-- The bit datapath moves inside a word. -/
theorem Channel.Inv.atBit {c : ChanId} {ch : Channel} (h : ch.Inv c) (hu : ch.uop ≠ none) (n v r p sp) (hr : r.toNat ≤ 4)
    (hs : sp = true → ∃ x, ch.uop = some (uopDataWord c x)) : (ch.atBit n v r p sp).Inv c := by
  obtain ⟨h1, h2, h3, h4, h5, h6, h7, h8, h9, h10⟩ := h
  exact ⟨hr, h2, h3, h4, h5, h6, h7, fun hn => absurd hn hu, hs, h10⟩

theorem Lane.nextPos_lawful {c : ChanId} {ch : Channel} (h : ch.Inv c) (hu : ch.uop ≠ none) (n v r p) (hr : r.toNat ≤ 4)
    (out : List Event) (hout : out.countP Event.isCmd = 0 ∧ out.countP Event.isResp = 0) :
    Lane.Lawful c ch (Lane.nextPos c ⟨ch.atBit n v r p false, out⟩) := by
  simp only [Lane.nextPos, Lane.onChannel]
  split
  · obtain ⟨a, b, d⟩ := Channel.Inv.uopDone h hu n v r p ch.uop hr
    exact ⟨a, b, d, hout⟩
  · exact ⟨Channel.Inv.atBit h hu n v r (p + 1#3) false hr (by simp), .inl rfl, rfl, hout⟩

/-- What a legal engine has in its slot (R64). -/
theorem Channel.Inv.slot_cases {c : ChanId} {ch : Channel} (h : ch.Inv c) : ch.uop = none ∨
    ch.uop = some (uopCtrlWord c Config.flag) ∨ ∃ x, ch.uop = some (uopDataWord c x) := by
  have h5 := h.slot
  simp only [slotLegal] at h5
  cases hph : ch.phase <;> simp only [hph] at h5 <;> try simp [h5]
  rcases h5 with h5 | ⟨x, h5⟩ <;> simp [h5]

theorem Channel.Inv.not_pending_of_ctrl {c : ChanId} {ch : Channel} {x : Byte} (h : ch.Inv c)
    (hu : ch.uop = some (uopCtrlWord c x)) : ch.stuffPending = false := by
  cases hs : ch.stuffPending
  · rfl
  · obtain ⟨y, hy⟩ := h.pending hs
    rw [hu] at hy; exact absurd (by simpa using hy) (uopCtrlWord_ne_uopDataWord c x y)

theorem Lane.ctrlMove_lawful {c : ChanId} {ch : Channel} {x : Byte} (h : ch.Inv c)
    (hu : ch.uop = some (uopCtrlWord c x)) : Lane.Lawful c ch (Lane.ctrlMove c x ⟨ch, []⟩) := by
  have hs := h.not_pending_of_ctrl hu
  have key := fun r hr => Lane.nextPos_lawful h (by simp [hu]) (ch.bitsSent + 1#32)
    (if x.getLsbD ch.bitpos.toNat then ch.lineLevel else !ch.lineLevel) r ch.bitpos hr
    [.txbit c (if x.getLsbD ch.bitpos.toNat then ch.lineLevel else !ch.lineLevel)] (by simp)
  simp only [Channel.atBit, ← hs] at key
  simp only [Lane.ctrlMove]
  split
  · exact key 0#3 (by simp)
  · exact key ch.stuffRun h.run

theorem Lane.dataMove_lawful {c : ChanId} {ch : Channel} {x : Byte} (h : ch.Inv c)
    (hu : ch.uop = some (uopDataWord c x)) : Lane.Lawful c ch (Lane.dataMove c x ⟨ch, []⟩) := by
  have hrun := h.run
  have key := fun (b : Bool) r (hr : BitVec.toNat r ≤ 4) => Lane.nextPos_lawful h (by simp [hu]) (ch.bitsSent + 1#32)
    (if b then ch.lineLevel else !ch.lineLevel) r ch.bitpos hr [.txbit c (if b then ch.lineLevel else !ch.lineLevel)]
    (by simp)
  simp only [Channel.atBit] at key
  simp only [Lane.dataMove]
  split
  · exact key false 0#3 (by simp)
  · rename_i hs
    simp only [Bool.not_eq_true] at hs
    rw [← hs] at key
    simp only [runAtLimit_iff _ hrun]
    split
    · rename_i hb
      rw [hb]
      split
      · exact ⟨Channel.Inv.atBit h (by simp [hu]) _ _ _ ch.bitpos true hrun fun _ => ⟨x, hu⟩, .inl rfl, rfl,
          by simp [Lane.onChannel, Lane.sendBit, Lane.emit],
          by simp [Lane.onChannel, Lane.sendBit, Lane.emit]⟩
      · rename_i h5
        simp only [decide_eq_true_eq] at h5
        exact key true (ch.stuffRun + 1#3) (by rw [BitVec.toNat_add]; simp; omega)
    · rename_i hb
      simp only [Bool.not_eq_true] at hb
      rw [hb]
      exact key false 0#3 (by simp)

theorem Lane.Lawful.refl {c : ChanId} {ch : Channel} (h : ch.Inv c) : Lane.Lawful c ch ⟨ch, []⟩ :=
  ⟨h, .inl rfl, rfl, rfl, rfl⟩

/-- A request is lawful. -/
theorem Lane.request_lawful {c : ChanId} {ch : Channel} (h : ch.Inv c) (p : Port) :
    Lane.Lawful c ch (Lane.request p c ⟨ch, []⟩) := by
  have h0 := Lane.Lawful.refl h
  obtain ⟨h1, h2, h3, h4, h5, h6, h7, h8, h9, h10⟩ := h
  cases p <;> simp only [Lane.request]
  · exact h0
  · split
    · rename_i hg
      simp only [Bool.and_eq_true, decide_eq_true_eq, Option.isNone_iff_eq_none, Bool.not_eq_true'] at hg
      obtain ⟨⟨hp, hu⟩, ha⟩ := hg
      refine ⟨?_, .inl rfl, rfl, rfl, rfl⟩
      constructor <;> simp_all [Lane.onChannel, Lane.askByte, Lane.emit, slotLegal, phaseOp, phaseSent, requestsLegal]
    · exact h0
  · split
    · rename_i hg
      simp only [Channel.mayAskFcs, Bool.and_eq_true, decide_eq_true_eq, Bool.or_eq_true] at hg
      obtain ⟨hf, hp⟩ := hg
      refine ⟨?_, .inl rfl, rfl, rfl, rfl⟩
      rcases hp with (hp | hp) | hp <;>
        constructor <;> simp_all [Lane.onChannel, Lane.askFcs, Lane.emit, slotLegal, phaseOp, phaseSent, requestsLegal]
    · exact h0
  · split
    · rename_i hg
      simp only [Bool.and_eq_true, decide_eq_true_eq, Bool.not_eq_true'] at hg
      obtain ⟨hp, ha⟩ := hg
      refine ⟨?_, .inl rfl, rfl, rfl, rfl⟩
      constructor <;> simp_all [Lane.onChannel, Lane.askFx, Lane.emit, slotLegal, phaseOp, phaseSent, requestsLegal]
    · exact h0
  · split
    · rename_i hg
      simp only [Bool.and_eq_true, decide_eq_true_eq, Bool.not_eq_true'] at hg
      obtain ⟨hp, ha⟩ := hg
      refine ⟨?_, .inl rfl, rfl, rfl, rfl⟩
      constructor <;> simp_all [Lane.onChannel, Lane.askFlush, Lane.emit, slotLegal, phaseOp, phaseSent, requestsLegal]
    · exact h0
  · exact h0

theorem Lane.byteArrives_lawful {c : ChanId} {ch : Channel} {fb : Fbuf} (h : ch.Inv c) (hp : ch.phase = .payload)
    (ha : ch.asked = true) : Lane.Lawful c ch (Lane.byteArrives c fb ⟨ch, []⟩) := by
  obtain ⟨h1, h2, h3, h4, h5, h6, h7, h8, h9, h10⟩ := h
  simp only [Lane.byteArrives, Lane.readByte, Lane.look_eq, Lane.onChannel, Lane.emit]
  refine ⟨?_, .inl rfl, rfl, rfl, rfl⟩
  constructor <;> simp_all [slotLegal, phaseOp, phaseSent, requestsLegal]

theorem Lane.fcsArrives_lawful {fcsFn} {c : ChanId} {ch : Channel} {fb : Fbuf} (h : ch.Inv c)
    (ha : ch.fcsAsk = .asked) : Lane.Lawful c ch (Lane.fcsArrives fcsFn c fb ⟨ch, []⟩) := by
  obtain ⟨h1, h2, h3, h4, h5, h6, h7, h8, h9, h10⟩ := h
  simp only [Lane.fcsArrives, Lane.latchFcs, Lane.lookRegion_lane, Lane.onChannel, Lane.emit]
  generalize fcsFn _ = f
  simp only [slotLegal, phaseOp, phaseSent, requestsLegal] at h4 h5 h6 h7
  cases hp : ch.phase <;> simp only [hp] at h4 h5 h6 h7 h2 ⊢ <;> try simp only [ha] at h7
  case startFlag =>
    refine ⟨?_, .inl hp.symm, rfl, rfl, rfl⟩
    constructor <;> simp_all [slotLegal, phaseOp, phaseSent, requestsLegal]
  case payload =>
    refine ⟨?_, .inl hp.symm, rfl, rfl, rfl⟩
    constructor <;> simp_all [slotLegal, phaseOp, phaseSent, requestsLegal]
  case fcsWait =>
    refine ⟨?_, .inr (by simp [Channel.successors, hp, Channel.enterFcsLo]), rfl, rfl, rfl⟩
    simp only [if_true, Channel.enterFcsLo]
    constructor <;> simp_all [slotLegal, phaseOp, phaseSent, requestsLegal]
  case resp => exact absurd rfl h7.2
  all_goals simp at h7

theorem fxSuccess_iff (r : Count) : fxSuccess r = true ↔ 0 < r.toInt := by
  simp [fxSuccess, BitVec.slt]

theorem Lane.fxArrives_lawful {c : ChanId} {ch : Channel} (h : ch.Inv c) (hp : ch.phase = .fxWait) :
    Lane.Lawful c ch (Lane.fxArrives c ⟨ch, []⟩) := by
  obtain ⟨h1, h2, h3, h4, h5, h6, h7, h8, h9, h10⟩ := h
  simp only [Lane.fxArrives, Lane.latchFx_eq, Lane.onChannel]
  rw [Channel.fxAnswered_eq]
  simp only [Channel.fxAnswered_fxres]
  refine ⟨?_, .inr (by simp [Channel.successors, hp, fxSuccess_iff]), rfl, rfl, rfl⟩
  cases hfx : fxSuccess (ch.fxAnswer c)
  · constructor <;> simp_all [slotLegal, phaseOp, phaseSent, requestsLegal]
  · constructor <;> simp_all [slotLegal, phaseOp, phaseSent, requestsLegal]

/-- A legal engine always makes or declines a handshake, lawfully. -/
theorem engineMove_lawful {fcsFn fb} {c : ChanId} {ch : Channel} (h : ch.Inv c) (m : Move) :
    ∃ l, engineMove fcsFn m c fb ch = .ok l ∧ Lane.Lawful c ch l := by
  have h0 := Lane.Lawful.refl h
  rcases m with p | p
  · exact ⟨_, rfl, Lane.request_lawful h p⟩
  cases p <;> simp only [engineMove, Lane.serve]
  case txbit =>
    rcases Channel.Inv.slot_cases h with hu | hu | ⟨x, hu⟩
    · exact ⟨_, by simp only [hu], h0⟩
    · exact ⟨_, by simp only [hu, slotWord_ctrl]; rfl, Lane.ctrlMove_lawful h hu⟩
    · exact ⟨_, by simp only [hu, slotWord_data]; rfl, Lane.dataMove_lawful h hu⟩
  all_goals refine ⟨_, rfl, ?_⟩; split
  · rename_i hg
    simp only [Bool.and_eq_true, decide_eq_true_eq] at hg
    exact Lane.byteArrives_lawful h hg.1 hg.2
  · exact h0
  · rename_i hg; exact Lane.fcsArrives_lawful h hg
  · exact h0
  · rename_i hg
    simp only [Bool.and_eq_true, decide_eq_true_eq] at hg
    exact Lane.fxArrives_lawful h hg.1
  · exact h0
  · rename_i hg
    simp only [Bool.and_eq_true, decide_eq_true_eq] at hg
    obtain ⟨hp, ha⟩ := hg
    obtain ⟨h1, h2, h3, h4, h5, h6, h7, h8, h9, h10⟩ := h
    refine ⟨?_, .inr (by simp [Channel.successors, hp, Lane.onChannel]), rfl, rfl, rfl⟩
    constructor <;> simp_all [Lane.onChannel, Lane.flushed, Lane.emit, slotLegal, phaseOp, phaseSent, requestsLegal]
  · exact h0
  · rename_i hp
    obtain ⟨h1, h2, h3, h4, h5, h6, h7, h8, h9, h10⟩ := h
    simp only [slotLegal, phaseOp, phaseSent, requestsLegal, hp] at h2 h4 h5 h6 h7
    exact ⟨Channel.Inv.enterStartFlag h1 (show ch.busy = true by simpa using h2) h4 (.inr h6.1) (h8 h5).1 (h8 h5).2 h7.1,
      .inr (by simp [Channel.successors, hp, Lane.onChannel, Channel.enterStartFlag]), rfl, rfl, rfl⟩
  · exact h0

/-- The host takes a response: the engine is legal and idle. -/
theorem Lane.respond_inv {c : ChanId} {ch : Channel} (n : Count) (h : ch.Inv c) (hp : ch.phase = .resp) :
    (Lane.respond c n ⟨ch, []⟩).ch.Inv c := by
  obtain ⟨h1, h2, h3, h4, h5, h6, h7, h8, h9, h10⟩ := h
  constructor <;> simp_all [Lane.respond, Lane.emit, slotLegal, phaseOp, phaseSent, requestsLegal]

theorem countP_txTransfers (p : Event → Bool) (hp : ∀ c v, p (.txbit c v) = false) (c v bs) :
    (txTransfers c v bs).countP p = 0 := by
  rw [List.countP_eq_zero]
  intro e he
  simp only [txTransfers, List.mem_map] at he
  obtain ⟨w, -, rfl⟩ := he
  simp [hp]

theorem countP_payloadTransfers (p : Event → Bool) (hp : ∀ c v, p (.txbit c v) = false)
    (ha : ∀ c a, p (.fbufAsk c a) = false) (hr : ∀ c a x, p (.fbufRead c a x) = false) (c cells) : ∀ v r,
        (payloadTransfers c cells v r).countP p = 0 := by
  induction cells with
  | nil => intro v r; rfl
  | cons cell cells ih => obtain ⟨a, x⟩ := cell; intro v r; simp [payloadTransfers, ha, hr, ih, countP_txTransfers p hp]

theorem countP_frameTransfers (p : Event → Bool) (hp : ∀ c v, p (.txbit c v) = false)
    (ha : ∀ c a, p (.fbufAsk c a) = false) (hr : ∀ c a x, p (.fbufRead c a x) = false)
    (hq : ∀ c a b, p (.fcsqAsk c a b) = false) (hx : ∀ c x, p (.fcsqAnswer c x) = false) (c m base len bf f v) :
    (frameTransfers c m base len bf f v).countP p = 0 := by
  simp [frameTransfers, countP_txTransfers p hp, countP_payloadTransfers p hp ha hr, hq, hx]

@[simp] theorem countP_txTransfers_isCmd (c v bs) :
    (txTransfers c v bs).countP Event.isCmd = 0 := countP_txTransfers _ (fun _ _ => rfl) _ _ _

@[simp] theorem countP_txTransfers_isResp (c v bs) :
    (txTransfers c v bs).countP Event.isResp = 0 := countP_txTransfers _ (fun _ _ => rfl) _ _ _

@[simp] theorem countP_frameTransfers_isCmd (c m base len bf f v) :
    (frameTransfers c m base len bf f v).countP Event.isCmd = 0 := countP_frameTransfers _ (fun _ _ => rfl)
    (fun _ _ => rfl) (fun _ _ _ => rfl) (fun _ _ _ => rfl) (fun _ _ => rfl) _ _ _ _ _ _ _

@[simp] theorem countP_frameTransfers_isResp (c m base len bf f v) :
    (frameTransfers c m base len bf f v).countP Event.isResp = 0 := countP_frameTransfers _ (fun _ _ => rfl)
    (fun _ _ => rfl) (fun _ _ _ => rfl) (fun _ _ _ => rfl) (fun _ _ => rfl) _ _ _ _ _ _ _

theorem Channel.afterFrame_inv {c : ChanId} {ch : Channel} (p f) (hu : ch.uop = none) (hb : ch.bitpos = 0#3)
    (hs : ch.stuffPending = false) : (ch.afterFrame p f).Inv c := by
  have := ch.len.isLt
  constructor <;> simp [Channel.afterFrame, slotLegal, phaseOp, phaseSent, requestsLegal, hu, hb, hs]
  omega

theorem Channel.afterFlags_inv {c : ChanId} {ch : Channel} (n) (hr : ch.stuffRun.toNat ≤ 4) (hu : ch.uop = none)
    (hb : ch.bitpos = 0#3) (hs : ch.stuffPending = false) : (ch.afterFlags n).Inv c := by
  constructor <;> simp [Channel.afterFlags, slotLegal, phaseOp, phaseSent, requestsLegal, hu, hb, hs]
  · split <;> simp [hr]
  · exact Nat.mod_le _ _

/-- A command that runs leaves its engine legal and idle, with one word taken and one response sent. -/
theorem exec_command_lawful {s : State} {f : CmdFields} {ch : Channel} {i : Instr} (hi : i ∈ commandsOf f)
    (h : s.ready f.chan ch) (hc : ch.Inv f.chan) :
    ∃ l : Lane, exec i s = .next (s.popCmd.putLane f.chan l) ∧ l.ch.Inv f.chan ∧ l.ch.busy = false ∧ l.ch.phase =
    .idle ∧ l.out.countP Event.isCmd = 1 ∧ l.out.countP Event.isResp = 1 := by
  simp only [commandsOf, List.mem_cons, List.not_mem_nil, or_false] at hi
  rcases hi with rfl | rfl | rfl
  · refine ⟨_, serveCommand_ready opSendFrame _ h, ?_⟩
    rw [Lane.sendFrame_eq _ _ _ _ rfl rfl]
    refine ⟨Channel.afterFrame_inv _ _ rfl rfl rfl, rfl, rfl, ?_, ?_⟩
    · simp [List.countP_cons]
    · simp [List.countP_cons]
  · refine ⟨_, serveCommand_ready opSendFlags (fun c _ l => l.sendFlags c) h, ?_⟩
    rw [Lane.sendFlags_eq _ _ rfl]
    refine ⟨Channel.afterFlags_inv _ hc.run rfl rfl rfl, rfl, rfl, ?_, ?_⟩
    · show List.countP _ (_ :: ((if f.fin then _ else _) ++ _ ++ _)) = _; cases f.fin <;> simp [List.countP_cons]
    · show List.countP _ (_ :: ((if f.fin then _ else _) ++ _ ++ _)) = _; cases f.fin <;> simp [List.countP_cons]
  · refine ⟨_, serveCommand_ready opL2Send (fun c fb l => l.l2Send Config.fcsFn c fb) h, ?_⟩
    simp only [Lane.l2Send]
    split
    · have he := Channel.fxAnswered_eq f.chan (ch.latch opL2Send f)
      rw [Lane.fxEncap_eq]
      split
      · refine ⟨?_, rfl, rfl, ?_, ?_⟩
        · rw [he]
          have := hc.run
          constructor <;> simp [Lane.respond, Lane.emit, slotLegal, phaseOp, phaseSent, requestsLegal, this]
        · simp [Lane.respond, Lane.emit, List.countP_cons]
        · simp [Lane.respond, Lane.emit, List.countP_cons]
      · rw [Lane.sendFrame_eq]
        · refine ⟨Channel.afterFrame_inv _ _ ?_ ?_ ?_, rfl, rfl, ?_, ?_⟩
          · simp only [Lane.warn, Lane.emit]; rw [he]; rfl
          · simp only [Lane.warn, Lane.emit]; rw [he]; rfl
          · simp only [Lane.warn, Lane.emit]; rw [he]; rfl
          · simp [Lane.warn, Lane.emit, List.countP_cons]
          · simp [Lane.warn, Lane.emit, List.countP_cons]
        · rfl
        · simp only [Lane.warn, Lane.emit]; rw [he]; rfl
    · rw [Lane.sendFrame_eq _ _ _ _ rfl rfl]
      refine ⟨Channel.afterFrame_inv _ _ rfl rfl rfl, rfl, rfl, ?_, ?_⟩
      · simp [List.countP_cons]
      · simp [List.countP_cons]

/-- A micro-operation that runs whole is lawful. -/
theorem uopLane_lawful {c : ChanId} {ch : Channel} {w k x} (h : ch.Inv c) (hw : ch.uop = some w)
    (hs : slotWord c w = .ok (k, x)) (_hb : ch.bitpos = 0#3) (hp : ch.stuffPending = false) :
    Lane.Lawful c ch (uopLane c k x ch) := by
  have hrun := h.run
  rcases Channel.Inv.slot_cases h with hu | hu | ⟨y, hu⟩
  · simp [hw] at hu
  · rw [hw] at hu; cases hu
    rw [slotWord_ctrl] at hs; cases hs
    simp only [uopLane, uopRun, Lane.sendCtrl_eq, Lane.onChannel]
    obtain ⟨a, b, d⟩ := Channel.Inv.uopDone h (by simp [hw]) (ch.lined (byteBits Config.flag)).bitsSent
      (ch.lined (byteBits Config.flag)).lineLevel 0#3 ch.bitpos none (by simp)
    simp only [Channel.atBit, ← hp] at a b d
    exact ⟨a, b, d, by simp, by simp⟩
  · rw [hw] at hu; cases hu
    rw [slotWord_data] at hs; cases hs
    simp only [uopLane, uopRun, Lane.onChannel]
    rw [Lane.sendData_eq _ _ _ hrun]
    obtain ⟨a, b, d⟩ := Channel.Inv.uopDone h (by simp [hw]) (ch.dataSent (byteBits x)).bitsSent
      (ch.dataSent (byteBits x)).lineLevel (ch.dataSent (byteBits x)).stuffRun ch.bitpos none
      (by rw [Channel.dataSent_run _ _ hrun]; exact runAfter_le _ _ hrun)
    simp only [Channel.atBit, ← hp] at a b d
    exact ⟨a, b, d, by simp, by simp⟩

/-- An accepted command starts a legal, busy engine, in its first phase. -/
theorem Channel.Inv.start {c : ChanId} {ch : Channel} {f : CmdFields} {i : Instr} (hi : i ∈ commandsOf f)
    (h : ch.Inv c) :
    (ch.start c i).Inv c ∧ (ch.start c i).busy = true ∧ (ch.start c i).phase = (ch.start c i).firstPhase := by
  simp only [commandsOf, List.mem_cons, List.not_mem_nil, or_false] at hi
  have hrun := h.run
  rcases hi with rfl | rfl | rfl
  · exact ⟨Channel.Inv.enterStartFlag hrun rfl rfl (.inl rfl) rfl rfl rfl, rfl, rfl⟩
  · refine ⟨Channel.Inv.enterFlags hrun rfl (by simp) rfl rfl rfl rfl rfl rfl, ?_, ?_⟩
    · simp only [Channel.start]; rw [Channel.enterFlags_busy]; rfl
    · have he : ∀ ch : Channel, (ch.enterFlags c).op = ch.op ∧ (ch.enterFlags c).len = ch.len ∧
          (ch.enterFlags c).fin = ch.fin := by
        intro ch; simp only [Channel.enterFlags]; (repeat' split) <;> exact ⟨rfl, rfl, rfl⟩
      simp only [Channel.start, Channel.firstPhase, Channel.enterFlags_phase, he, Channel.latch_idx, Channel.latch_len,
        Channel.latch_op, Channel.latch_fin, BitVec.toNat_zero, opSendFlags, if_true]
      by_cases h0 : f.len = 0#16
      · simp [h0]
      · have : ¬ 0 = f.len.toNat := fun e => h0 (BitVec.eq_of_toNat_eq e.symm)
        simp [h0, this]
  · simp only [Channel.start]
    split
    · rename_i hf
      refine ⟨?_, rfl, ?_⟩
      · constructor <;> simp [slotLegal, phaseOp, phaseSent, requestsLegal, hrun, hf]
      · have : f.fxp ≠ 0#8 := by simpa [fxEnabled] using hf
        simp [Channel.firstPhase, opL2Send, this]
    · rename_i hf
      have : f.fxp = 0#8 := by simpa [fxEnabled] using hf
      exact ⟨Channel.Inv.enterStartFlag hrun rfl rfl (.inr rfl) rfl rfl rfl, rfl,
        by simp [Channel.firstPhase, Channel.enterStartFlag, opL2Send, this]⟩

theorem State.Inv.channel {s : State} (h : s.Inv) {c : ChanId} {ch} (hc : s.channel? c = some ch) : ch.Inv c := by
  have := h.channels c.toNat ch hc
  simpa using this

/-- Putting a legal engine back leaves the block legal. -/
theorem State.Inv.putLane {s : State} {c : ChanId} {ch : Channel} {l : Lane} (h : s.Inv) (_hc : s.channel? c = some ch)
    (hl : l.ch.Inv c) (hr : s.rst = true → l.ch.phase = .idle) : (s.putLane c l).Inv := by
  refine ⟨by simpa using h.count, ?_, h.mem, ?_⟩
  · intro i dh hd
    simp only [State.putLane_channels] at hd
    rw [List.getElem?_set] at hd
    split at hd
    · rename_i hci
      split at hd
      · simp at hd; subst hd; rw [← hci]; simpa using hl
      · simp at hd
    · exact h.channels i dh hd
  · intro hrst dh hd
    simp only [State.putLane_channels] at hd
    rcases List.mem_or_eq_of_mem_set hd with hd | rfl
    · exact h.rst hrst dh hd
    · exact hr hrst

theorem Lane.Lawful.stays_idle {c} {ch : Channel} {l} (hf : Lane.Lawful c ch l) (h : ch.phase = .idle) :
    l.ch.phase = .idle := by
  rcases hf.2.1 with hp | hp
  · exact hp.trans h
  · simp [Channel.successors, h] at hp

/-- What is not an engine, the buffer or `RST` does not matter for legality. -/
theorem State.Inv.of_eq {s t : State} (h : s.Inv) (hc : t.channels = s.channels) (hm : t.mem = s.mem)
    (hr : t.rst = s.rst ∨ t.rst = false) : t.Inv := by
  refine ⟨by rw [hc]; exact h.count, by rw [hc]; exact h.channels, by rw [hm]; exact h.mem, ?_⟩
  rw [hc]
  rcases hr with hr | hr
  · rw [hr]; exact h.rst
  · simp [hr]

theorem Channel.Inv.sawWrite {c} {ch : Channel} (a) (h : ch.Inv c) : (ch.sawWrite a).Inv c := by
  simp only [Channel.sawWrite]
  split
  · rename_i hb
    obtain ⟨h1, h2, h3, h4, h5, h6, h7, h8, h9, h10⟩ := h
    refine ⟨h1, h2, h3, h4, h5, h6, h7, h8, h9, fun hp => ?_⟩
    have := h2.1 (by simp_all)
    exact absurd hp this
  · exact h

theorem wordsTaken_eq (s : State) : s.wordsTaken = s.trace.countP Event.isCmd := rfl

theorem responsesSent_eq (s : State) : s.responsesSent = s.trace.countP Event.isResp := rfl

/-- Responses owed change with the engine's `busy`. -/
theorem responsesOwed_putLane {s : State} {c : ChanId} {ch : Channel} (l : Lane) (hc : s.channel? c = some ch) :
    (s.putLane c l).responsesOwed + ch.busy.toNat = s.responsesOwed + l.ch.busy.toNat := by
  simp only [State.responsesOwed, State.putLane_rejections, State.putLane_channels]
  have hlt : c.toNat < s.channels.length := (List.getElem?_eq_some_iff.1 hc).1
  have he : s.channels[c.toNat] = ch := (List.getElem?_eq_some_iff.1 hc).2
  have h1 := List.countP_set (p := Channel.busy) (l := s.channels) (i := c.toNat) (a := l.ch) hlt
  have h1 : (s.channels.set c.toNat l.ch).countP (fun x => x.busy) =
      s.channels.countP (fun x => x.busy) - (if s.channels[c.toNat].busy then 1 else 0) + (if l.ch.busy then 1 else 0) := h1
  have hpos : ch.busy = true → 0 < s.channels.countP (fun x => x.busy) := by
    intro hb; exact List.countP_pos_iff.2 ⟨ch, List.mem_of_getElem? hc, hb⟩
  rw [h1, he]
  clear h1
  generalize s.channels.countP (fun x => x.busy) = n at *
  cases hb : ch.busy <;> cases hb' : l.ch.busy <;> simp_all <;> omega

end Sys2Proof.Machine
end

