-- ==== Sys2Proof/Laws/Memory.lean ====
section
/-! SUPPORT. The frame buffer: read after write, and the canonical form is kept (20_memory R40). -/

namespace Sys2Proof.Machine

/-- Reading after a write gives the written byte at its address, and what was there before at every other. -/
theorem Memory.get?_set (lo : Nat) (m : Memory) (a b : Nat) (v : Byte) (h : m.risesFrom lo = true) :
    (m.set a v).get? b = if a = b then some v else m.get? b := by
  induction m generalizing lo with
  | nil => simp [Memory.set, Memory.get?]
  | cons e m ih =>
    obtain ⟨x, w⟩ := e
    simp only [Memory.risesFrom, Bool.and_eq_true, decide_eq_true_eq] at h
    simp only [Memory.set]
    split
    · simp [Memory.get?]
    · split
      · next hx => subst hx; by_cases hb : a = b <;> simp [Memory.get?, hb]
      · next hx =>
        simp only [Memory.get?, ih _ h.2]
        by_cases hb : x = b
        · subst hb; simp [hx]
        · simp [hb]

theorem Memory.risesFrom_set (lo : Nat) (m : Memory) (a : Nat) (v : Byte) (h : m.risesFrom lo = true) (hlo : lo ≤ a)
    (ha : a < 65536) : (m.set a v).risesFrom lo = true := by
  induction m generalizing lo with
  | nil => simp [Memory.set, Memory.risesFrom, hlo, ha]
  | cons e m ih =>
    obtain ⟨x, w⟩ := e
    simp only [Memory.risesFrom, Bool.and_eq_true, decide_eq_true_eq] at h
    simp only [Memory.set]
    split
    · next hx => simp [Memory.risesFrom, h, hlo, ha, show a + 1 ≤ x by omega]
    · split
      · next hx => subst hx; simp [Memory.risesFrom, h]
      · next h1 h2 => simp [Memory.risesFrom, h, ih (x + 1) h.2 (by omega)]

/-- A host write keeps the canonical form. -/
theorem Memory.wf_set (m : Memory) (a : Addr) (v : Byte) (h : m.wf = true) : (m.set a.toNat v).wf = true :=
  Memory.risesFrom_set 0 m a.toNat v h (Nat.zero_le _) a.isLt

/-- A host write changes the byte at its address and no other (R40). -/
theorem Memory.byteAt_set (m : Memory) (a b : Addr) (v : Byte) (h : m.wf = true) :
    Memory.byteAt (m.set a.toNat v) b = if a = b then v else m.byteAt b := by
  simp only [Memory.byteAt, Memory.get?_set 0 m a.toNat b.toNat v h, ← BitVec.toNat_inj]
  split <;> rfl

end Sys2Proof.Machine
end

