-- ==== Sys2Proof/Laws/PerInstr.lean ====
section
/-! SUPPORT. One lemma per instruction: its word has the fixed bits of its row of spec/opcode_table.json
(30_encoding R61, R62, R64). -/

namespace Sys2Proof

/-- The word as a number, bit 0 the least significant (R12). -/
def InstrWord.toNat : InstrWord → Nat
  | .cmd w => w.toNat
  | .uop w => w.toNat

/-- The mask and the match of an instruction's row. -/
def tableRow : Instr → Nat × Nat
  | .sendFrame _ => (0x00000000FF0000CF, 1)
  | .sendFlags _ => (0x00000000FF0000CF, 2)
  | .l2Send _ => (0x00000000FF0000CF, 3)
  | .uopBit _ _ => (0x00FEFF, 0)
  | .uopCtrl _ _ => (0x0000FF, 1)
  | .uopData _ _ => (0x0000FF, 2)

/-- Under its row's mask the instruction's word is its row's match. -/
def Laws.EncodingMatchesTable.Statement (i : Instr) : Prop :=
  (encode i).toNat &&& (tableRow i).1 = (tableRow i).2

theorem encodeCmd_masked (op : BitVec 4) (f : CmdFields) :
    encodeCmd op f &&& 0x00000000FF0000CF#64 = op.setWidth 64 := by
  apply BitVec.eq_of_getLsbD_eq
  intro i hi
  interval_cases i <;> simp [encodeCmd, placed]

theorem encodeUop_masked (k : BitVec 2) (uch : ChanId) (x : Byte) :
    encodeUop k uch x &&& 0x0000FF#24 = k.setWidth 24 := by
  apply BitVec.eq_of_getLsbD_eq
  intro i hi
  interval_cases i <;> simp [encodeUop, placed]

theorem uopBitWord_masked (uch : ChanId) (b : Bool) : uopBitWord uch b &&& 0x00FEFF#24 = 0#24 := by
  apply BitVec.eq_of_getLsbD_eq
  intro i hi
  interval_cases i <;> simp [uopBitWord, encodeUop, placed]

theorem Laws.EncodingMatchesTable.sendFrame (f : CmdFields) : Statement (.sendFrame f) :=
  congrArg BitVec.toNat (encodeCmd_masked opSendFrame f)

theorem Laws.EncodingMatchesTable.sendFlags (f : CmdFields) : Statement (.sendFlags f) :=
  congrArg BitVec.toNat (encodeCmd_masked opSendFlags f)

theorem Laws.EncodingMatchesTable.l2Send (f : CmdFields) : Statement (.l2Send f) :=
  congrArg BitVec.toNat (encodeCmd_masked opL2Send f)

theorem Laws.EncodingMatchesTable.uopBit (uch : ChanId) (b : Bool) : Statement (.uopBit uch b) :=
  congrArg BitVec.toNat (uopBitWord_masked uch b)

theorem Laws.EncodingMatchesTable.uopCtrl (uch : ChanId) (x : Byte) : Statement (.uopCtrl uch x) :=
  congrArg BitVec.toNat (encodeUop_masked 1#2 uch x)

theorem Laws.EncodingMatchesTable.uopData (uch : ChanId) (x : Byte) : Statement (.uopData uch x) :=
  congrArg BitVec.toNat (encodeUop_masked 2#2 uch x)

end Sys2Proof
end

