-- ==== Sys2Proof/Laws/Refinement.lean ====
section
/-! SUPPORT. The two granularities agree: the bit-granular engine carries each accepted command, transfer by transfer, to
where the command run whole ends (40_bit_level R80; 70 R182, R183). -/

namespace Sys2Proof.Machine

/-- Handshakes `ms` of engine `c` lead from one state of its work to another, each with a transfer. -/
inductive Reaches (fcsFn : List Byte → BitVec 16) (c : ChanId) (fb : Fbuf) : List Move → Lane → Lane → Prop where
  | refl (l : Lane) : Reaches fcsFn c fb [] l l
  | step {m : Move} {ms : List Move} {l p l' : Lane} (hm : engineMove fcsFn m c fb l.ch = .ok p) (ho : p.out ≠ [])
      (h : Reaches fcsFn c fb ms ⟨p.ch, p.out ++ l.out⟩ l') : Reaches fcsFn c fb (m :: ms) l l'

variable {fcsFn : List Byte → BitVec 16} {c : ChanId} {fb : Fbuf}

/-- Some handshakes of engine `c` lead from one state of its work to another. -/
def Goes (fcsFn : List Byte → BitVec 16) (c : ChanId) (fb : Fbuf) (l l' : Lane) : Prop :=
  ∃ ms, Reaches fcsFn c fb ms l l'

theorem Reaches.trans {ms ns : List Move} {a b d : Lane} (h1 : Reaches fcsFn c fb ms a b)
    (h2 : Reaches fcsFn c fb ns b d) : Reaches fcsFn c fb (ms ++ ns) a d := by
  induction h1 with
  | refl l => exact h2
  | step hm ho _ ih => exact .step hm ho (ih h2)

theorem Goes.trans {a b d : Lane} (h1 : Goes fcsFn c fb a b) (h2 : Goes fcsFn c fb b d) : Goes fcsFn c fb a d := by
  obtain ⟨n, h1⟩ := h1; obtain ⟨m, h2⟩ := h2; exact ⟨_, h1.trans h2⟩

theorem Goes.refl (l : Lane) : Goes fcsFn c fb l l := ⟨[], .refl l⟩

theorem Goes.one (m : Move) {l p l' : Lane} (hm : engineMove fcsFn m c fb l.ch = .ok p) (ho : p.out ≠ [])
    (h : l' = ⟨p.ch, p.out ++ l.out⟩) : Goes fcsFn c fb l l' := by
  subst h; exact ⟨[m], .step hm ho (.refl _)⟩

/-- Every handshake makes a transfer. -/
theorem Reaches.le {ms : List Move} {a b : Lane} (h : Reaches fcsFn c fb ms a b) :
    ms.length + a.out.length ≤ b.out.length := by
  induction h with
  | refl l => simp
  | step hm ho _ ih =>
    have := List.length_pos_of_ne_nil ho
    simp only [List.length_append, List.length_cons] at ih ⊢
    omega

/-- At position `k` of the byte being sent. -/
def Lane.atPos (k : BitVec 3) (l : Lane) : Lane := { l with ch := { l.ch with bitpos := k } }

theorem uopDone_atPos (k : BitVec 3) (l : Lane) : (Lane.atPos k l).onChannel (Channel.uopDone c) = l.onChannel
    (Channel.uopDone c) := by
  simp only [Lane.atPos, Lane.onChannel, Channel.uopDone]

theorem Goes.ctrlBit {l : Lane} {x : Byte} {k : BitVec 3} (hu : l.ch.uop = some (uopCtrlWord c x)) (hk : k ≠ 7#3) :
    Goes fcsFn c fb (Lane.atPos k l) (Lane.atPos (k + 1#3) (l.sendBit c (x.getLsbD k.toNat))) := by
  refine Goes.one (.serve .txbit) (p := Lane.ctrlMove c x ⟨(Lane.atPos k l).ch, []⟩) ?_ ?_ ?_
  · simp [engineMove, Lane.serve, Lane.atPos, hu, Lane.bitMove]
  · simp [Lane.ctrlMove, Lane.atPos, hk, Lane.nextPos, Lane.sendBit_eq, Lane.onChannel]
  · simp [Lane.ctrlMove, Lane.atPos, hk, Lane.nextPos, Lane.sendBit_eq, Lane.onChannel]

theorem Goes.ctrlLastBit {l : Lane} {x : Byte} (hu : l.ch.uop = some (uopCtrlWord c x)) :
    Goes fcsFn c fb (Lane.atPos 7#3 l) (((l.sendBit c (x.getLsbD 7)).setRun 0#3).onChannel (Channel.uopDone c)) := by
  refine Goes.one (.serve .txbit) (p := Lane.ctrlMove c x ⟨(Lane.atPos 7#3 l).ch, []⟩) ?_ ?_ ?_
  · simp [engineMove, Lane.serve, Lane.atPos, hu, Lane.bitMove]
  · simp [Lane.ctrlMove, Lane.atPos, Lane.nextPos, Lane.sendBit_eq, Lane.onChannel, Lane.setRun]
  · have := uopDone_atPos (c := c) 7#3 ((l.sendBit c (x.getLsbD 7)).setRun 0#3)
    rw [← this]
    simp [Lane.ctrlMove, Lane.atPos, Lane.nextPos, Lane.sendBit_eq, Lane.onChannel, Lane.setRun]

/-- An issued UOP_CTRL is sent bit by bit as its meaning says (R80, R84). -/
theorem Goes.ctrlWord {l : Lane} {x : Byte} (hu : l.ch.uop = some (uopCtrlWord c x)) (hb : l.ch.bitpos = 0#3) :
    Goes fcsFn c fb l ((l.sendCtrl c x).onChannel (Channel.uopDone c)) := by
  have h0 : l = Lane.atPos 0#3 l := by cases l with | mk ch o => cases ch; simp_all [Lane.atPos]
  have su : ∀ (l : Lane) b, (l.sendBit c b).ch.uop = l.ch.uop := fun _ _ => rfl
  rw [Lane.sendCtrl, Lane.sendBits, byteBits]
  simp only [List.foldl]
  conv => arg 4; rw [h0]
  refine (Goes.ctrlBit hu (by decide)).trans ?_
  refine (Goes.ctrlBit (by simpa only [su]) (by decide)).trans ?_
  refine (Goes.ctrlBit (by simpa only [su]) (by decide)).trans ?_
  refine (Goes.ctrlBit (by simpa only [su]) (by decide)).trans ?_
  refine (Goes.ctrlBit (by simpa only [su]) (by decide)).trans ?_
  refine (Goes.ctrlBit (by simpa only [su]) (by decide)).trans ?_
  refine (Goes.ctrlBit (by simpa only [su]) (by decide)).trans ?_
  exact Goes.ctrlLastBit (by simpa only [su])

/-- After the bit at position `k`. -/
def Lane.after (c : ChanId) (k : BitVec 3) (l : Lane) : Lane := if k = 7#3 then l.onChannel
    (Channel.uopDone c) else Lane.atPos (k + 1#3) l

theorem nextPos_atPos (k : BitVec 3) (l : Lane) : (Lane.atPos k l).nextPos c = Lane.after c k l := by
  simp only [Lane.nextPos, Lane.after]
  have : (Lane.atPos k l).ch.bitpos = k := rfl
  rw [this]
  split
  · exact uopDone_atPos k l
  · simp [Lane.atPos, Lane.onChannel]

theorem Lane.after_append (k : BitVec 3) (ch : Channel) (o p : List Event) : Lane.after c k ⟨ch, o ++ p⟩ =
    ⟨(Lane.after c k ⟨ch, o⟩).ch, (Lane.after c k ⟨ch, o⟩).out ++ p⟩ := by
  simp only [Lane.after]; split <;> rfl

theorem Lane.after_out (k : BitVec 3) (l : Lane) : (Lane.after c k l).out = l.out := by
  simp only [Lane.after]; split <;> rfl

/-- A data bit, and the stuffed bit it may owe, in one or two moves (R91). -/
theorem Goes.dataBit {l : Lane} {x : Byte} (k : BitVec 3) (hu : l.ch.uop = some (uopDataWord c x))
    (hs : l.ch.stuffPending = false) :
    Goes fcsFn c fb (Lane.atPos k l) (Lane.after c k (l.sendDataBit c (x.getLsbD k.toNat))) := by
  have hmove : engineMove fcsFn (.serve .txbit) c fb (Lane.atPos k l).ch =
      .ok (Lane.dataMove c x ⟨(Lane.atPos k l).ch, []⟩) := by
    simp [engineMove, Lane.serve, Lane.atPos, hu, Lane.bitMove]
  have hd : Lane.dataMove c x ⟨(Lane.atPos k l).ch, []⟩ =
     if x.getLsbD k.toNat then
       if runAtLimit (l.ch.stuffRun + 1#3) then (Lane.sendBit c true ⟨(Lane.atPos k l).ch, []⟩).onChannel
           (fun ch => { ch with stuffPending := true })
       else ((Lane.sendBit c true ⟨(Lane.atPos k l).ch, []⟩).setRun (l.ch.stuffRun + 1#3)).nextPos c
     else ((Lane.sendBit c false ⟨(Lane.atPos k l).ch, []⟩).setRun 0#3).nextPos c := by
    simp only [Lane.dataMove]
    have : (Lane.atPos k l).ch.stuffPending = false := hs
    rw [if_neg (by simp [this])]
    have : (Lane.atPos k l).ch.bitpos = k := rfl
    rw [this]
    have : (Lane.atPos k l).ch.stuffRun = l.ch.stuffRun := rfl
    rw [this]
    cases x.getLsbD k.toNat <;> simp
  rw [hd] at hmove
  simp only [Lane.sendDataBit]
  cases hb : x.getLsbD k.toNat
  · simp only [hb, Bool.false_eq_true, if_false] at hmove ⊢
    have e : (Lane.setRun 0#3 (Lane.sendBit c false ⟨(Lane.atPos k l).ch, []⟩)) =
        Lane.atPos k (Lane.setRun 0#3 (Lane.sendBit c false ⟨l.ch, []⟩)) := rfl
    rw [e, nextPos_atPos] at hmove
    refine Goes.one _ hmove (by rw [Lane.after_out]; simp [Lane.setRun, Lane.sendBit_eq]) ?_
    rw [← Lane.after_append]
    rfl
  · simp only [hb, if_true] at hmove ⊢
    split at hmove
    · rename_i h5
      refine Goes.trans (Goes.one _ hmove (by simp [Lane.onChannel, Lane.sendBit_eq]) rfl) ?_
      rw [if_pos h5]
      refine Goes.one (.serve .txbit)
        (p := Lane.after c k (Lane.setRun 0#3 (Lane.sendBit c false ⟨(Lane.sendBit c true l).ch, []⟩))) ?_
        (by rw [Lane.after_out]; simp [Lane.setRun, Lane.sendBit_eq]) ?_
      · rw [← nextPos_atPos]
        simp [engineMove, Lane.serve, Lane.atPos, hu, Lane.bitMove, Lane.onChannel, Lane.sendBit_eq, Lane.dataMove,
            Lane.setRun, hs]
      · rw [← Lane.after_append]
        rfl
    · rename_i h5
      rw [if_neg h5]
      have e : (Lane.setRun (l.ch.stuffRun + 1#3) (Lane.sendBit c true ⟨(Lane.atPos k l).ch, []⟩)) =
          Lane.atPos k (Lane.setRun (l.ch.stuffRun + 1#3) (Lane.sendBit c true ⟨l.ch, []⟩)) := rfl
      rw [e, nextPos_atPos] at hmove
      refine Goes.one _ hmove (by rw [Lane.after_out]; simp [Lane.setRun, Lane.sendBit_eq]) ?_
      rw [← Lane.after_append]
      rfl

/-- An issued UOP_DATA is sent bit by bit as its meaning says (R80, R87, R91). -/
theorem Goes.dataWord {l : Lane} {x : Byte} (hu : l.ch.uop = some (uopDataWord c x)) (hb : l.ch.bitpos = 0#3)
    (hs : l.ch.stuffPending = false) (hr : l.ch.stuffRun.toNat ≤ 4) :
    Goes fcsFn c fb l ((l.sendData c x).onChannel (Channel.uopDone c)) := by
  have h0 : l = Lane.atPos 0#3 l := by cases l with | mk ch o => cases ch; simp_all [Lane.atPos]
  have su : ∀ (l : Lane) b, l.ch.stuffRun.toNat ≤ 4 → (l.sendDataBit c b).ch.uop = l.ch.uop ∧
      (l.sendDataBit c b).ch.stuffPending = l.ch.stuffPending ∧ (l.sendDataBit c b).ch.stuffRun.toNat ≤ 4 := by
    intro l b h
    rw [Lane.sendDataBit_eq c b l h]
    refine ⟨rfl, rfl, ?_⟩
    dsimp only
    rw [Channel.dataSent_run _ _ h]; exact runAfter_le _ _ h
  have st : ∀ (k : BitVec 3) (l l' : Lane), k ≠ 7#3 → l.ch.uop = some (uopDataWord c x) → l.ch.stuffPending = false →
      l.ch.stuffRun.toNat ≤ 4 →
     (∀ m : Lane, m = l.sendDataBit c (x.getLsbD k.toNat) → m.ch.uop = some (uopDataWord c x) → m.ch.stuffPending =
         false → m.ch.stuffRun.toNat ≤ 4 → Goes fcsFn c fb (Lane.atPos (k + 1#3) m) l') →
         Goes fcsFn c fb (Lane.atPos k l) l' := by
    intro k l l' hk hu hs hr h
    obtain ⟨a, b, d⟩ := su l (x.getLsbD k.toNat) hr
    have := Goes.dataBit (fcsFn := fcsFn) (fb := fb) k hu hs
    rw [Lane.after, if_neg hk] at this
    exact this.trans (h _ rfl (a.trans hu) (b.trans hs) d)
  rw [Lane.sendData, byteBits]
  simp only [List.foldl]
  conv => arg 4; rw [h0]
  refine st _ _ _ (by decide) hu hs hr fun m1 e1 hu hs hr => ?_
  refine st _ _ _ (by decide) hu hs hr fun m2 e2 hu hs hr => ?_
  refine st _ _ _ (by decide) hu hs hr fun m3 e3 hu hs hr => ?_
  refine st _ _ _ (by decide) hu hs hr fun m4 e4 hu hs hr => ?_
  refine st _ _ _ (by decide) hu hs hr fun m5 e5 hu hs hr => ?_
  refine st _ _ _ (by decide) hu hs hr fun m6 e6 hu hs hr => ?_
  refine st _ _ _ (by decide) hu hs hr fun m7 e7 hu hs hr => ?_
  have := Goes.dataBit (fcsFn := fcsFn) (fb := fb) 7#3 hu hs
  subst e1 e2 e3 e4 e5 e6 e7
  exact this

/-- Nothing is issued and no bit is owed. -/
def Channel.AtWord (ch : Channel) : Prop := ch.uop = none ∧ ch.bitpos = 0#3 ∧ ch.stuffPending = false

/-- The same work, in phase `p`. -/
def Lane.inPhase (p : Phase) (l : Lane) : Lane := { l with ch := { l.ch with phase := p } }

/-- One flag issued in phase `p`. -/
theorem Goes.flag {l : Lane} (hb : l.ch.bitpos = 0#3) (p : Phase) :
    Goes fcsFn c fb ⟨{ l.ch with phase := p, uop := some (uopCtrlWord c Config.flag) }, l.out⟩
      (((Lane.inPhase p l).sendCtrl c Config.flag).onChannel (Channel.uopDone c)) := by
  refine (Goes.ctrlWord (l := ⟨{ l.ch with phase := p, uop := some (uopCtrlWord c Config.flag) }, l.out⟩)
      (x := Config.flag) rfl hb).trans ?_
  have : Lane.onChannel (Channel.uopDone c) (Lane.sendCtrl c Config.flag
      ⟨{ l.ch with phase := p, uop := some (uopCtrlWord c Config.flag) }, l.out⟩) =
     ((Lane.inPhase p l).sendCtrl c Config.flag).onChannel (Channel.uopDone c) := by
    simp only [Lane.sendCtrl_eq, Lane.inPhase, Lane.onChannel, Channel.uopDone, Channel.lined]
  rw [this]; exact .refl _

theorem Goes.data {l : Lane} (hb : l.ch.bitpos = 0#3) (hs : l.ch.stuffPending = false) (hr : l.ch.stuffRun.toNat ≤ 4)
    (p : Phase) (x : Byte) :
    Goes fcsFn c fb ⟨{ l.ch with phase := p, uop := some (uopDataWord c x) }, l.out⟩
      (((Lane.inPhase p l).sendData c x).onChannel (Channel.uopDone c)) := by
  refine (Goes.dataWord (l := ⟨{ l.ch with phase := p, uop := some (uopDataWord c x) }, l.out⟩)
      (x := x) rfl hb hs hr).trans ?_
  have : Lane.onChannel (Channel.uopDone c) (Lane.sendData c x
      ⟨{ l.ch with phase := p, uop := some (uopDataWord c x) }, l.out⟩) =
     ((Lane.inPhase p l).sendData c x).onChannel (Channel.uopDone c) := by
    rw [Lane.sendData_eq c x ⟨{ l.ch with phase := p, uop := some (uopDataWord c x) }, l.out⟩ hr,
        Lane.sendData_eq _ _ _ (show (Lane.inPhase p l).ch.stuffRun.toNat ≤ 4 from hr)]
    simp only [Lane.inPhase, Lane.onChannel, Channel.uopDone, Channel.dataSent, Channel.lined]
  rw [this]; exact .refl _

/-- Between two words with no request open (R64, R103). -/
def Channel.Quiet (ch : Channel) : Prop := ch.AtWord ∧ ch.asked = false ∧ ch.fcsAsk = .no

theorem idx_ofNat {i : Nat} {len : BitVec 16} (h : i ≤ len.toNat) :
    BitVec.ofNat 17 i = len.setWidth 17 ↔ i = len.toNat := by
  have := len.isLt
  rw [← BitVec.toNat_inj]; simp; omega

/-- A quiet engine enters PAYLOAD, or FCS_WAIT where no byte is left. -/
theorem Channel.enterPayload_quiet {ch : Channel} (h : ch.fcsAsk = .no) : ch.enterPayload c =
    { ch with phase := if ch.idx = ch.len.setWidth 17 then .fcsWait else .payload } := by
  simp only [Channel.enterPayload, h]; split <;> simp

/-- One payload byte: request, answer, and its bits (R101). -/
theorem Goes.payloadByte {i : Nat} {l : Lane} (hi : l.ch.idx.toNat = i) (hq : l.ch.Quiet)
    (hr : l.ch.stuffRun.toNat ≤ 4) (hd : fb.disturbed = []) :
    Goes fcsFn c fb (Lane.inPhase .payload l) ((l.sendPayloadByte c fb i).onChannel (Channel.enterPayload c)) := by
  obtain ⟨⟨hu, hb, hs⟩, ha, hf⟩ := hq
  have hM : l.memRead c fb (ea l.ch.base i) =
      (fb.mem.byteAt (ea l.ch.base i),
        ⟨l.ch, .fbufRead c (ea l.ch.base i) (fb.mem.byteAt (ea l.ch.base i)) :: .fbufAsk c (ea l.ch.base i) :: l.out⟩) := by
    simp [Lane.memRead, Lane.askByte, Lane.readByte, Lane.emit, Lane.look_stable, hd]
  refine (Goes.one (.request .fbuf) (l' := ⟨{ l.ch with phase := .payload, asked := true },
    .fbufAsk c (ea l.ch.base i) :: l.out⟩) rfl ?_ ?_).trans ?_
  · simp [Lane.request, Lane.inPhase, hu, ha, Lane.askByte, Lane.onChannel, Lane.emit]
  · simp [Lane.request, Lane.inPhase, hu, ha, Lane.askByte, Lane.onChannel, Lane.emit, hi]
  refine (Goes.one (.serve .fbuf) (l' := ⟨{ (l.memRead c fb (ea l.ch.base i)).2.ch with
      phase := .payload, uop := some (uopDataWord c (fb.mem.byteAt (ea l.ch.base i))) },
    (l.memRead c fb (ea l.ch.base i)).2.out⟩) rfl ?_ ?_).trans ?_
  · simp [Lane.byteArrives, Lane.readByte, Lane.onChannel, Lane.emit]
  · simp [hM, Lane.byteArrives, Lane.readByte, Lane.onChannel, Lane.emit, Lane.look_stable, hd, hi, ha]
  refine (Goes.data (l := (l.memRead c fb (ea l.ch.base i)).2) (by rw [hM]; exact hb) (by rw [hM]; exact hs)
    (by rw [hM]; exact hr) _ _).trans ?_
  rw [Lane.sendPayloadByte_eq c fb i l hr hd, hM]
  dsimp only
  rw [Lane.sendData_eq c (fb.mem.byteAt (ea l.ch.base i)) (Lane.inPhase .payload ⟨l.ch,
    .fbufRead c (ea l.ch.base i) (fb.mem.byteAt (ea l.ch.base i)) :: .fbufAsk c (ea l.ch.base i) :: l.out⟩) hr]
  simp only [Lane.inPhase, Lane.onChannel, Channel.uopDone, Channel.dataSent, Channel.lined, Channel.enterPayload_quiet, hf]
  simp only [hu, hb, List.reverse_cons, List.append_assoc, List.nil_append, List.cons_append]
  exact .refl _

/-- The payload, read and sent byte by byte (R101). -/
theorem Goes.payload (hd : fb.disturbed = []) : ∀ (n i : Nat) (l : Lane), i + n = l.ch.len.toNat →
    l.ch.idx = BitVec.ofNat 17 i → l.ch.Quiet → l.ch.stuffRun.toNat ≤ 4 →
    Goes fcsFn c fb (l.onChannel (Channel.enterPayload c)) (Lane.inPhase .fcsWait (l.sendPayload c fb n i)) := by
  intro n
  induction n with
  | zero =>
    intro i l hn hi hq hr
    simp only [Lane.onChannel, Channel.enterPayload_quiet hq.2.2, Lane.sendPayload, Lane.inPhase, hi]
    rw [if_pos ((idx_ofNat (by omega)).2 (by omega))]
    exact .refl _
  | succ n ih =>
    intro i l hn hi hq hr
    have hlt := l.ch.len.isLt
    have hE : l.onChannel (Channel.enterPayload c) = Lane.inPhase .payload l := by
      simp only [Lane.onChannel, Channel.enterPayload_quiet hq.2.2, Lane.inPhase, hi]
      rw [if_neg (by rw [idx_ofNat (by omega)]; omega)]
    rw [hE, Lane.sendPayload]
    refine (Goes.payloadByte (i := i) (by rw [hi]; simp; omega) hq hr hd).trans ?_
    have hP := Lane.sendPayloadByte_eq c fb i l hr hd
    refine ih (i + 1) _ ?_ ?_ ?_ ?_
    · rw [hP]; simp only [Channel.dataSent, Channel.lined]; omega
    · rw [hP]; simp [hi, BitVec.ofNat_add]
    · rw [hP]; exact hq
    · rw [hP]; dsimp only
      rw [Channel.dataSent_run _ _ hr]; exact runAfter_le _ _ hr

/-- The same work with its FCS request answered. -/
def Lane.fcsKnown (l : Lane) : Lane := { l with ch := { l.ch with fcsAsk := .answered } }

theorem inPhase_sendCtrl (p : Phase) (l : Lane) (x : Byte) :
    (Lane.inPhase p l.fcsKnown).sendCtrl c x = Lane.inPhase p (l.sendCtrl c x).fcsKnown := by
  simp [Lane.sendCtrl_eq, Lane.inPhase, Lane.fcsKnown, Channel.lined]

theorem inPhase_sendData (p : Phase) (l : Lane) (x : Byte) (hr : l.ch.stuffRun.toNat ≤ 4) :
    (Lane.inPhase p l.fcsKnown).sendData c x = Lane.inPhase p (l.sendData c x).fcsKnown := by
  rw [Lane.sendData_eq _ _ _ hr, Lane.sendData_eq _ _ _ (show (Lane.inPhase p l.fcsKnown).ch.stuffRun.toNat ≤ 4 from hr)]
  simp [Lane.inPhase, Lane.fcsKnown, Channel.dataSent, Channel.lined]

/-- The FCS's request and answer, in FCS_WAIT (R103). -/
theorem Goes.fcs {l : Lane} (hf : l.ch.fcsAsk = .no) (hd : fb.disturbed = []) :
    Goes fcsFn c fb (Lane.inPhase .fcsWait l) ((l.fcsCalc fcsFn c fb).fcsKnown.onChannel (Channel.enterFcsLo c)) := by
  have h0 : l.fcsCalc fcsFn c fb =
      { ch := { l.ch with fcs := fcsFn (fb.mem.region l.ch.base l.ch.len.toNat 0) },
        out := .fcsqAnswer c (fcsFn (fb.mem.region l.ch.base l.ch.len.toNat 0)) :: .fcsqAsk c l.ch.base l.ch.len ::
          l.out } := Lane.fcsCalc_stable fcsFn c fb l hd
  refine (Goes.one (.request .fcsq) (l' := ⟨{ l.ch with phase := .fcsWait, fcsAsk := .asked },
    .fcsqAsk c l.ch.base l.ch.len :: l.out⟩) rfl ?_ ?_).trans ?_
  · simp [Lane.request, Lane.inPhase, Channel.mayAskFcs, hf, Lane.askFcs, Lane.onChannel, Lane.emit]
  · simp [Lane.request, Lane.inPhase, Channel.mayAskFcs, hf, Lane.askFcs, Lane.onChannel, Lane.emit]
  · refine Goes.one (.serve .fcsq) rfl ?_ ?_
    · simp [Lane.fcsArrives, Lane.latchFcs, Lane.onChannel, Lane.emit]
    · rw [h0]
      simp [Lane.fcsArrives, Lane.latchFcs, Lane.lookRegion_stable, hd, Lane.onChannel, Lane.emit, Lane.fcsKnown,
        Channel.enterFcsLo, lenOperand]

/-- The two FCS bytes and the closing flag (R100, R104). -/
theorem Goes.closing {l : Lane} (hw : l.ch.AtWord) (hr : l.ch.stuffRun.toNat ≤ 4) :
    Goes fcsFn c fb (l.fcsKnown.onChannel (Channel.enterFcsLo c))
      (Lane.inPhase .resp ((l.sendFcs c).sendCtrl c Config.flag).fcsKnown) := by
  obtain ⟨r1, r2, r3⟩ := hw
  refine (Goes.data (l := l.fcsKnown) r2 r3 hr .fcsLo _).trans ?_
  have hL := Lane.sendData_eq c (fcsLoByte l.ch.bf l.ch.fcs) l hr
  simp only [Lane.sendFcs]
  rw [show l.fcsKnown.ch.bf = l.ch.bf from rfl, show l.fcsKnown.ch.fcs = l.ch.fcs from rfl, inPhase_sendData _ _ _ hr]
  generalize l.sendData c (fcsLoByte l.ch.bf l.ch.fcs) = lo at *
  have s1 : lo.ch.uop = none := by rw [hL]; exact r1
  have s2 : lo.ch.bitpos = 0#3 := by rw [hL]; exact r2
  have s3 : lo.ch.stuffPending = false := by rw [hL]; exact r3
  have s5 : lo.ch.stuffRun.toNat ≤ 4 := by rw [hL]; dsimp only; rw [Channel.dataSent_run _ _ hr]; exact runAfter_le _ _ hr
  have s6 : lo.ch.bf = l.ch.bf := by rw [hL]; rfl
  have s7 : lo.ch.fcs = l.ch.fcs := by rw [hL]; rfl
  have e2 : (Lane.inPhase .fcsLo lo.fcsKnown).onChannel (Channel.uopDone c) =
      ⟨{ lo.fcsKnown.ch with phase := .fcsHi, uop := some (uopDataWord c (fcsHiByte lo.ch.bf lo.ch.fcs)) }, lo.out⟩ := by
    simp [Lane.inPhase, Lane.onChannel, Channel.uopDone, Lane.fcsKnown, s2]
  rw [e2, s6, s7]
  refine (Goes.data (l := lo.fcsKnown) s2 s3 s5 .fcsHi _).trans ?_
  have hH := Lane.sendData_eq c (fcsHiByte l.ch.bf l.ch.fcs) lo s5
  rw [inPhase_sendData _ _ _ s5]
  generalize lo.sendData c (fcsHiByte l.ch.bf l.ch.fcs) = hi at *
  have t1 : hi.ch.uop = none := by rw [hH]; exact s1
  have t2 : hi.ch.bitpos = 0#3 := by rw [hH]; exact s2
  have e3 : (Lane.inPhase .fcsHi hi.fcsKnown).onChannel (Channel.uopDone c) =
      ⟨{ hi.fcsKnown.ch with phase := .endFlag, uop := some (uopCtrlWord c Config.flag) }, hi.out⟩ := by
    simp [Lane.inPhase, Lane.onChannel, Channel.uopDone, Lane.fcsKnown, t2]
  rw [e3]
  refine (Goes.flag (l := hi.fcsKnown) t2 .endFlag).trans ?_
  rw [inPhase_sendCtrl]
  have e4 : (Lane.inPhase .endFlag (hi.sendCtrl c Config.flag).fcsKnown).onChannel (Channel.uopDone c) =
      Lane.inPhase .resp (hi.sendCtrl c Config.flag).fcsKnown := by
    simp [Lane.inPhase, Lane.onChannel, Channel.uopDone, Lane.sendCtrl_eq, Channel.lined, Lane.fcsKnown, t1, t2]
  rw [e4]; exact .refl _

/-- The body of a frame from START_FLAG to RESP (R100). -/
theorem Goes.frameBody {l : Lane} (hq : l.ch.Quiet) (hi : l.ch.idx = 0#17) (hd : fb.disturbed = []) :
    Goes fcsFn c fb (l.onChannel (Channel.enterStartFlag c))
      (Lane.inPhase .resp (l.sendFrameBody fcsFn c fb).fcsKnown) := by
  have hO := Lane.sendCtrl_eq c Config.flag l.clearCount
  have hq' : (l.clearCount.sendCtrl c Config.flag).ch.Quiet := by rw [hO]; exact hq
  have hr : (l.clearCount.sendCtrl c Config.flag).ch.stuffRun.toNat ≤ 4 := by rw [hO]; simp
  have hlen : (l.clearCount.sendCtrl c Config.flag).ch.len = l.ch.len := by rw [hO]; rfl
  refine (Goes.flag (l := l.clearCount) hq.1.2.1 .startFlag).trans ?_
  have e1 : ((Lane.inPhase .startFlag l.clearCount).sendCtrl c Config.flag).onChannel (Channel.uopDone c) =
      (l.clearCount.sendCtrl c Config.flag).onChannel (Channel.enterPayload c) := by
    simp only [Lane.sendCtrl_eq, Lane.inPhase, Lane.onChannel, Channel.uopDone, Channel.lined, Lane.clearCount,
      Channel.enterPayload_quiet, hq.2.2]
    simp only [hq.1.1, hq.1.2.1]
  rw [e1]
  refine (Goes.payload hd l.ch.len.toNat 0 _ (by rw [hlen]; omega) (by rw [hO]; exact hi) hq' hr).trans ?_
  simp only [Lane.sendFrameBody, lenOperand]
  have hP := Lane.sendPayload_eq c fb l.ch.len.toNat 0 (l.clearCount.sendCtrl c Config.flag) hr hd
  generalize (l.clearCount.sendCtrl c Config.flag).sendPayload c fb l.ch.len.toNat 0 = carried at *
  have hqc : carried.ch.Quiet := by rw [hP]; exact hq'
  have hrc : carried.ch.stuffRun.toNat ≤ 4 := by
    rw [hP]; dsimp only; rw [Channel.dataSent_run _ _ hr]; exact runAfter_le _ _ hr
  refine (Goes.fcs hqc.2.2 hd).trans ?_
  have hF := Lane.fcsCalc_stable fcsFn c fb carried hd
  refine Goes.closing ?_ ?_
  · rw [hF]; exact hqc.1
  · rw [hF]; exact hrc

/-- Handshakes lead to RESP, and the host's taking of the response gives `l'`. -/
def Finishes (fcsFn : List Byte → BitVec 16) (c : ChanId) (fb : Fbuf) (l l' : Lane) : Prop :=
  ∃ m : Lane, Goes fcsFn c fb l m ∧ m.ch.phase = .resp ∧ m.respond c m.ch.respCount = l'

theorem Goes.finish {l m l' : Lane} (h : Goes fcsFn c fb l m) (hf : Finishes fcsFn c fb m l') :
    Finishes fcsFn c fb l l' := by
  obtain ⟨r, hr, hp, he⟩ := hf; exact ⟨r, h.trans hr, hp, he⟩

/-- Off the encapsulated path the count is `bits_sent` (R20). -/
theorem Channel.respCount_plain {ch : Channel} (h : (ch.op = opL2Send && fxEnabled ch.fxp && fxSuccess ch.fxres) = false) :
    ch.respCount = ch.bitsSent := by
  simp only [Channel.respCount, h]; rfl

/-- A SEND_FRAME from its start to its response (R100). -/
theorem Finishes.sendFrame {l : Lane} (hq : l.ch.Quiet) (hi : l.ch.idx = 0#17) (hd : fb.disturbed = [])
    (hop : (l.ch.op = opL2Send && fxEnabled l.ch.fxp && fxSuccess l.ch.fxres) = false) :
    Finishes fcsFn c fb (l.onChannel (Channel.enterStartFlag c)) (l.sendFrame fcsFn c fb) := by
  refine ⟨_, Goes.frameBody hq hi hd, rfl, ?_⟩
  have hB := Lane.sendFrameBody_eq fcsFn c fb l hd
  rw [Lane.sendFrame, hB]
  refine (congrArg (fun n => Lane.respond c n _) (Channel.respCount_plain ?_)).trans rfl
  exact hop

/-- The flags of SEND_FLAGS (R110). -/
theorem Goes.flags : ∀ (n i : Nat) (l : Lane), i + n = l.ch.len.toNat → l.ch.idx = BitVec.ofNat 17 i →
    l.ch.AtWord →
    Goes fcsFn c fb (l.onChannel (Channel.enterFlags c))
      (Lane.inPhase (if l.ch.fin then .flushWait else .resp) (l.sendFlagOctets c n)) := by
  intro n
  induction n with
  | zero =>
    intro i l hn hi hw
    have : l.onChannel (Channel.enterFlags c) =
        Lane.inPhase (if l.ch.fin then .flushWait else .resp) (l.sendFlagOctets c 0) := by
      simp only [Lane.onChannel, Channel.enterFlags, Lane.sendFlagOctets, Lane.inPhase, hi]
      rw [if_pos ((idx_ofNat (by omega)).2 (by omega))]
      cases l.ch.fin <;> rfl
    rw [this]; exact .refl _
  | succ n ih =>
    intro i l hn hi hw
    have hlt := l.ch.len.isLt
    obtain ⟨hu1, hb, hs⟩ := hw
    have hE : l.onChannel (Channel.enterFlags c) =
        ⟨{ l.ch with phase := .flags, uop := some (uopCtrlWord c Config.flag) }, l.out⟩ := by
      simp only [Lane.onChannel, Channel.enterFlags, hi]
      rw [if_neg (by rw [idx_ofNat (by omega)]; omega)]
    rw [hE, Lane.sendFlagOctets]
    refine (Goes.flag hb .flags).trans ?_
    have hS : ((Lane.inPhase .flags l).sendCtrl c Config.flag).onChannel (Channel.uopDone c) =
        (l.sendCtrl c Config.flag).countUnit.onChannel (Channel.enterFlags c) := by
      simp [Lane.sendCtrl_eq, Lane.inPhase, Lane.onChannel, Channel.uopDone, Channel.lined, Lane.countUnit,
        Channel.enterFlags, hu1, hb]
    rw [hS]
    have hP := Lane.sendCtrl_eq c Config.flag l
    have := ih (i + 1) (l.sendCtrl c Config.flag).countUnit
      (by rw [hP]; simp only [Channel.lined, Lane.countUnit]; omega)
      (by rw [hP]; simp [Lane.countUnit, Channel.lined, hi, BitVec.ofNat_add]) (by rw [hP]; exact ⟨hu1, hb, hs⟩)
    have hfin : (l.sendCtrl c Config.flag).countUnit.ch.fin = l.ch.fin := by rw [hP]; rfl
    rw [hfin] at this
    exact this

/-- A SEND_FLAGS from its start to its response (R110, R112). -/
theorem Finishes.sendFlags {l : Lane} (hq : l.ch.Quiet) (hi : l.ch.idx = 0#17) (hop : l.ch.op = opSendFlags) :
    Finishes fcsFn c fb (l.clearCount.onChannel (Channel.enterFlags c)) (l.sendFlags c) := by
  refine (Goes.flags l.ch.len.toNat 0 l.clearCount (by simp [Lane.clearCount]) (by simp [Lane.clearCount, hi])
    hq.1).finish ?_
  have hO := Lane.sendFlagOctets_eq c l.ch.len.toNat l.clearCount
  simp only [Lane.sendFlags, lenOperand]
  generalize l.clearCount.sendFlagOctets c l.ch.len.toNat = fl at *
  have f1 : fl.ch.asked = false := by rw [hO]; exact hq.2.1
  have f2 : fl.ch.op = opSendFlags := by rw [hO]; exact hop
  rw [show l.clearCount.ch.fin = l.ch.fin from rfl]
  cases hf : l.ch.fin
  · refine ⟨_, .refl _, rfl, ?_⟩
    simp [Lane.respond, Lane.emit, Lane.inPhase, Channel.respCount, f2, opSendFlags, opL2Send]
  · refine ⟨Lane.inPhase .resp (fl.flush c), ?_, rfl, ?_⟩
    · refine (Goes.one (.request .flush) (l' := ⟨{ fl.ch with phase := .flushWait, asked := true },
        .flushAsk c (Config.adevOf c) :: fl.out⟩) rfl ?_ ?_).trans (Goes.one (.serve .flush) rfl ?_ ?_)
      · simp [Lane.request, Lane.inPhase, f1, Lane.askFlush, Lane.onChannel, Lane.emit]
      · simp [Lane.request, Lane.inPhase, f1, Lane.askFlush, Lane.onChannel, Lane.emit]
      · simp [Lane.flushed, Lane.onChannel, Lane.emit]
      · simp [Lane.flush, Lane.flushed, Lane.askFlush, Lane.onChannel, Lane.emit, Lane.inPhase, f1]
    · simp [Lane.flush, Lane.flushed, Lane.askFlush, Lane.respond, Lane.emit, Lane.inPhase, Channel.respCount, f2,
        opSendFlags, opL2Send]

/-- An L2_SEND from the encapsulator's answer to its response (R132, R133, R134). -/
theorem Finishes.answered {l : Lane} (hq : l.ch.Quiet) (hi : l.ch.idx = 0#17) (hd : fb.disturbed = [])
    (hop : l.ch.op = opL2Send) (hfx : fxEnabled l.ch.fxp = true) :
    Finishes fcsFn c fb (Lane.inPhase (if fxSuccess l.ch.fxres then .resp else .warn) l)
      (if fxSuccess l.ch.fxres then l.respond c l.ch.fxres else (l.warn c).sendFrame fcsFn c fb) := by
  split
  · rename_i hs
    refine ⟨_, .refl _, rfl, ?_⟩
    simp [Lane.respond, Lane.emit, Lane.inPhase, Channel.respCount, hop, hfx, hs]
  · rename_i hs
    refine Goes.finish (m := (l.warn c).onChannel (Channel.enterStartFlag c)) ?_
      (Finishes.sendFrame hq hi hd (by simp [Lane.warn, Lane.emit, hs]))
    refine Goes.one (.serve .warn) rfl ?_ ?_
    · simp [Lane.inPhase, Lane.onChannel, Lane.warn, Lane.emit]
    · simp [Lane.inPhase, Lane.onChannel, Lane.warn, Lane.emit, Channel.enterStartFlag]

/-- The encapsulator's answer depends on neither the phase nor the open request. -/
theorem Channel.fxAnswered_waiting (c : ChanId) (p : Phase) (a : Bool) (ch : Channel) :
    Channel.fxAnswered c { ch with phase := p, asked := a } = { ch.fxAnswered c with phase := p, asked := a } := by
  simp only [Channel.fxAnswered]; cases ch.fxAnswers <;> rfl

/-- An L2_SEND from its start to its response (R130). -/
theorem Finishes.l2Send {l : Lane} (hq : l.ch.Quiet) (hi : l.ch.idx = 0#17) (hd : fb.disturbed = [])
    (hop : l.ch.op = opL2Send) :
    Finishes fcsFn c fb
      (if fxEnabled l.ch.fxp then Lane.inPhase .fxWait l else l.onChannel (Channel.enterStartFlag c))
      (l.l2Send fcsFn c fb) := by
  simp only [Lane.l2Send]
  split
  · rename_i hfx
    have hX := Lane.fxEncap_eq c l
    have hA := Channel.fxAnswered_eq c l.ch
    have ask : Goes fcsFn c fb (Lane.inPhase .fxWait l)
        (Lane.inPhase (if fxSuccess (l.fxEncap c).ch.fxres then .resp else .warn) (l.fxEncap c)) := by
      have ha := hq.2.1
      refine (Goes.one (.request .fxq) (l' := ⟨{ l.ch with phase := .fxWait, asked := true },
        .fxqAsk c l.ch.base l.ch.len l.ch.fxp :: l.out⟩) rfl ?_ ?_).trans (Goes.one (.serve .fxq) rfl ?_ ?_)
      · simp [Lane.request, Lane.inPhase, ha, Lane.askFx, Lane.onChannel, Lane.emit]
      · simp [Lane.request, Lane.inPhase, ha, Lane.askFx, Lane.onChannel, Lane.emit]
      · simp [Lane.fxArrives, Lane.latchFx_eq, Lane.onChannel]
      · rw [hX]
        simp only [Lane.fxArrives, Lane.latchFx_eq, Lane.onChannel, Lane.inPhase]
        rw [Channel.fxAnswered_waiting c .fxWait true l.ch]
        have hx : (l.ch.fxAnswered c).asked = false := by rw [hA]; exact ha
        simp only [← hx]
        rfl
    refine ask.finish ?_
    have a1 : (l.fxEncap c).ch.Quiet := by rw [hX]; simp only; rw [hA]; exact hq
    have a4 : (l.fxEncap c).ch.idx = 0#17 := by rw [hX]; simp only; rw [hA]; exact hi
    have a6 : (l.fxEncap c).ch.op = opL2Send := by rw [hX]; simp only; rw [hA]; exact hop
    have a7 : (l.fxEncap c).ch.fxp = l.ch.fxp := by rw [hX]; simp only; rw [hA]
    exact Finishes.answered a1 a4 hd a6 (by rw [a7]; exact hfx)
  · rename_i hfx
    exact Finishes.sendFrame hq hi hd (by simp [hfx])

/-! ## Runs of the block -/

theorem Lane.sendBit_unstable (b : Bool) (l : Lane) : (l.sendBit c b).ch.unstable = l.ch.unstable := rfl

theorem Channel.uopDone_unstable (ch : Channel) : (ch.uopDone c).unstable = ch.unstable := by
  simp only [Channel.uopDone, Channel.enterPayload, Channel.enterFcsLo, Channel.enterFlags]
  split <;> (repeat' split) <;> rfl

theorem Lane.nextPos_unstable (l : Lane) : (l.nextPos c).ch.unstable = l.ch.unstable := by
  simp only [Lane.nextPos, Lane.onChannel]; split
  · exact Channel.uopDone_unstable _
  · rfl

theorem Lane.bitMove_unstable (k : UopKind) (x : Byte) (l : Lane) : (l.bitMove c k x).ch.unstable = l.ch.unstable := by
  cases k with
  | bit => exact Channel.uopDone_unstable _
  | ctrl => simp only [Lane.bitMove, Lane.ctrlMove, Lane.nextPos_unstable]; split <;> rfl
  | data =>
    simp only [Lane.bitMove, Lane.dataMove]
    (repeat' split) <;> simp [Lane.nextPos_unstable, Lane.onChannel, Lane.setRun, Lane.sendBit_unstable]

/-- A handshake with a collaborator is no host write: it leaves the record of those alone (R50). -/
theorem engineMove_unstable {m : Move} {ch : Channel} {l : Lane} (h : engineMove fcsFn m c fb ch = .ok l) :
    l.ch.unstable = ch.unstable := by
  rcases m with p | p
  · cases h
    cases p <;> simp only [Lane.request] <;> (repeat' split) <;> rfl
  · cases p <;> simp only [engineMove, Lane.serve, Except.ok.injEq] at h
    case txbit =>
      split at h
      · cases h; rfl
      · split at h
        · cases h
        · cases h; exact Lane.bitMove_unstable _ _ _
    all_goals rw [← h]; split
    · simp only [Lane.byteArrives, Lane.readByte, Lane.look_eq]; rfl
    · rfl
    · simp only [Lane.fcsArrives, Lane.latchFcs, Lane.lookRegion_lane, Lane.onChannel, Lane.emit]; split <;> rfl
    · rfl
    · simp only [Lane.fxArrives, Lane.latchFx, Lane.onChannel]; split <;> rfl
    all_goals rfl

/-- The block with engine `c`'s work put back, and the turns `ts` to come. -/
def State.atLane (c : ChanId) (ts : List Turn) (s : State) (l : Lane) : State :=
  { s.putLane c l with sched := ts }

/-- Handshakes of one engine are steps of the block, where the host writes no byte inside the window. -/
theorem run_reaches {ms : List Move} {l l' : Lane} {s : State} (ts : List Turn)
    (h : Reaches Config.fcsFn c ⟨s.mem, []⟩ ms l l') (hc : c.toNat < s.channels.length) (hu : l.ch.unstable = [])
    (hw : writesInWindow c s.host = []) (k : Nat) :
    Host.Core.run core (ms.length + k) (State.atLane c (ms.map (Turn.engine · c) ++ ts) s l) =
      Host.Core.run core k (State.atLane c ts s l') := by
  induction h with
  | refl l => simp
  | @step m ms l p l' hmv ho _ ih =>
    have h2 : State.channel? { State.atLane c ((m :: ms).map (Turn.engine · c) ++ ts) s l with
        sched := ms.map (Turn.engine · c) ++ ts } c = some l.ch := by
      simp [State.channel?, State.atLane, hc]
    have h3 : core.step (State.atLane c ((m :: ms).map (Turn.engine · c) ++ ts) s l) =
        .next (State.atLane c (ms.map (Turn.engine · c) ++ ts) s ⟨p.ch, p.out ++ l.out⟩) := by
      show engineTurn Config.fcsFn m c { State.atLane c ((m :: ms).map (Turn.engine · c) ++ ts) s l with
        sched := ms.map (Turn.engine · c) ++ ts } = _
      rw [engineTurn, h2]
      have : State.fbuf c l.ch { State.atLane c ((m :: ms).map (Turn.engine · c) ++ ts) s l with
          sched := ms.map (Turn.engine · c) ++ ts } = ⟨s.mem, []⟩ := by
        simp [State.fbuf, State.atLane, State.putLane, hu, hw]
      dsimp only
      rw [this, hmv]
      simp [State.atLane, State.putLane]
      rfl
    rw [List.length_cons, Nat.add_right_comm]
    simp only [Host.Core.run, h3]
    exact ih ((engineMove_unstable hmv).trans hu)

/-- How many transfers a frame makes (R182). -/
theorem length_frameTransfers (cc m base len bf f v) : (frameTransfers cc m base len bf f v).length =
    (frameRaw (m.region base len.toNat 0) bf f).length + 2 * len.toNat + 2 := by
  have tx : ∀ c v bs, (txTransfers c v bs).length = bs.length := by intro c v bs; simp [txTransfers]
  have pl : ∀ cells v r, (payloadTransfers cc cells v r).length =
      (stuff r (bytesBits (cells.map Prod.snd))).length + 2 * cells.length := by
    intro cells
    induction cells with
    | nil => intro v r; rfl
    | cons cell cells ih =>
      obtain ⟨a, x⟩ := cell
      intro v r
      simp [payloadTransfers, tx, ih, bytesBits, stuff_append]; omega
  have pc : ∀ n i, (payloadCells m base n i).length = n := by
    intro n; induction n with
    | zero => intro i; rfl
    | succ n ih => intro i; simp [payloadCells, ih]
  simp only [frameTransfers, List.length_append, tx, pl, pc, map_snd_payloadCells, frameRaw, innerRaw_eq,
    List.length_cons, List.length_nil]
  omega

/-- The largest frame (R34). -/
theorem length_frameRaw_le (payload : List Byte) (bf : Bool) (f : BitVec 16) (h : payload.length ≤ 65535) :
    (frameRaw payload bf f).length ≤ 629171 := by
  have := stuffCount_bound 0 (bytesBits (payload ++ fcsBytes bf f)) (by omega)
  simp [frameRaw, innerRaw, length_stuff, fcsBytes] at this ⊢; omega

end Sys2Proof.Machine
end

