-- ==== Sys2Proof/Tests/Slice0.lean ====
section
/-! SUPPORT. Tests of the model against words and vectors written out from the spec (30_encoding R61, R64, R73;
95_test_vectors), the smoke test of WellFormed, and a witness for each obligation that has hypotheses. -/

namespace Sys2Proof.Tests

open Sys2Proof.Machine

/-! ## Helpers -/

/-- `FCS_FN` of the test vectors (93_implementation_defined G1), one bit: reflected polynomial 0x8408. -/
def crcBit (s : BitVec 16) (b : Bool) : BitVec 16 :=
  if s.getLsbD 0 ^^ b then (s >>> 1) ^^^ 0x8408#16 else s >>> 1

/-- The CRC register after bytes. -/
def crcBytes : BitVec 16 → List Byte → BitVec 16
  | s, [] => s
  | s, x :: xs => crcBytes ((byteBits x).foldl crcBit s) xs

/-- `FCS_FN` of the test vectors: start at 0xFFFF, complement at the end (93_implementation_defined G1). -/
def crcX25 (xs : List Byte) : BitVec 16 := ~~~(crcBytes 0xFFFF#16 xs)

/-- `n` bits of a numeral, written in the order they are sent. -/
def bits : Nat → Nat → List Bool
  | 0, _ => []
  | n + 1, v => Nat.testBit v n :: bits n v

/-- An idle engine with a line level and a run. -/
def engine (level : Bool) (run : BitVec 3) : Channel := {
  bitsSent := 7, stuffRun := run, lineLevel := level, busy := false, phase := .idle, op := 0, bf := false, fin := false,
  fxp := 0, len := 0, base := 0, idx := 0, bitpos := 0, stuffPending := false, fcs := 0, fxres := 0, uop := none,
  asked := false, fcsAsk := .no, unstable := [], fxAnswers := [], draws := 0 }

/-- A block of two engines (the vectors' `NCHAN`) with a frame buffer. -/
def block (ch0 ch1 : Channel) (mem : Memory) : State := {
  channels := [ch0, ch1], mem := mem, cmd := [], rejections := [], rst := false, host := [], sched := [], trace := [] }

/-- The frame buffer of V-F1 and V-D1. -/
def buffer : Memory := [(0x100, 0x03#8), (0x101, 0xF0#8)]

/-- The two-engine block most tests start from. -/
def start : State := block (engine false 3#3) (engine true 2#3) buffer

/-- The state a step answers, if it answers one. -/
def nextState (o : Host.Outcome State Fault Refusal) : Option State :=
  match o with
  | .next s => some s
  | .fault _ => none
  | .refused _ => none

/-- What a vector lists of channel `c` after a step: levels sent, `bits_sent`, `stuff_run`, `line_level`. -/
def view (c : ChanId) (o : Host.Outcome State Fault Refusal) : Option (List Bool × BitVec 32 × BitVec 3 × Bool) :=
  match nextState o with
  | none => none
  | some s => match s.channel? c with
    | none => none
    | some ch => some (sentLevels c s.trace, ch.bitsSent, ch.stuffRun, ch.lineLevel)

/-! ## WellFormed (30_encoding R61, R64, R84) -/

theorem test_wellFormed_accepts :
    (Instr.sendFrame ⟨true, false, 1#8, 0#8, 0xFFFF#16, 0xFFFF#16⟩).wellFormed 2 = true ∧
    (Instr.uopCtrl 0#8 0x7E#8).wellFormed 2 = true ∧ (Instr.uopData 1#8 0xFF#8).wellFormed 2 = true := by decide

theorem test_wellFormed_refuses_absent_channel :
    (Instr.sendFrame ⟨false, false, 2#8, 0#8, 0#16, 0#16⟩).wellFormed 2 = false ∧
    (Instr.sendFlags ⟨false, false, 255#8, 0#8, 0#16, 0#16⟩).wellFormed 255 = false ∧
    (Instr.uopBit 2#8 true).wellFormed 2 = false := by decide

theorem test_wellFormed_refuses_ctrl_of_no_flag : (Instr.uopCtrl 0#8 0xFF#8).wellFormed 2 = false := by decide

/-! ## Decoding: words written bit by bit from R61 and R64, the most significant field first -/

/-- BASE 0x0102, LEN 0x0304, RSVB, FXP, CHAN 1, RSVA, FIN 0, BF 1, OP 1. -/
theorem test_decode_sendFrame :
    decodeCmd 0b0000000100000010_0000001100000100_00000000_00000000_00000001_00_0_1_0001#64 =
      .ok (.sendFrame ⟨true, false, 1#8, 0#8, 0x0304#16, 0x0102#16⟩) := by rfl

/-- BASE, LEN 3, RSVB, FXP, CHAN 1, RSVA, FIN 1, BF 0, OP 2. -/
theorem test_decode_sendFlags :
    decodeCmd 0b0000000000000000_0000000000000011_00000000_00000000_00000001_00_1_0_0010#64 =
      .ok (.sendFlags ⟨false, true, 1#8, 0#8, 3#16, 0#16⟩) := by rfl

/-- BASE 0x0200, LEN 2, RSVB, FXP 16, CHAN 0, RSVA, FIN 0, BF 1, OP 3. -/
theorem test_decode_l2Send :
    decodeCmd 0b0000001000000000_0000000000000010_00000000_00010000_00000000_00_0_1_0011#64 =
      .ok (.l2Send ⟨true, false, 0#8, 16#8, 2#16, 0x0200#16⟩) := by rfl

/-- UCH 3, VAL 1, Z, K 0. -/
theorem test_decode_uopBit : decodeUop 0b00000011_00000001_000000_00#24 = .ok (.uopBit 3#8 true) := by rfl

/-- UCH 2, VAL 0x7E, Z, K 1. -/
theorem test_decode_uopCtrl : decodeUop 0b00000010_01111110_000000_01#24 = .ok (.uopCtrl 2#8 0x7E#8) := by rfl

/-- UCH 1, VAL 0xF0, Z, K 2. -/
theorem test_decode_uopData : decodeUop 0b00000001_11110000_000000_10#24 = .ok (.uopData 1#8 0xF0#8) := by rfl

/-- The reserved kind, a `Z` that is not 0, a `UOP_BIT` value above 1 (R64). -/
theorem test_decode_uop_refuses :
    decodeUop 0b00000000_00000000_000000_11#24 = .error .kindReserved ∧
    decodeUop 0b00000000_00000000_100000_10#24 = .error .zNotZero ∧
    decodeUop 0b00000000_10000001_000000_00#24 = .error .bitValueHigh := ⟨rfl, rfl, rfl⟩

/-- The table's numbering: 64 bits are a `CMD` word, 24 bits a `UOP` word (R60). -/
theorem test_decodeTableWord :
    decodeTableWord 64 0x0000000300000122 = some (.sendFlags ⟨false, true, 1#8, 0#8, 3#16, 0#16⟩) ∧
    decodeTableWord 24 0x00F002 = some (.uopData 0#8 0xF0#8) ∧ decodeTableWord 64 0 = none := ⟨rfl, rfl, rfl⟩

/-- V-X1 to V-X8: what a block of two engines makes of each word (R67 to R69, R153, R154). -/
theorem test_rejected_words :
    [0x0000000000000000#64, 0x0000000000000004#64, 0x0000000001000001#64, 0x00000000000000C2#64,
      0x0000000100000502#64, 0x000000000100050F#64, 0x0000000001000502#64, 0x000000000000FF01#64].map
      (fun w => match classifyCmd 2 w with | .ok _ => none | .error st => some (w.extractLsb' 8 8, st)) =
    [some (0#8, .illegalOp), some (0#8, .illegalOp), some (0#8, .rsvdBits), some (0#8, .rsvdBits),
      some (5#8, .badChan), some (5#8, .illegalOp), some (5#8, .rsvdBits), some (255#8, .badChan)] := by decide

/-! ## UOP_BIT -/

/-- V-B1: entry level, bit, level sent and after. -/
theorem test_uopBit_levels :
    [(false, false), (false, true), (true, false), (true, true)].map
      (fun p => view 0#8 (exec (.uopBit 0#8 p.2) (block (engine p.1 3#3) (engine true 0#3) []))) =
    [some ([true], 8#32, 3#3, true), some ([false], 8#32, 3#3, false), some ([false], 8#32, 3#3, false),
      some ([true], 8#32, 3#3, true)] := by decide

/-- A micro-operation for a channel with no engine is refused (log 16). -/
theorem test_uopBit_no_engine : exec (.uopBit 2#8 true) start = .refused .noEngine := rfl

/-! ## UOP_CTRL -/

/-- V-C1: entry level and run. -/
theorem test_uopCtrl_flag :
    [(false, 0#3), (true, 0#3), (false, 4#3)].map
      (fun p => view 0#8 (exec (.uopCtrl 0#8 0x7E#8) (block (engine p.1 p.2) (engine true 0#3) []))) =
    [some (bits 8 0b11111110, 15#32, 0#3, false), some (bits 8 0b00000001, 15#32, 0#3, true),
      some (bits 8 0b11111110, 15#32, 0#3, false)] := by decide

/-- V-C2: no stuffing even for eight 1 bits. -/
theorem test_uopCtrl_ones :
    view 0#8 (exec (.uopCtrl 0#8 0xFF#8) start) = some (bits 8 0b00000000, 15#32, 0#3, false) := by decide

/-! ## UOP_DATA -/

/-- V-U1 to V-U12: entry run, byte, entry level; levels, bits sent, run and level after. -/
theorem test_uopData_vectors :
    [(0#3, 0x00#8, false), (0#3, 0xAA#8, false), (0#3, 0xFF#8, false), (0#3, 0x1F#8, false), (0#3, 0x3E#8, true),
      (4#3, 0x01#8, false), (4#3, 0xFF#8, false), (2#3, 0xFF#8, true), (3#3, 0xFB#8, false), (0#3, 0x80#8, false),
      (1#3, 0xF0#8, false), (4#3, 0x00#8, true)].map
      (fun p => view 0#8 (exec (.uopData 0#8 p.2.1) (block (engine p.2.2 p.1) (engine true 0#3) []))) =
    [some (bits 8 0b10101010, 15#32, 0#3, false), some (bits 8 0b11001100, 15#32, 1#3, false),
      some (bits 9 0b000001111, 16#32, 3#3, true), some (bits 9 0b000001010, 16#32, 0#3, false),
      some (bits 9 0b000000101, 16#32, 0#3, true), some (bits 9 0b010101010, 16#32, 0#3, false),
      some (bits 10 0b0111111000, 17#32, 2#3, false), some (bits 10 0b1110000001, 17#32, 0#3, true),
      some (bits 10 0b0010000001, 17#32, 0#3, true), some (bits 8 0b10101011, 15#32, 1#3, true),
      some (bits 8 0b10100000, 15#32, 4#3, false), some (bits 8 0b01010101, 15#32, 0#3, true)] := by decide

/-- R91, V-U3, bit-granular: the fifth 1 sets `stuff_pending`, and the next move sends the 0. -/
theorem test_uopData_owed_bit :
    (Lane.dataMove 0#8 0xFF#8 ⟨{ engine false 4#3 with bitpos := 4#3 }, []⟩).ch.stuffPending = true ∧
    (Lane.dataMove 0#8 0xFF#8 ⟨{ engine false 4#3 with bitpos := 4#3, stuffPending := true }, []⟩).out =
      [.txbit 0#8 true] ∧
    (Lane.dataMove 0#8 0xFF#8 ⟨{ engine false 4#3 with bitpos := 4#3, stuffPending := true }, []⟩).ch.bitpos = 5#3 := by
  decide

/-! ## SEND_FRAME -/

/-- What a frame vector lists: levels, count of the response, run and level after, for the `FCS_FN` of G1. -/
def frameView (c : ChanId) (level bf : Bool) (base : Addr) (len : BitVec 16) (mem : Memory) :
    List Bool × Option Event × BitVec 3 × Bool :=
  let l := Lane.sendFrame crcX25 c ⟨mem, []⟩ ⟨(engine level 3#3).latch opSendFrame ⟨bf, false, c, 0#8, len, base⟩, []⟩
  (sentLevels c l.out, l.out.head?, l.ch.stuffRun, l.ch.lineLevel)

/-- V-F1, V-F2 (bad_fcs), V-F5 (length 0, bad_fcs), V-F7 (densest stuffing), V-F8 (a payload byte equal to the flag). -/
theorem test_sendFrame_vectors :
    frameView 0#8 false false 0x100#16 2#16 buffer =
      (bits 8 0b11111110 ++ bits 8 0b00101010 ++ bits 8 0b10100000 ++ bits 8 0b10101100 ++ bits 8 0b11011000 ++
        bits 8 0b11111110, some (.resp ⟨0#8, .ok, 48#32⟩), 0#3, false) ∧
    frameView 0#8 false true 0x100#16 2#16 buffer =
      (bits 8 0b11111110 ++ bits 8 0b00101010 ++ bits 8 0b10100000 ++ bits 9 0b011111001 ++ bits 8 0b10001101 ++
        bits 8 0b00000001, some (.resp ⟨0#8, .ok, 49#32⟩), 0#3, true) ∧
    frameView 0#8 false true 0#16 0#16 [] =
      (bits 8 0b11111110 ++ bits 9 0b000001111 ++ bits 10 0b1100000011 ++ bits 8 0b00000001,
        some (.resp ⟨0#8, .ok, 35#32⟩), 0#3, true) ∧
    frameView 0#8 false false 0#16 2#16 [(0, 0xFF#8), (1, 0xFF#8)] =
      (bits 8 0b11111110 ++ bits 9 0b000001111 ++ bits 10 0b1100000011 ++ bits 9 0b111100000 ++
        bits 10 0b0111111000 ++ bits 8 0b11111110, some (.resp ⟨0#8, .ok, 54#32⟩), 0#3, false) ∧
    frameView 0#8 false false 0#16 1#16 [(0, 0x7E#8)] =
      (bits 8 0b11111110 ++ bits 9 0b111111001 ++ bits 8 0b10101011 ++ bits 8 0b00110001 ++ bits 8 0b00000001,
        some (.resp ⟨0#8, .ok, 41#32⟩), 0#3, true) := by decide +kernel

/-- V-F11, P2: addresses wrap, and channel 1 starts from level 1. -/
theorem test_sendFrame_wrap :
    frameView 1#8 true false 0xFFFF#16 2#16 [(0, 0xFF#8), (0xFFFF, 0xFF#8)] =
      (bits 54 0b000000011111100000011111100000011111100000011100000001, some (.resp ⟨1#8, .ok, 54#32⟩), 0#3, true) := by
  decide +kernel

/-! ## SEND_FLAGS -/

/-- V-G1, V-G4, V-G7 on channel 0 (level 0, run 2), served from `CMD`. -/
theorem test_sendFlags_vectors :
    [0x0000000100000002#64, 0x0000000000000002#64, 0x1234000100FF0012#64].map
      (fun w => view 0#8 (step { block (engine false 2#3) (engine true 2#3) [] with cmd := [w] })) =
    [some (bits 8 0b11111110, 8#32, 0#3, false), some ([], 0#32, 2#3, false),
      some (bits 8 0b11111110, 8#32, 0#3, false)] := by decide

/-- V-G5: three flags on channel 1 (level 1), then one flush, then the response. -/
theorem test_sendFlags_finish :
    view 1#8 (step { start with cmd := [0x0000000300000122#64] }) =
      some (bits 8 0b00000001 ++ bits 8 0b00000001 ++ bits 8 0b00000001, 24#32, 0#3, true) ∧
    (∀ t, step { start with cmd := [0x0000000300000122#64] } = .next t →
      t.trace.take 3 = [.resp ⟨1#8, .ok, 24#32⟩, .flushDone 1#8, .flushAsk 1#8 (Config.adevOf 1#8)]) :=
  ⟨by decide, fun t h => by cases h; rfl⟩

/-! ## L2_SEND -/

/-- V-D1b, V-D5: the encapsulator answers 1 and 2147483647; no bit is sent and the encoding state stays. -/
theorem test_l2Send_encapsulated :
    [1#32, 0x7FFFFFFF#32].map (fun r => (nextState (step { block { engine false 3#3 with fxAnswers := [r] }
      (engine true 0#3) buffer with cmd := [0x0100000200100013#64] })).map (·.trace)) =
    [1#32, 0x7FFFFFFF#32].map (fun r => some [Event.resp ⟨0#8, .ok, r⟩, .fxqAnswer 0#8 r,
      .fxqAsk 0#8 0x100#16 2#16 16#8, .cmd 0#8]) := by decide

/-- V-D3, V-D4: the answers 0 and -2147483648 fall back, with a warning, to V-F1 and V-F2. -/
theorem test_l2Send_fallback :
    [(0#32, false, 0x100#16), (0x80000000#32, true, 0x100#16)].map (fun p =>
      let l := Lane.l2Send crcX25 0#8 ⟨buffer, []⟩
        ⟨{ engine false 3#3 with fxAnswers := [p.1] }.latch opL2Send ⟨p.2.1, false, 0#8, 16#8, 2#16, p.2.2⟩, []⟩
      ((sentLevels 0#8 l.out, l.out.head?, l.ch.stuffRun, l.ch.lineLevel), l.out.reverse.take 3)) =
    [(frameView 0#8 false false 0x100#16 2#16 buffer, [.fxqAsk 0#8 0x100#16 2#16 16#8, .fxqAnswer 0#8 0#32, .warn 0#8 1#8]),
      (frameView 0#8 false true 0x100#16 2#16 buffer,
        [.fxqAsk 0#8 0x100#16 2#16 16#8, .fxqAnswer 0#8 0x80000000#32, .warn 0#8 1#8])] := by
  decide +kernel

/-! ## Turns -/

/-- P4, R70: engine 0 is busy, so its next word waits; a bad word behind no other is answered at once (R152). -/
theorem test_acceptance_waits_and_rejects :
    nextState (step { block { engine false 0#3 with busy := true, phase := .resp } (engine true 0#3) [] with
      cmd := [0x0000000100000002#64] }) =
      some { block { engine false 0#3 with busy := true, phase := .resp } (engine true 0#3) [] with
        cmd := [0x0000000100000002#64] } ∧
    (nextState (step { start with cmd := [0x0000000100000502#64] })).map (·.trace) =
      some [.resp ⟨5#8, .badChan, 0#32⟩, .cmd 5#8] := by decide

/-- An engine that has asked for payload byte 1 of 2, at address 0 (the region wraps). -/
def reading : Channel :=
  { engine false 0#3 with busy := true, phase := .payload, op := 1#4, len := 2#16, base := 0xFFFF#16, idx := 1#17, asked := true }

/-- R50: a host write inside the read window is remembered, one outside its region is not; the byte is written either way. -/
theorem test_write_inside_window :
    [0xFFFE#16, 0xFFFF#16, 0#16, 1#16].map (fun a =>
      (nextState (step { block reading (engine true 0#3) [] with sched := [.host], host := [.write a 5#8] })).map
        fun t => (t.mem, t.channels.map (·.unstable))) =
    [some ([(0xFFFE, 5#8)], [[], []]), some ([(0xFFFF, 5#8)], [[0xFFFF#16], []]), some ([(0, 5#8)], [[0#16], []]),
      some ([(1, 5#8)], [[], []])] := by decide

/-- R175: whose reads are free: of a byte the host writes before it takes this engine's response, and of no other. -/
theorem test_writes_still_to_come :
    writesInWindow 0#8 [.offer 0#64, .write 5#16 1#8, .takeResp 1#8, .write 6#16 2#8, .takeResp 0#8, .write 7#16 3#8] =
      [5#16, 6#16] := by decide

/-- The state after the turns `ts`, from `s`. -/
def turns (s : State) (ts : List Turn) : Option State := nextState (Host.Core.run core ts.length { s with sched := ts })

/-- Engine 0 in the start flag of a frame of no bytes. -/
def opening : Channel :=
  { engine false 0#3 with busy := true, phase := .startFlag, op := 1#4, uop := some (uopCtrlWord 0#8 0x7E#8) }

/-- R103: the FCS may be asked for and answered while the start flag is sent; then FCS_WAIT is passed at once. -/
theorem test_fcs_asked_early :
    (turns (block opening (engine true 0#3) []) [.engine (.request .fcsq) 0#8, .engine (.serve .fcsq) 0#8, .uop 0#8]).map
      (fun t => (t.trace.length, t.channels.map (·.phase))) = some (10, [.fcsLo, .idle]) ∧
    (turns (block opening (engine true 0#3) []) [.uop 0#8, .engine (.request .fcsq) 0#8]).map
      (fun t => (t.trace.length, t.channels.map (·.phase))) = some (9, [.fcsWait, .idle]) := by
  constructor <;> rfl

/-- R10, R142, R143: an encapsulator's request is made once, and stays open until it is answered. -/
theorem test_fxq_request_stays_open :
    (turns (block { engine false 3#3 with busy := true, phase := .fxWait, op := 3#4, fxp := 16#8, fxAnswers := [5#32] }
        (engine true 0#3) [])
      [.engine (.serve .fxq) 0#8, .engine (.request .fxq) 0#8, .engine (.request .fxq) 0#8, .engine (.serve .flush) 0#8]).map
      (fun t => (t.trace, t.channels.map (·.phase))) = some ([.fxqAsk 0#8 0#16 0#16 16#8], [.fxWait, .idle]) := by decide

/-- R158, R176: the host waits for the response it is to take, and takes it once it is there. -/
theorem test_host_takes_response :
    [Phase.endFlag, .resp].map (fun p => (nextState (step { block { engine false 0#3 with busy := true, phase := p, op := 1#4 }
        (engine true 0#3) [] with sched := [.host], host := [.takeResp 0#8] })).map fun t => (t.trace, t.host)) =
      [some ([], [.takeResp 0#8]), some ([.resp ⟨0#8, .ok, 7#32⟩], [])] := by decide

/-! ## Witnesses: for every obligation with hypotheses, states and operands that meet all of them together -/

/-- A command for channel 0: two bytes at 0x0100, bad_fcs asked for. -/
def frame : CmdFields := ⟨true, false, 0#8, 0#8, 2#16, 0x100#16⟩

/-- SendFrameResult, SendFrameLevels, SendFrameCount, SendFrameEndState, SendFrameReadsPayloadOnceInOrder,
BadFcsComplementsOnlyTheFcs, ReceiverRecoversFrame, NoFlagInsideFrame, LargestCounts, SendFlagsResult,
SendFlagsCountAndState, IgnoredFieldsHaveNoEffect, L2SendResult: an engine with run 3 and count 7. -/
theorem test_witness_ready : start.ready frame.chan (engine false 3#3) := ⟨rfl, rfl, rfl⟩

/-- The same statements on the last channel of the block, and at the largest length (R34). -/
theorem test_witness_ready_last_channel :
    start.ready ({ frame with chan := 1#8, len := 0xFFFF#16, base := 0xFFFF#16 } : CmdFields).chan (engine true 2#3) :=
  ⟨rfl, rfl, rfl⟩

/-- EmptyFrame, and the no-flag clause of SendFlagsCountAndState. -/
theorem test_witness_length_zero :
    start.ready ({ frame with len := 0#16 } : CmdFields).chan (engine false 3#3) ∧
      ({ frame with len := 0#16 } : CmdFields).len = 0#16 := ⟨⟨rfl, rfl, rfl⟩, rfl⟩

/-- L2SendWithoutFxEqualsSendFrame, LargestCounts' first premise, and the first clause of L2SendResult. -/
theorem test_witness_fxp_zero : start.ready frame.chan (engine false 3#3) ∧ frame.fxp = 0#8 := ⟨⟨rfl, rfl, rfl⟩, rfl⟩

/-- An engine whose encapsulator will answer `r`. -/
def asked (r : Count) : Channel := { engine false 3#3 with fxAnswers := [r] }

/-- EncapsulatedPathTouchesNoEncodingState, and the second clause of L2SendResult, at the smallest and the largest success. -/
theorem test_witness_encapsulated :
    ∀ r ∈ [1#32, 0x7FFFFFFF#32],
      (block (asked r) (engine true 2#3) buffer).ready ({ frame with fxp := 1#8 } : CmdFields).chan (asked r) ∧
      ({ frame with fxp := 1#8 } : CmdFields).fxp ≠ 0#8 ∧ 0 < ((asked r).fxAnswer 0#8).toInt :=
  fun r h => ⟨⟨rfl, rfl, rfl⟩, by decide, by
    simp only [List.mem_cons, List.not_mem_nil, or_false] at h
    rcases h with rfl | rfl <;> decide⟩

/-- FallbackEqualsSendFrame, LargestCounts' second premise, and the third clause of L2SendResult, at 0, -1 and the most negative answer. -/
theorem test_witness_fallback :
    ∀ r ∈ [0#32, 0xFFFFFFFF#32, 0x80000000#32],
      (block (asked r) (engine true 2#3) buffer).ready ({ frame with fxp := 255#8 } : CmdFields).chan (asked r) ∧
      ({ frame with fxp := 255#8 } : CmdFields).fxp ≠ 0#8 ∧ ((asked r).fxAnswer 0#8).toInt ≤ 0 :=
  fun r h => ⟨⟨rfl, rfl, rfl⟩, by decide, by
    simp only [List.mem_cons, List.not_mem_nil, or_false] at h
    rcases h with rfl | rfl | rfl <;> decide⟩

/-- EncodeOfDecode: a word of each format. -/
theorem test_witness_EncodeOfDecode :
    decode (.cmd 0x0200000200100013#64) = .ok (.l2Send ⟨true, false, 0#8, 16#8, 2#16, 0x200#16⟩) ∧
    decode (.uop 0x030000#24) = .ok (.uopBit 3#8 false) := ⟨rfl, rfl⟩

/-- CommandWordsClassifiedInOrder: each clause, at the first absent channel and the last present one, with the later
clauses' causes present too. -/
theorem test_witness_CommandWordsClassifiedInOrder :
    [0x000000000100020F#64, 0x0000000001000201#64, 0x0000000000000241#64, 0x0000000000000201#64, 0x0000000000000101#64,
      0x0000000000000102#64, 0x0000000000000103#64].map
      (fun w => match classifyCmd 2 w with | .ok i => some i.chan | .error _ => none) =
    [none, none, none, none, some 1#8, some 1#8, some 1#8] := by decide

/-- ReservedUopKindRefused: a slot with `K` = 3 for channel 0. -/
theorem test_witness_ReservedUopKindRefused :
    (block { engine false 3#3 with uop := some 0x007E03#24 } (engine true 2#3) []).channel? 0#8 =
      some { engine false 3#3 with uop := some 0x007E03#24 } ∧
    (0x007E03#24 : UopWord).extractLsb' 0 2 = 3#2 ∧ (0x007E03#24 : UopWord).extractLsb' 2 6 = 0#6 := ⟨rfl, rfl, rfl⟩

/-- UopWithoutEngineRefused: the first absent channel. -/
theorem test_witness_UopWithoutEngineRefused : start.channel? 2#8 = none := rfl

/-- UopBitResult, UopCtrlResult, UopDataResult, FlagLevels, ResetAbandonsCommands, ReadWindowKeepsItsWrites: both engines, the run below 5. -/
theorem test_witness_engines :
    start.channel? 0#8 = some (engine false 3#3) ∧ (engine false 3#3).stuffRun.toNat ≤ 4 ∧
    start.channel? 1#8 = some (engine true 2#3) ∧ (engine true 2#3).stuffRun.toNat ≤ 4 := ⟨rfl, by decide, rfl, by decide⟩

/-- UopDataBitCount: the premise at the largest run, and each clause of two stuffed bits at a listed byte and beside it. -/
theorem test_witness_UopDataBitCount :
    (block (engine false 4#3) (engine true 2#3) []).channel? 0#8 = some (engine false 4#3) ∧
    (engine false 4#3).stuffRun.toNat ≤ 4 ∧
    [(1, 0xFF#8), (2, 0xFF#8), (2, 0x7F#8), (3, 0xFB#8), (3, 0xFD#8), (4, 0x3F#8), (4, 0xFD#8), (4, 0xBE#8)].map
      (fun p => stuffCount p.1 (byteBits p.2)) = [1, 2, 1, 2, 1, 2, 2, 1] := ⟨rfl, by decide, by decide⟩

/-- An engine that owes a stuffed bit in the middle of a payload byte. -/
def owing : Channel :=
  { engine false 4#3 with busy := true, phase := .payload, op := 1#4, len := 2#16, uop := some (uopDataWord 0#8 0xFF#8),
                          bitpos := 4#3, stuffPending := true }

/-- OwedStuffedBitGoesNext. -/
theorem test_witness_OwedStuffedBitGoesNext :
    (block owing (engine true 2#3) []).channel? 0#8 = some owing ∧ owing.uop = some (uopDataWord 0#8 0xFF#8) ∧
    owing.stuffPending = true := ⟨rfl, rfl, rfl⟩

/-- TransfersOnlyWhereTheRulesAsk, CommandsStayOnTheirChannel: a SEND_FLAGS with FIN on channel 1 beside engine 0. -/
theorem test_witness_command_runs :
    ∃ t, exec (.sendFlags { frame with chan := 1#8, fin := true }) start = .next t ∧
      (Instr.sendFlags { frame with chan := 1#8, fin := true }).chan ≠ 0#8 := ⟨_, rfl, by decide⟩

/-- BadWordRejectedExactly, BadWordRejectedThenAnswered: each cause, with engine 0 busy; an owed response with no word at
`CMD`, and none owed. -/
theorem test_witness_bad_word :
    start.rst = false ∧ start.sched = [] ∧
    classifyCmd (block owing (engine true 2#3) []).nchan 0x0000000000000004#64 = .error .illegalOp ∧
    classifyCmd (block owing (engine true 2#3) []).nchan 0x0000000001000001#64 = .error .rsvdBits ∧
    classifyCmd (block owing (engine true 2#3) []).nchan 0x0000000000000201#64 = .error .badChan ∧
    ({ start with rejections := [⟨5#8, .badChan, 0#32⟩, ⟨0#8, .rsvdBits, 0#32⟩] } : State).rejections[1]? =
      some ⟨0#8, .rsvdBits, 0#32⟩ ∧ start.cmd = [] ∧ start.rejections[0]? = none :=
  ⟨rfl, rfl, rfl, rfl, rfl, rfl, rfl, rfl⟩

/-- BadChannelRejected: the first absent channel. -/
theorem test_witness_BadChannelRejected :
    start.rst = false ∧ start.nchan ≤ ({ frame with chan := 2#8 } : CmdFields).chan.toNat := ⟨rfl, by decide⟩

/-- WordWaitsForItsChannel: the clause of a busy channel, and the clause of `RST`. -/
theorem test_witness_WordWaitsForItsChannel :
    classifyCmd 2 0x0000000100000002#64 = .ok (.sendFlags ⟨false, false, 0#8, 0#8, 1#16, 0#16⟩) ∧
    (block owing (engine true 2#3) []).channel? 0#8 = some owing ∧ owing.busy = true ∧
    ({ start with rst := true } : State).channel? 0#8 = some (engine false 3#3) ∧
    ({ start with rst := true } : State).rst = true := ⟨rfl, rfl, rfl, rfl, rfl⟩

/-- NothingAcceptedUnderReset. -/
theorem test_witness_NothingAcceptedUnderReset : ({ start with rst := true } : State).rst = true := rfl

/-- AcceptanceLatchesOperands, BitGranularRunEqualsAtomicCommand, StepRunsDecodedCommand: a SEND_FRAME for channel 0. -/
theorem test_witness_offered_command :
    ({ start with cmd := [0x0100000200000011#64] } : State).cmd = 0x0100000200000011#64 :: [] ∧ start.sched = [] ∧
    decodeCmd 0x0100000200000011#64 = .ok (.sendFrame frame) ∧
    classifyCmd ({ start with cmd := [0x0100000200000011#64] } : State).nchan 0x0100000200000011#64 =
      .ok (.sendFrame frame) ∧
    ({ start with cmd := [0x0100000200000011#64] } : State).ready (Instr.sendFrame frame).chan (engine false 3#3) :=
  ⟨rfl, rfl, rfl, rfl, rfl, rfl, rfl⟩

/-- StepRunsIssuedUop: a data byte issued to engine 1. -/
theorem test_witness_StepRunsIssuedUop :
    (block (engine false 3#3) { engine true 2#3 with uop := some (uopDataWord 1#8 0xF0#8) } []).channel? 1#8 =
      some { engine true 2#3 with uop := some (uopDataWord 1#8 0xF0#8) } ∧
    (engine true 2#3).bitpos = 0#3 ∧ (engine true 2#3).stuffPending = false ∧
    decodeUop (uopDataWord 1#8 0xF0#8) = .ok (.uopData 1#8 0xF0#8) ∧ (Instr.uopData 1#8 0xF0#8).chan = 1#8 :=
  ⟨rfl, rfl, rfl, rfl, rfl⟩

/-- PlacedWordRunsNext: a command word, and a `UOP` word for an engine there is. -/
theorem test_witness_PlacedWordRunsNext :
    decodeTableWord 64 0x0100000200000011 = some (.sendFrame frame) ∧
    decodeTableWord 24 0x01F002 = some (.uopData 1#8 0xF0#8) ∧
    start.channel? (Instr.uopData 1#8 0xF0#8).chan = some (engine true 2#3) := ⟨rfl, rfl, rfl⟩

/-- ResetValues: the first channel always exists. -/
theorem test_witness_ResetValues : (0#8 : ChanId).toNat < Config.nchan := Nat.succ_pos _

/-- A legal engine is one of these: idle with a run of 3. -/
theorem test_witness_IdleEngineKeepsItsState :
    start.channel? 0#8 = some (engine false 3#3) ∧ (engine false 3#3).Inv 0#8 ∧ (engine false 3#3).phase = .idle := by
  refine ⟨rfl, ⟨by decide, by decide, by decide, trivial, rfl, trivial, ⟨rfl, rfl⟩, fun _ => ⟨rfl, rfl⟩, ?_, fun _ => rfl⟩, rfl⟩
  intro h; cases h

/-- Engine 0 in the middle of the second of three flags. -/
def flagging : Channel :=
  { Channel.reset 0#8 with busy := true, phase := .flags, op := 2#4, len := 3#16, idx := 1#17, bitpos := 3#3,
                           bitsSent := 11#32, uop := some (uopCtrlWord 0#8 0x7E#8) }

/-- A block with `flagging` as engine 0 and a written buffer, whose engine 0 moves next. -/
def working : State :=
  { State.reset with channels := State.reset.channels.set 0 flagging, mem := buffer, sched := [.engine (.serve .txbit) 0#8] }

/-- Engine 0 of `working`. -/
theorem working_engine : working.channel? 0#8 = some flagging := rfl

/-- StepKeepsLegalStates, LegalStatesAlwaysStep, OneResponsePerWord, PhasesAdvanceInOrder, ReadWindowKeepsItsWrites:
`working` is legal and steps. -/
theorem test_witness_legal_state :
    working.Inv ∧ (∃ t, step working = .next t ∧ ∃ ch', t.channel? 0#8 = some ch') ∧
    (∀ ts, working.sched ≠ .assertRst :: ts) ∧ (∀ c ts, working.sched = .uop c :: ts → c.toNat < working.nchan) := by
  refine ⟨⟨by simp [working, State.reset], ?_, by decide, (by intro h; cases h)⟩, ⟨_, rfl, _, rfl⟩, ?_, ?_⟩
  · intro i ch h
    simp only [working, State.reset, List.getElem?_set] at h
    split at h
    · rename_i h0; subst h0
      split at h
      · cases h
        exact ⟨by decide, by decide, by decide, (by show 1 < 3; decide), rfl, rfl, ⟨rfl, rfl⟩, (by intro h; cases h),
          (by intro h; cases h), (by intro h; cases h)⟩
      · cases h
    · rw [getElem?_initChannels] at h
      split at h
      · cases h
        exact ⟨by simp [Channel.reset], by simp [Channel.reset], by simp [Channel.reset], trivial, rfl, trivial, ⟨rfl, rfl⟩,
          fun _ => ⟨rfl, rfl⟩, (by intro h; cases h), fun _ => rfl⟩
      · cases h
  · intro ts h; cases h
  · intro c ts h; cases h

/-- StepKeepsLineLaw: engine 0 has sent a 1, engine 1 nothing since `RST`. -/
theorem test_witness_StepKeepsLineLaw :
    ({ block (engine true 0#3) (engine (Config.lineInit 1#8) 0#3) [] with
        trace := [.txbit 0#8 true, .rst], sched := [.engine (.serve .txbit) 0#8] } : State).LineLaw ∧
    ∃ t, step { block (engine true 0#3) (engine (Config.lineInit 1#8) 0#3) [] with
        trace := [.txbit 0#8 true, .rst], sched := [.engine (.serve .txbit) 0#8] } = .next t := by
  refine ⟨?_, _, rfl⟩
  intro c ch h
  by_cases h0 : c = 0#8
  · subst h0; cases h; rfl
  · by_cases h1 : c = 1#8
    · subst h1; cases h; rfl
    · have : 2 ≤ c.toNat := by
        have a : c.toNat ≠ 0 := fun e => h0 (BitVec.eq_of_toNat_eq e)
        have b : c.toNat ≠ 1 := fun e => h1 (BitVec.eq_of_toNat_eq e)
        omega
      simp only [State.channel?, block] at h
      rw [List.getElem?_eq_none (by simpa using this)] at h
      cases h

/-- Two engines at work, engine 0 on a flag and engine 1 on a data byte of a frame. -/
def bothWorking : State :=
  block { engine false 0#3 with busy := true, phase := .flags, op := 2#4, len := 3#16, uop := some (uopCtrlWord 0#8 0x7E#8) }
    { engine true 2#3 with busy := true, phase := .payload, op := 1#4, len := 2#16, uop := some (uopDataWord 1#8 0xFF#8) }
    buffer

/-- EngineMovesStayOnTheirChannel: both of its premises. -/
theorem test_witness_EngineMovesStayOnTheirChannel :
    (1#8 : ChanId) ≠ 0#8 ∧ (∃ t, step { bothWorking with sched := [.engine (.serve .txbit) 1#8] } = .next t) ∧
    ∃ t, step { bothWorking with sched := [.uop 1#8] } = .next t := ⟨by decide, ⟨_, rfl⟩, ⟨_, rfl⟩⟩

/-- EnginesCommute. -/
theorem test_witness_EnginesCommute :
    (0#8 : ChanId) ≠ 1#8 ∧
    ∃ t, Host.Core.run core 2 { bothWorking with
      sched := [.engine (.serve .txbit) 0#8, .engine (.request .fcsq) 1#8] } = .next t :=
  ⟨by decide, ⟨_, rfl⟩⟩

/-- OnlyTheHostWritesTheBuffer: a canonical buffer with a write at the top address, and another turn. -/
theorem test_witness_OnlyTheHostWritesTheBuffer :
    start.mem.wf = true ∧ (∃ t, step { start with sched := [.host], host := [.write 0xFFFF#16 1#8] } = .next t) ∧
    (∃ t, step { start with sched := [.host], host := [.offer 0#64] } = .next t) ∧
    ¬ ((∃ ts, ({ start with sched := [.host], host := [.offer 0#64] } : State).sched = .host :: ts) ∧
      ∃ a v hs, ({ start with sched := [.host], host := [.offer 0#64] } : State).host = .write a v :: hs) :=
  ⟨by decide, ⟨_, rfl⟩, ⟨_, rfl⟩, (by rintro ⟨-, a, v, hs, h⟩; cases h)⟩

/-- An engine that reads payload byte 1 of 2 while its FCS request is open too, after a write to byte 0. -/
def disturbed : Channel := { reading with fcsAsk := .asked, unstable := [0xFFFF#16] }

/-- A block in which the host is still to write byte 1 before it takes that engine's response. -/
def disturbedBlock : State :=
  { block disturbed (engine true 2#3) [] with host := [.write 0#16 1#8, .takeResp 0#8, .write 5#16 1#8] }

/-- WriteInsideWindowMakesReadFree: both clauses, with a byte written before the read and one written after it; the write
after the response is in neither. -/
theorem test_witness_WriteInsideWindowMakesReadFree :
    disturbedBlock.channel? 0#8 = some disturbed ∧ disturbed.phase = .payload ∧ disturbed.asked = true ∧
    disturbed.fcsAsk = .asked ∧
    ∀ a, a ∈ [0xFFFF#16, 0#16] ↔ a ∈ disturbed.unstable ∨
      ∃ pre v post, disturbedBlock.host = pre ++ HostAct.write a v :: post ∧ HostAct.takeResp 0#8 ∉ pre := by
  refine ⟨rfl, rfl, rfl, rfl, fun a => ⟨fun h => ?_, ?_⟩⟩
  · simp only [List.mem_cons, List.not_mem_nil, or_false] at h
    rcases h with rfl | rfl
    · exact .inl (by simp [disturbed])
    · exact .inr ⟨[], 1#8, [.takeResp 0#8, .write 5#16 1#8], rfl, by simp⟩
  · rintro (h | ⟨pre, v, post, h, hn⟩)
    · simp only [disturbed, List.mem_singleton] at h; simp [h]
    · match pre, h, hn with
      | [], h, _ => simp only [disturbedBlock, List.nil_append, List.cons.injEq, HostAct.write.injEq] at h; simp [← h.1.1]
      | [_], h, _ => simp [disturbedBlock] at h
      | _ :: _ :: _, h, hn =>
        simp only [disturbedBlock, List.cons_append, List.cons.injEq] at h
        simp [← h.2.1] at hn

/-- An engine in a phase, with or without an open request. -/
def waiting (p : Phase) (asked : Bool) : Channel :=
  { engine false 3#3 with busy := true, phase := p, op := 3#4, fxp := 16#8, len := 2#16, asked := asked }

/-- RequestAndAnswerAreTwoTransfers: each clause; the last one with a request open, one answered, and none made. -/
theorem test_witness_RequestAndAnswerAreTwoTransfers :
    (∀ p a, (block (waiting p a) (engine true 2#3) []).channel? 0#8 = some (waiting p a)) ∧
    [(Phase.payload, false), (.fxWait, false), (.fxWait, true), (.warn, false), (.flushWait, false), (.flushWait, true)].map
      (fun q => ((waiting q.1 q.2).phase, (waiting q.1 q.2).asked, (waiting q.1 q.2).uop)) =
    [(Phase.payload, false, none), (.fxWait, false, none), (.fxWait, true, none), (.warn, false, none),
      (.flushWait, false, none), (.flushWait, true, none)] ∧
    (¬ (waiting .fxWait true).may (.request .fxq) ∧ ¬ (waiting .flushWait true).may (.request .flush) ∧
      ¬ (waiting .payload true).may (.request .fbuf) ∧
      ¬ ({ waiting .payload false with fcsAsk := .answered } : Channel).may (.request .fcsq) ∧
      ¬ (waiting .fxWait false).may (.serve .fxq) ∧ ¬ (waiting .flushWait false).may (.serve .flush)) :=
  ⟨fun _ _ => rfl, by decide, by simp [Channel.may, waiting]⟩

/-- FcsMayBeAskedEarly: asking in each of its phases, an open request with no write to come, the last payload byte,
a request open or answered, a phase that does not ask, and no request open. -/
theorem test_witness_FcsMayBeAskedEarly :
    [Phase.startFlag, .payload, .fcsWait].map (fun p => ((waiting p false).fcsAsk, (waiting p false).phase)) =
      [(.no, .startFlag), (.no, .payload), (.no, .fcsWait)] ∧
    ({ waiting .fcsWait false with fcsAsk := .asked } : Channel).fcsAsk = .asked ∧ (waiting .fcsWait false).unstable = [] ∧
    (∀ a v, HostAct.write a v ∉ (block (waiting .fcsWait false) (engine true 2#3) []).host) ∧
    reading.phase = .payload ∧ reading.idx.toNat + 1 = reading.len.toNat ∧
    [Asking.asked, .answered].map (fun k => decide (({ waiting .payload false with fcsAsk := k } : Channel).fcsAsk ≠ .no)) =
      [true, true] ∧
    ((waiting .warn false).phase ≠ .startFlag ∧ (waiting .warn false).phase ≠ .payload ∧
      (waiting .warn false).phase ≠ .fcsWait) ∧ (waiting .payload false).fcsAsk ≠ .asked :=
  ⟨by decide, rfl, rfl, (by intro a v h; cases h), rfl, rfl, by decide, by decide, by decide⟩

/-- HostTakesResponse: an engine that has its response ready, legal too, and one that has not. -/
theorem test_witness_HostTakesResponse :
    (block (waiting .resp false) (engine true 2#3) []).channel? 0#8 = some (waiting .resp false) ∧
    (waiting .resp false).phase = .resp ∧ (waiting .resp false).Inv 0#8 ∧ (waiting .fxWait true).phase ≠ .resp := by
  refine ⟨rfl, rfl, ⟨by decide, by decide, by decide, trivial, rfl, .inr (.inr rfl), ⟨rfl, by decide⟩, fun _ => ⟨rfl, rfl⟩,
    ?_, ?_⟩, by decide⟩
  · intro h; cases h
  · intro h; cases h

/-- LateAnswersAreDiscarded: an engine whose encapsulation request is open when `RST` comes. -/
theorem test_witness_LateAnswersAreDiscarded :
    (turns (block (waiting .fxWait true) (engine true 2#3) []) [.assertRst, .engine (.serve .fxq) 0#8]).map
      (fun t => (t.trace, t.rst)) = some ([.rst], true) := by rfl

end Sys2Proof.Tests
end

section
/-! Proofs of the whole-block rules of 10_state. -/

namespace Sys2Proof.Machine

/-- After reset the block has `NCHAN` engines (R9, R11). -/
@[simp] theorem State.nchan_reset : State.reset.nchan = Config.nchan := length_initChannels Config.nchan 0

/-- After reset each channel of the block holds its own reset engine (R32, R170). -/
theorem State.channel?_reset {c : ChanId} (hc : c.toNat < Config.nchan) :
    State.reset.channel? c = some (Channel.reset c) := by
  have hinit := getElem?_initChannels Config.nchan 0 c.toNat
  rwa [if_pos hc, Nat.zero_add, BitVec.ofNat_toNat, BitVec.setWidth_eq] at hinit

/-- Settles O40: channel `c` is `Channel.reset c` after reset, and R32's specified rows are its fields. -/
theorem resetValues : Obligations.ResetValues :=
  ⟨State.nchan_reset, fun c hc => ⟨Channel.reset c, State.channel?_reset hc, rfl, rfl, rfl, rfl, rfl⟩⟩

end Sys2Proof.Machine
end

section
/-! Proofs of the decoding rules of 30_encoding: the opcode table, and R153's chain of checks for a `CMD` word. -/

namespace Sys2Proof

/-- The opcodes outside the table are the reserved ones (R62). -/
theorem opcode?_eq_none_iff (op : BitVec 4) :
    opcode? op = none ↔ ¬ (op = opSendFrame ∨ op = opSendFlags ∨ op = opL2Send) := by
  unfold opcode?
  split_ifs <;> simp [*]

/-- The reserved bits are clear exactly when both reserved fields are 0 (R67). -/
theorem reservedClear_iff (w : CmdWord) :
    reservedClear w = true ↔ ¬ (w.extractLsb' 6 2 ≠ 0#2 ∨ w.extractLsb' 24 8 ≠ 0#8) := by
  simp [reservedClear]

/-- A reserved opcode is the first cause of a rejection, whatever the rest of the word holds (R153). -/
theorem classifyCmd_of_opcode?_none {nchan : Nat} {w : CmdWord} (hop : opcode? (opField w) = none) :
    classifyCmd nchan w = .error .illegalOp := by
  simp [classifyCmd, decodeCmd, hop]

/-- Under an opcode of the table, the reserved bits are checked next and the channel last (R153). -/
theorem classifyCmd_of_opcode?_some {nchan : Nat} {w : CmdWord} {mk : CmdFields → Instr}
    (hop : opcode? (opField w) = some mk) (hchan : (mk (cmdFields w)).chan = (cmdFields w).chan) :
    classifyCmd nchan w =
      if w.extractLsb' 6 2 ≠ 0#2 ∨ w.extractLsb' 24 8 ≠ 0#8 then .error .rsvdBits
      else if nchan ≤ (cmdFields w).chan.toNat then .error .badChan
      else .ok (mk (cmdFields w)) := by
  have hdec : decodeCmd w = if reservedClear w then .ok (mk (cmdFields w)) else .error .rsvdBits := by
    simp only [decodeCmd, hop]
  by_cases hr : reservedClear w = true
  · rw [if_neg ((reservedClear_iff w).mp hr), classifyCmd, hdec, if_pos hr]
    by_cases hc : nchan ≤ (cmdFields w).chan.toNat <;> simp [Instr.chanOk, hchan, hc]
  · rw [if_pos (not_not.mp (mt (reservedClear_iff w).mpr hr)), classifyCmd, hdec, if_neg hr]

/-- Settles O4: a reserved opcode is refused first; under each opcode of the table the later checks follow in order. -/
theorem commandWordsClassifiedInOrder : Obligations.CommandWordsClassifiedInOrder := by
  intro nchan w
  by_cases hop : opField w = opSendFrame ∨ opField w = opSendFlags ∨ opField w = opL2Send
  · refine Eq.trans ?_ (if_neg (not_not.mpr hop)).symm
    rcases hop with h | h | h
    · have hlow : w.extractLsb' 0 4 = 1#4 := h
      rw [classifyCmd_of_opcode?_some (mk := .sendFrame) (by rw [h]; rfl) rfl, hlow]; rfl
    · have hlow : w.extractLsb' 0 4 = 2#4 := h
      rw [classifyCmd_of_opcode?_some (mk := .sendFlags) (by rw [h]; rfl) rfl, hlow]; rfl
    · have hlow : w.extractLsb' 0 4 = 3#4 := h
      rw [classifyCmd_of_opcode?_some (mk := .l2Send) (by rw [h]; rfl) rfl, hlow]; rfl
  · exact (classifyCmd_of_opcode?_none ((opcode?_eq_none_iff _).mpr hop)).trans (if_pos hop).symm

/-- Settles O1: R73's words are fixed, so the decoder evaluates each of them to what stands beside it. -/
theorem workedWordsDecode : Obligations.WorkedWordsDecode :=
  ⟨rfl, rfl, rfl, rfl, rfl, rfl, rfl, rfl, rfl, rfl, rfl, rfl⟩

end Sys2Proof
end

section
/-! Proofs of the bit-level rules of 40_bit_level: the bit count of a UOP_DATA (R90), the stuffed stream between two
flags (R92) and its receiver (R93). -/

namespace Sys2Proof.Machine

/-! ## The bit count of one UOP_DATA (R90) -/

/-- UOP_DATA, whole: the stuffed bits of the byte go out on the engine that runs it (R87). -/
theorem exec_uopData {s : State} {c : ChanId} {ch : Channel} (x : Byte) (hch : s.channel? c = some ch)
    (hrun : ch.stuffRun.toNat ≤ 4) :
    exec (.uopData c x) s = .next (s.putLane c
      ⟨({ ch with uop := none } : Channel).dataSent (byteBits x),
        (txTransfers c ch.lineLevel (stuff ch.stuffRun.toNat (byteBits x))).reverse⟩) := by
  refine (serveUop_some (fun c l => l.sendData c x) hch).trans ?_
  simp only [Lane.sendData_eq c x ⟨{ ch with uop := none }, []⟩ hrun, List.append_nil]

/-- The stuffed bits of one byte take five 1 bits each, from at most 4 + 8. -/
theorem stuffCount_byteBits_le_two {r : Nat} (x : Byte) (hr : r ≤ 4) : stuffCount r (byteBits x) ≤ 2 := by
  have hbound := stuffCount_bound r (byteBits x) hr
  rw [length_byteBits] at hbound
  omega

/-- Two stuffed bits need ten 1 bits, so an entry run of 0 or 1 is too short; for each longer run the bytes are
enumerated, as R90 does. -/
theorem stuffCount_byteBits_eq_two_iff (r : BitVec 3) (x : Byte) (hr : r.toNat ≤ 4) :
    stuffCount r.toNat (byteBits x) = 2 ↔ (r = 2#3 ∧ x = 0xFF#8) ∨
      (r = 3#3 ∧ x ∈ [0x7F#8, 0xFB#8, 0xFF#8]) ∨
      (r = 4#3 ∧ x ∈ [0x3F#8, 0x7D#8, 0x7F#8, 0xBF#8, 0xF9#8, 0xFB#8, 0xFD#8, 0xFF#8]) := by
  have hcases : r.toNat ≤ 1 ∨ r = 2#3 ∨ r = 3#3 ∨ r = 4#3 := by bv_omega
  rcases hcases with hshort | rfl | rfl | rfl
  · have hbound := stuffCount_bound r.toNat (byteBits x) hr
    rw [length_byteBits] at hbound
    refine iff_of_false (by omega) ?_
    rintro (⟨rfl, -⟩ | ⟨rfl, -⟩ | ⟨rfl, -⟩) <;> exact absurd hshort (by decide)
  · revert x; decide
  · revert x; decide
  · revert x; decide

/-- Settles O10: the transfers are those of the stuffed byte, whose length and run `Laws/Stream` gives. -/
theorem uopDataBitCount : Obligations.UopDataBitCount := by
  intro s c ch x hch hrun
  have hlen : (stuff ch.stuffRun.toNat (byteBits x)).length = 8 + stuffCount ch.stuffRun.toNat (byteBits x) := by
    rw [length_stuff, length_byteBits]
  refine ⟨_, _, exec_uopData x hch hrun, State.channel?_putLane_self _ hch, ?_, ⟨_, ?_, ?_, rfl⟩,
    Channel.dataSent_run _ _ hrun, stuffCount_byteBits_le_two x hrun, stuffCount_byteBits_eq_two_iff _ x hrun⟩
  · rw [← hlen]; rfl
  · rw [length_nrzi, hlen]
  · rw [State.putLane_trace, sentLevels_append, sentLevels_txTransfers]

/-! ## The line during a SEND_FRAME -/

/-- On a ready channel SEND_FRAME puts the frame's raw bits on the line, NRZI-coded from the entry level (R82, R100). -/
theorem exec_sendFrame_sentLevels {s : State} {f : CmdFields} {ch : Channel} (h : s.ready f.chan ch) :
    ∃ t, exec (.sendFrame f) s = .next t ∧
      sentLevels f.chan t.trace = sentLevels f.chan s.trace ++
        nrzi ch.lineLevel (frameRaw (s.mem.region f.base f.len.toNat 0) f.bf
          (Config.fcsFn (s.mem.region f.base f.len.toNat 0))) := by
  refine ⟨_, serveCommand_ready opSendFrame _ h, ?_⟩
  rw [Lane.sendFrame_eq _ _ _ _ rfl rfl]
  simp [sentLevels_append, sentLevels_frameTransfers]

/-! ## The receiver (R93) -/

/-- Dropping the two flags of a frame leaves the raw bits between them. -/
theorem frameRaw_drop_take (payload : List Byte) (bf : Bool) (fcs : BitVec 16) :
    ((frameRaw payload bf fcs).drop 8).take ((frameRaw payload bf fcs).length - 16) = innerRaw payload bf fcs := by
  have hlen : (frameRaw payload bf fcs).length - 16 = (innerRaw payload bf fcs).length := by
    simp only [frameRaw, List.length_append, length_flagRaw]; omega
  rw [hlen, frameRaw, List.append_assoc, ← length_flagRaw, List.drop_left, List.take_left]

/-- Settles O20: each step of the receiver undoes one step of the sender, NRZI, flags, stuffing and sending order. -/
theorem receiverRecoversFrame : Obligations.ReceiverRecoversFrame := by
  intro s f ch hready
  obtain ⟨t, hexec, hlevels⟩ := exec_sendFrame_sentLevels hready
  refine ⟨t, _, hexec, hlevels, ?_⟩
  rw [length_nrzi, unNrzi_nrzi, frameRaw_drop_take, innerRaw, destuff_stuff _ _ (Nat.zero_le 4), groupBytes_bytesBits]

/-! ## The stuffed stream (R92) -/

/-- Wherever five consecutive 1 bits stand, a 0 is the next bit. -/
def FiveOnesThenZero (raw : List Bool) : Prop :=
  ∀ pre post : List Bool, raw = pre ++ List.replicate 5 true ++ post → ∃ rest, post = false :: rest

/-- Only five 1 bits at the very front are new in a stream one bit longer. -/
theorem FiveOnesThenZero.cons {b : Bool} {raw : List Bool} (h : FiveOnesThenZero raw)
    (hfront : ∀ post, b :: raw = List.replicate 5 true ++ post → ∃ rest, post = false :: rest) :
    FiveOnesThenZero (b :: raw) := by
  intro pre post heq
  cases pre with
  | nil => exact hfront post heq
  | cons a pre => exact h pre post (List.cons.inj heq).2

/-- A run of at most five 1 bits, closed by a 0, may stand in front: a shorter run has its 0 within five bits. -/
theorem FiveOnesThenZero.ones_zero {raw : List Bool} (h : FiveOnesThenZero raw) {r : Nat} (hr : r ≤ 5) :
    FiveOnesThenZero (List.replicate r true ++ false :: raw) := by
  induction r with
  | zero => exact h.cons fun post heq => by simp [List.replicate_succ] at heq
  | succ r ih =>
    refine (ih (by omega)).cons fun post heq => ?_
    have hr4 : r ≤ 4 := by omega
    interval_cases r <;> simp [List.replicate_succ] at heq
    exact ⟨raw, heq.symm⟩

/-- What makes stuffing work (R87): counting in the run of 1 bits before it, the stream never holds five without a 0. -/
theorem fiveOnesThenZero_stuff (bs : List Bool) (r : Nat) (hr : r ≤ 4) :
    FiveOnesThenZero (List.replicate r true ++ stuff r bs) := by
  induction bs generalizing r with
  | nil =>
    intro pre post heq
    have hlen := congrArg List.length heq
    simp [stuff] at hlen
    omega
  | cons b bs ih =>
    have hzero := ih 0 (Nat.zero_le 4)
    cases b with
    | false => exact hzero.ones_zero (by omega)
    | true =>
      have hmove : ∀ cs, List.replicate r true ++ true :: cs = List.replicate (r + 1) true ++ cs := by
        intro cs; rw [List.replicate_succ', List.append_assoc]; rfl
      rw [stuff]
      split_ifs with h5
      · rw [hmove]; exact hzero.ones_zero h5.le
      · rw [hmove]; exact ih (r + 1) (by omega)

theorem FiveOnesThenZero.no_six_ones {raw : List Bool} (h : FiveOnesThenZero raw) :
    ¬ List.replicate 6 true <:+: raw := by
  rintro ⟨pre, post, heq⟩
  obtain ⟨rest, hrest⟩ := h pre (true :: post) (by simp [← heq, List.replicate_succ])
  cases hrest

/-! ## The flag pattern (R92) -/

theorem byteBits_flag : byteBits 0x7E#8 = false :: (List.replicate 6 true ++ [false]) := by decide

/-- A pattern found in a stream that starts with other bits than the pattern does is found after those bits. -/
theorem isInfix_of_replicate_append {a b : Bool} (hab : a ≠ b) {pat raw : List Bool} (n : Nat)
    (h : a :: pat <:+: List.replicate n b ++ raw) : a :: pat <:+: raw := by
  induction n with
  | zero => exact h
  | succ n ih =>
    rw [List.replicate_succ, List.cons_append, List.infix_cons_iff, List.cons_prefix_cons] at h
    exact ih (h.resolve_left fun hpre => hab hpre.1)

/-- The mirror image, for a stream that ends with other bits than the pattern does. -/
theorem isInfix_of_append_replicate {a b : Bool} (hab : a ≠ b) {pat raw : List Bool} (n : Nat)
    (h : pat ++ [a] <:+: raw ++ List.replicate n b) : pat ++ [a] <:+: raw := by
  rw [← List.reverse_infix, List.reverse_concat] at h ⊢
  rw [List.reverse_append, List.reverse_replicate] at h
  exact isInfix_of_replicate_append hab n h

/-- A flag found anywhere has its six 1 bits there. -/
theorem six_ones_isInfix_of_flag {raw : List Bool} (h : byteBits 0x7E#8 <:+: raw) : List.replicate 6 true <:+: raw :=
  List.IsInfix.trans ⟨[false], [false], by decide⟩ h

/-- Both flags start and end with a 0, so a flag across a boundary would have its six 1 bits between them. -/
theorem six_ones_isInfix_of_flag_across {inner : List Bool}
    (h : byteBits 0x7E#8 <:+: (byteBits 0x7E#8).tail ++ inner ++ (byteBits 0x7E#8).dropLast) :
    List.replicate 6 true <:+: inner := by
  have hstream : (byteBits 0x7E#8).tail ++ inner ++ (byteBits 0x7E#8).dropLast =
      List.replicate 6 true ++ (List.replicate 1 false ++ (inner ++ List.replicate 1 false)) ++
        List.replicate 6 true := by
    simp [byteBits_flag, List.replicate_succ]
  rw [hstream] at h
  have hleft : byteBits 0x7E#8 <:+:
      List.replicate 6 true ++ (List.replicate 1 false ++ (inner ++ List.replicate 1 false)) :=
    isInfix_of_append_replicate (pat := false :: List.replicate 6 true) Bool.false_ne_true 6 h
  have hbetween : byteBits 0x7E#8 <:+: List.replicate 1 false ++ (inner ++ List.replicate 1 false) :=
    isInfix_of_replicate_append Bool.false_ne_true 6 hleft
  have hones : List.replicate 6 true <:+: inner ++ List.replicate 1 false :=
    isInfix_of_replicate_append Bool.false_ne_true.symm 1 (six_ones_isInfix_of_flag hbetween)
  exact isInfix_of_append_replicate (pat := List.replicate 5 true) Bool.false_ne_true.symm 1 hones

/-- Settles O21: the inner bits are stuffed from a run of 0, and a flag in or across them needs six 1 bits. -/
theorem noFlagInsideFrame : Obligations.NoFlagInsideFrame := by
  intro s f ch hready
  obtain ⟨t, hexec, hlevels⟩ := exec_sendFrame_sentLevels hready
  have hfive : FiveOnesThenZero (innerRaw (s.mem.region f.base f.len.toNat 0) f.bf
      (Config.fcsFn (s.mem.region f.base f.len.toNat 0))) := fiveOnesThenZero_stuff _ 0 (Nat.zero_le 4)
  exact ⟨t, _, hexec, hlevels, hfive, hfive.no_six_ones, mt six_ones_isInfix_of_flag hfive.no_six_ones,
    mt six_ones_isInfix_of_flag_across hfive.no_six_ones⟩

end Sys2Proof.Machine
end

section
/-! Proofs of the rules on SEND_FRAME's and SEND_FLAGS' counts and end states (41_frame_and_flags). -/

namespace Sys2Proof.Machine

/-! ## One frame, whole -/

/-- SEND_FRAME on a ready channel, whole, for the `payload` its region holds (R100, R107). -/
theorem exec_sendFrame {s : State} {f : CmdFields} {ch : Channel} (hready : s.ready f.chan ch) {payload : List Byte}
    (hpayload : s.mem.region f.base f.len.toNat 0 = payload) :
    exec (.sendFrame f) s = .next (s.popCmd.putLane f.chan
      { ch := (ch.latch opSendFrame f).afterFrame payload (Config.fcsFn payload),
        out := .resp ⟨f.chan, .ok, BitVec.ofNat 32 (frameRaw payload f.bf (Config.fcsFn payload)).length⟩ ::
          ((frameTransfers f.chan s.mem f.base f.len f.bf (Config.fcsFn payload) ch.lineLevel).reverse ++
            [.cmd f.chan]) }) := by
  subst hpayload
  refine (serveCommand_ready opSendFrame _ hready).trans ?_
  rw [Lane.sendFrame_eq _ _ _ _ rfl rfl]; rfl

/-- The two flags and the two FCS bytes make the 32 bits a frame of no bytes has at least (R106). -/
theorem length_frameRaw (payload : List Byte) (bf : Bool) (fcs : BitVec 16) :
    (frameRaw payload bf fcs).length =
      8 * payload.length + 32 + stuffCount 0 (bytesBits (payload ++ fcsBytes bf fcs)) := by
  simp only [frameRaw, innerRaw, List.length_append, length_flagRaw, length_stuff, length_bytesBits, fcsBytes,
    List.length_cons, List.length_nil]
  omega

/-- At most every fifth data bit of a frame owes a stuffed bit (R106). -/
theorem stuffCount_frame_le (payload : List Byte) (bf : Bool) (fcs : BitVec 16) :
    stuffCount 0 (bytesBits (payload ++ fcsBytes bf fcs)) ≤ 8 * (payload.length + 2) / 5 := by
  have hbound := stuffCount_bound 0 (bytesBits (payload ++ fcsBytes bf fcs)) (Nat.zero_le 4)
  simp only [length_bytesBits, fcsBytes, List.length_append, List.length_cons, List.length_nil] at hbound ⊢
  omega

/-- No frame a `LEN` field can name is long enough to wrap `bits_sent` (R34). -/
theorem toNat_frameCount {payload : List Byte} (hlen : payload.length < 2 ^ 16) (bf : Bool) (fcs : BitVec 16) :
    (BitVec.ofNat 32 (frameRaw payload bf fcs).length).toNat =
      8 * payload.length + 32 + stuffCount 0 (bytesBits (payload ++ fcsBytes bf fcs)) := by
  have hS := stuffCount_frame_le payload bf fcs
  rw [BitVec.toNat_ofNat, length_frameRaw, Nat.mod_eq_of_lt]
  omega

/-- The two flags leave the level alone, so only the bits between them move it (R86, R107). -/
theorem levelAfter_frameRaw (v : Bool) (payload : List Byte) (bf : Bool) (fcs : BitVec 16) :
    levelAfter v (frameRaw payload bf fcs) = levelAfter v (innerRaw payload bf fcs) := by
  rw [frameRaw, levelAfter_append, levelAfter_append, levelAfter_flagRaw, levelAfter_flagRaw]

/-- The levels of a frame, taken apart where the FCS begins; nothing before it depends on bad_fcs (R104). -/
theorem nrzi_frameRaw (v : Bool) (payload : List Byte) (bf : Bool) (fcs : BitVec 16) :
    nrzi v (frameRaw payload bf fcs) = nrzi v (flagRaw ++ stuff 0 (bytesBits payload)) ++
      nrzi (levelAfter v (flagRaw ++ stuff 0 (bytesBits payload)))
        (stuff (runAfter 0 (bytesBits payload)) (bytesBits (fcsBytes bf fcs)) ++ flagRaw) := by
  rw [← nrzi_append, frameRaw, innerRaw_eq]
  simp only [List.append_assoc]

/-- The `FCSQ` request and its answer are among a frame's transfers, whatever its length (R103, R108). -/
theorem fcsq_mem_frameTransfers (c : ChanId) (m : Memory) (base : Addr) (len : BitVec 16) (bf : Bool)
    (fcs : BitVec 16) (v : Bool) :
    .fcsqAsk c base len ∈ frameTransfers c m base len bf fcs v ∧
      .fcsqAnswer c fcs ∈ frameTransfers c m base len bf fcs v := by
  simp [frameTransfers]

/-- Settles O15: the response holds the number of the frame's raw bits, which does not wrap. -/
theorem sendFrameCount : Obligations.SendFrameCount := by
  intro s f ch hready
  have hcount := toNat_frameCount (payload := s.mem.region f.base f.len.toNat 0)
    (by rw [length_region]; exact f.len.isLt) f.bf (Config.fcsFn (s.mem.region f.base f.len.toNat 0))
  have hS := stuffCount_frame_le (s.mem.region f.base f.len.toNat 0) f.bf
    (Config.fcsFn (s.mem.region f.base f.len.toNat 0))
  rw [length_region] at hcount hS
  exact ⟨_, _, exec_sendFrame hready rfl, rfl, hcount, hcount.trans_le (Nat.add_le_add_left hS _)⟩

/-- Settles O16: the fields of `Channel.afterFrame`, the level without the flags that do not move it. -/
theorem sendFrameEndState : Obligations.SendFrameEndState := by
  intro s f ch hready
  have ⟨_, hch, _⟩ := hready
  exact ⟨_, _, exec_sendFrame hready rfl, State.channel?_putLane_self _ hch, rfl, rfl,
    levelAfter_frameRaw ch.lineLevel _ _ _, rfl, rfl⟩

/-- Settles O18: the frame whose payload is no bytes. -/
theorem emptyFrame : Obligations.EmptyFrame := by
  intro s f ch hready hlen
  have hpayload : s.mem.region f.base f.len.toNat 0 = [] := by rw [hlen]; rfl
  obtain ⟨hask, hanswer⟩ :=
    fcsq_mem_frameTransfers f.chan s.mem f.base f.len f.bf (Config.fcsFn []) ch.lineLevel
  obtain ⟨t, hexec, hlevels⟩ := exec_sendFrame_sentLevels hready
  rw [hpayload] at hlevels
  cases hexec.symm.trans (exec_sendFrame hready hpayload)
  refine ⟨_, _, hexec, ?_, ?_, ?_, rfl, ?_, hlevels⟩
  · simp [bufferReads_append, bufferReads_frameTransfers, hlen, payloadCells]
  · rw [hlen] at hask
    simp [hlen, hask]
  · simp [hanswer]
  · exact (toNat_frameCount (payload := []) (by decide) f.bf _).trans (by simp)

/-- Settles O19: both frames have the same payload and FCS, and the levels part only where the FCS bytes begin. -/
theorem badFcsComplementsOnlyTheFcs : Obligations.BadFcsComplementsOnlyTheFcs := by
  intro s f ch hready
  obtain ⟨t, hexecT, hgood⟩ := exec_sendFrame_sentLevels (f := { f with bf := false }) hready
  obtain ⟨u, hexecU, hbad⟩ := exec_sendFrame_sentLevels (f := { f with bf := true }) hready
  rw [nrzi_frameRaw, ← List.append_assoc] at hgood hbad
  exact ⟨t, u, hexecT, hexecU, hgood, hbad⟩

/-! ## Flags -/

/-- SEND_FLAGS on a ready channel, whole (R110, R113). -/
theorem exec_sendFlags {s : State} {f : CmdFields} {ch : Channel} (hready : s.ready f.chan ch) :
    exec (.sendFlags f) s = .next (s.popCmd.putLane f.chan
      { ch := (ch.latch opSendFlags f).afterFlags f.len.toNat,
        out := .resp ⟨f.chan, .ok, BitVec.ofNat 32 (8 * f.len.toNat)⟩ ::
          ((if f.fin then [.flushDone f.chan, .flushAsk f.chan (Config.adevOf f.chan)] else []) ++
            (txTransfers f.chan ch.lineLevel (flagsRaw f.len.toNat)).reverse ++ [.cmd f.chan]) }) := by
  refine (serveCommand_ready opSendFlags (fun c _ l => l.sendFlags c) hready).trans ?_
  rw [Lane.sendFlags_eq _ _ rfl]; rfl

/-- A flush sends no bit (R112). -/
@[simp] theorem sentLevels_flush (c : ChanId) (fin : Bool) (dev : Nat) :
    sentLevels c (if fin then [.flushDone c, .flushAsk c dev] else []) = [] := by
  cases fin <;> simp

/-- Settles O24: the fields of `Channel.afterFlags`; a count of 8 bits a flag does not wrap. -/
theorem sendFlagsCountAndState : Obligations.SendFlagsCountAndState := by
  intro s f ch hready
  have ⟨_, hch, _⟩ := hready
  refine ⟨_, _, exec_sendFlags hready, State.channel?_putLane_self _ hch, ?_, rfl, ?_, rfl, ?_⟩
  · have hlen := f.len.isLt
    exact (BitVec.toNat_ofNat ..).trans (Nat.mod_eq_of_lt (by omega))
  · simp [sentLevels_append, sentLevels_txTransfers]
  · simp [Channel.afterFlags, BitVec.toNat_eq]

end Sys2Proof.Machine
end

section
/-! Proofs of the rules on the three paths of L2_SEND (42_dispatch). -/

namespace Sys2Proof.Machine

/-! ## The three paths of the dispatcher (R130) -/

/-- With `FXP` = 0 the dispatcher is the frame encoder (R135). -/
theorem Lane.l2Send_plain (fcsFn : List Byte → BitVec 16) (c : ChanId) (fb : Fbuf) {l : Lane}
    (hfxp : l.ch.fxp = 0#8) :
    l.l2Send fcsFn c fb = l.sendFrame fcsFn c fb := by
  simp [Lane.l2Send, fxEnabled, hfxp]

/-- On success the encapsulator's answer is the response (R133). -/
theorem Lane.l2Send_encapsulated (fcsFn : List Byte → BitVec 16) (c : ChanId) (fb : Fbuf) {l : Lane}
    (hfxp : l.ch.fxp ≠ 0#8) (hans : 0 < (l.ch.fxAnswer c).toInt) :
    l.l2Send fcsFn c fb = (l.fxEncap c).respond c (l.ch.fxAnswer c) := by
  have hsucc := (fxSuccess_iff _).mpr hans
  simp [Lane.l2Send, fxEnabled, hfxp, Lane.fxEncap_eq, Channel.fxAnswered_fxres, hsucc]

/-- On failure the warning goes out and the frame encoder runs (R134). -/
theorem Lane.l2Send_fallback (fcsFn : List Byte → BitVec 16) (c : ChanId) (fb : Fbuf) {l : Lane}
    (hfxp : l.ch.fxp ≠ 0#8) (hans : (l.ch.fxAnswer c).toInt ≤ 0) :
    l.l2Send fcsFn c fb = ((l.fxEncap c).warn c).sendFrame fcsFn c fb := by
  have hfail := mt (fxSuccess_iff _).mp (not_lt.mpr hans)
  simp [Lane.l2Send, fxEnabled, hfxp, Lane.fxEncap_eq, Channel.fxAnswered_fxres, hfail]

/-! ## What the encapsulator's answer leaves alone (R131, R133) -/

@[simp] theorem Channel.fxAnswered_bitsSent (c : ChanId) (ch : Channel) : (ch.fxAnswered c).bitsSent = ch.bitsSent := by
  rw [Channel.fxAnswered_eq]
@[simp] theorem Channel.fxAnswered_stuffRun (c : ChanId) (ch : Channel) : (ch.fxAnswered c).stuffRun = ch.stuffRun := by
  rw [Channel.fxAnswered_eq]
@[simp] theorem Channel.fxAnswered_lineLevel (c : ChanId) (ch : Channel) :
    (ch.fxAnswered c).lineLevel = ch.lineLevel := by
  rw [Channel.fxAnswered_eq]
@[simp] theorem Channel.fxAnswered_bf (c : ChanId) (ch : Channel) : (ch.fxAnswered c).bf = ch.bf := by
  rw [Channel.fxAnswered_eq]
@[simp] theorem Channel.fxAnswered_len (c : ChanId) (ch : Channel) : (ch.fxAnswered c).len = ch.len := by
  rw [Channel.fxAnswered_eq]
@[simp] theorem Channel.fxAnswered_base (c : ChanId) (ch : Channel) : (ch.fxAnswered c).base = ch.base := by
  rw [Channel.fxAnswered_eq]
@[simp] theorem Channel.fxAnswered_idx (c : ChanId) (ch : Channel) : (ch.fxAnswered c).idx = ch.idx := by
  rw [Channel.fxAnswered_eq]

/-- The answer does not depend on the latches (R131, R138). -/
@[simp] theorem Channel.fxAnswer_latch (c : ChanId) (op : BitVec 4) (f : CmdFields) (ch : Channel) :
    (ch.latch op f).fxAnswer c = ch.fxAnswer c := rfl

/-! ## L2_SEND, whole -/

/-- The transfers of a frame after its acceptance, newest first: the response stands before the rest (R100). -/
def frameSent (f : CmdFields) (m : Memory) (v : Bool) : List Event :=
  let payload := m.region f.base f.len.toNat 0
  .resp ⟨f.chan, .ok, BitVec.ofNat 32 (frameRaw payload f.bf (Config.fcsFn payload)).length⟩ ::
    (frameTransfers f.chan m f.base f.len f.bf (Config.fcsFn payload) v).reverse

/-- L2_SEND with `FXP` = 0 on a ready channel, whole (R135). -/
theorem exec_l2Send_plain {s : State} {f : CmdFields} {ch : Channel} (hready : s.ready f.chan ch)
    (hfxp : f.fxp = 0#8) {payload : List Byte} (hpayload : s.mem.region f.base f.len.toNat 0 = payload) :
    exec (.l2Send f) s = .next (s.popCmd.putLane f.chan
      { ch := (ch.latch opL2Send f).afterFrame payload (Config.fcsFn payload),
        out := frameSent f s.mem ch.lineLevel ++ [.cmd f.chan] }) := by
  subst hpayload
  refine (serveCommand_ready opL2Send _ hready).trans ?_
  rw [Lane.l2Send_plain _ _ _ hfxp, Lane.sendFrame_eq _ _ _ _ rfl rfl]; rfl

/-- L2_SEND on a ready channel, whole, when the encapsulator succeeds (R133). -/
theorem exec_l2Send_encapsulated {s : State} {f : CmdFields} {ch : Channel} (hready : s.ready f.chan ch)
    (hfxp : f.fxp ≠ 0#8) (hans : 0 < (ch.fxAnswer f.chan).toInt) :
    exec (.l2Send f) s = .next (s.popCmd.putLane f.chan
      { ch := { (ch.latch opL2Send f).fxAnswered f.chan with
          busy := false, phase := .idle, asked := false, fcsAsk := .no, unstable := [] },
        out := [.resp ⟨f.chan, .ok, ch.fxAnswer f.chan⟩, .fxqAnswer f.chan (ch.fxAnswer f.chan),
          .fxqAsk f.chan f.base f.len f.fxp, .cmd f.chan] }) := by
  refine (serveCommand_ready opL2Send _ hready).trans ?_
  rw [Lane.l2Send_encapsulated _ _ _ hfxp hans, Lane.fxEncap_eq]; rfl

/-- L2_SEND on a ready channel, whole, when the encapsulator fails (R134). -/
theorem exec_l2Send_fallback {s : State} {f : CmdFields} {ch : Channel} (hready : s.ready f.chan ch)
    (hfxp : f.fxp ≠ 0#8) (hans : (ch.fxAnswer f.chan).toInt ≤ 0) {payload : List Byte}
    (hpayload : s.mem.region f.base f.len.toNat 0 = payload) :
    exec (.l2Send f) s = .next (s.popCmd.putLane f.chan
      { ch := ((ch.latch opL2Send f).fxAnswered f.chan).afterFrame payload (Config.fcsFn payload),
        out := frameSent f s.mem ch.lineLevel ++
          [.warn f.chan 0x01#8, .fxqAnswer f.chan (ch.fxAnswer f.chan), .fxqAsk f.chan f.base f.len f.fxp,
            .cmd f.chan] }) := by
  subst hpayload
  refine (serveCommand_ready opL2Send _ hready).trans ?_
  rw [Lane.l2Send_fallback _ _ _ hfxp hans, Lane.fxEncap_eq, Lane.sendFrame_eq]
  · simp [Lane.warn, Lane.emit, Config.fx25Fallback, Channel.afterFrame, frameSent]
  · rfl
  · simp [Lane.warn, Lane.emit]

/-- Settles O27: the path's transfers are four, none a bit or a read, and the answer touches no encoding state. -/
theorem encapsulatedPathTouchesNoEncodingState : Obligations.EncapsulatedPathTouchesNoEncodingState := by
  intro s f ch hready hfxp hans
  have ⟨_, hch, _⟩ := hready
  exact ⟨_, _, exec_l2Send_encapsulated hready hfxp hans, State.channel?_putLane_self _ hch,
    Channel.fxAnswered_bitsSent _ _, Channel.fxAnswered_stuffRun _ _, Channel.fxAnswered_lineLevel _ _,
    by simp, by simp, rfl⟩

/-- Settles O28: `sent` is `frameSent` on both sides, and `Channel.afterFrame` sets the encoding state from the same
entry level. -/
theorem fallbackEqualsSendFrame : Obligations.FallbackEqualsSendFrame := by
  intro s f ch hready hfxp hans
  have ⟨_, hch, _⟩ := hready
  refine ⟨_, _, _, _, frameSent f s.mem ch.lineLevel, exec_l2Send_fallback hready hfxp hans rfl,
    exec_sendFrame hready rfl, State.channel?_putLane_self _ hch, State.channel?_putLane_self _ hch,
    by simp, by simp [frameSent], ⟨_, rfl⟩, ?_, rfl, ?_⟩
  · simp [Channel.afterFrame]
  · simp [Channel.afterFrame]

/-! ## The ports of the dispatcher alone (R131, R140) -/

/-- A transfer on `FXQ` or `WARN`, the ports only the dispatcher uses (R131, R140). -/
def Event.isDispatch : Event → Bool
  | .fxqAsk _ _ _ _ => true
  | .fxqAnswer _ _ => true
  | .warn _ _ => true
  | _ => false

theorem Event.isDispatch_eq_false_iff (e : Event) : e.isDispatch = false ↔
    (∀ d b n p, e ≠ .fxqAsk d b n p) ∧ (∀ d r, e ≠ .fxqAnswer d r) ∧ (∀ d k, e ≠ .warn d k) := by
  cases e <;> simp [Event.isDispatch]

/-- The frame encoder uses neither `FXQ` nor `WARN` (R100). -/
theorem isDispatch_of_mem_frameSent {f : CmdFields} {m : Memory} {v : Bool} {e : Event}
    (he : e ∈ frameSent f m v) : e.isDispatch = false := by
  rcases List.mem_cons.mp he with rfl | he
  · rfl
  · have hcount := countP_frameTransfers Event.isDispatch (fun _ _ => rfl) (fun _ _ => rfl) (fun _ _ _ => rfl)
      (fun _ _ _ => rfl) (fun _ _ => rfl) f.chan m f.base f.len f.bf (Config.fcsFn (m.region f.base f.len.toNat 0)) v
    exact Bool.eq_false_iff.mpr (List.countP_eq_zero.mp hcount e (List.mem_reverse.mp he))

/-- Settles O29: both commands put the same lane back but for `op`, and its transfers are acceptance and a frame's. -/
theorem l2SendWithoutFxEqualsSendFrame : Obligations.L2SendWithoutFxEqualsSendFrame := by
  intro s f ch hready hfxp
  have ⟨_, hch, _⟩ := hready
  refine ⟨_, _, exec_l2Send_plain hready hfxp rfl, State.channel?_putLane_self _ hch, ?_, _, rfl, ?_⟩
  · rw [exec_sendFrame hready rfl, State.putLane_channels, List.set_set]; rfl
  · intro e he
    refine (Event.isDispatch_eq_false_iff e).mp ?_
    rcases List.mem_append.mp he with hsent | hcmd
    · exact isDispatch_of_mem_frameSent hsent
    · rw [List.mem_singleton.mp hcmd]; rfl

end Sys2Proof.Machine
end

section
/-! Proofs of the rules on rejected command words (60_exceptions). -/

namespace Sys2Proof.Machine

/-- A command for a channel the block does not have is rejected, whatever the command would have run (R154). -/
theorem serveCommand_of_channel?_none {s : State} {f : CmdFields} (op : BitVec 4) (run : ChanId → Fbuf → Lane → Lane)
    (hrst : s.rst = false) (hchan : s.channel? f.chan = none) :
    serveCommand op f run s = .next (s.reject f.chan .badChan) := by
  simp [serveCommand, hrst, hchan]

/-- Settles O33: every command runs through `serveCommand`, which rejects the word before the command has a say. -/
theorem badChannelRejected : Obligations.BadChannelRejected := by
  intro s f hrst habsent i hi
  obtain ⟨op, run, hexec⟩ := exec_command (f := f) hi
  exact (hexec s).trans
    (serveCommand_of_channel?_none op run hrst ((State.channel?_none_iff s f.chan).mpr habsent))

end Sys2Proof.Machine
end

section
/-! Proofs that the decoder and the encoder of 30_encoding undo each other (R61, R62, R64). -/

namespace Sys2Proof

/-- The decoder reads a command's word as the command of its opcode with its fields (R61, R62). -/
theorem decodeCmd_encodeCmd {op : BitVec 4} {mk : CmdFields → Instr} (hop : opcode? op = some mk) (f : CmdFields) :
    decodeCmd (encodeCmd op f) = .ok (mk f) := by
  simp only [decodeCmd, opField_encodeCmd, hop, reservedClear_encodeCmd, cmdFields_encodeCmd, if_true]

/-- The value field of a UOP_BIT word holds its bit lowest (R64). -/
theorem bitField_setWidth_ofBool (b : Bool) : bitField ((BitVec.ofBool b).setWidth 8) 0 = b := by
  cases b <;> rfl

/-- Settles O2: for each row of the opcode table, its word's fields are the ones the encoder placed. -/
theorem decodeOfEncode : Obligations.DecodeOfEncode := by
  intro i
  cases i with
  | sendFrame f => simp only [encode, decode, decodeCmd_encodeCmd (op := opSendFrame) rfl f]
  | sendFlags f => simp only [encode, decode, decodeCmd_encodeCmd (op := opSendFlags) rfl f]
  | l2Send f => simp only [encode, decode, decodeCmd_encodeCmd (op := opL2Send) rfl f]
  | uopBit uch b =>
    simp only [encode, decode, decodeUop, decodeUopFields_bit, uopInstr, bitField_setWidth_ofBool]
  | uopCtrl uch x => simp only [encode, decode, decodeUop, decodeUopFields_ctrl, uopInstr]
  | uopData uch x => simp only [encode, decode, decodeUop, decodeUopFields_data, uopInstr]

/-- A command word that decodes has clear reserved bits (R67). -/
theorem reservedClear_of_decodeCmd {w : CmdWord} {i : Instr} (h : decodeCmd w = .ok i) : reservedClear w = true := by
  by_contra hr
  cases hop : opcode? (opField w) <;> simp [decodeCmd, hop, hr] at h

theorem encode_of_decodeCmd {w : CmdWord} {i : Instr} (h : decodeCmd w = .ok i) : encode i = .cmd w := by
  have hw := encodeCmd_fields w (reservedClear_of_decodeCmd h)
  rcases Machine.decodeCmd_cases h with ⟨rfl, hop⟩ | ⟨rfl, hop⟩ | ⟨rfl, hop⟩ <;> rw [encode, ← hop, hw]

/-- What a micro-operation word that decodes holds in each field (R64). -/
theorem decodeUopFields_cases {w : UopWord} {u : UopKind × ChanId × Byte} (h : decodeUopFields w = .ok u) :
    w.extractLsb' 2 6 = 0#6 ∧ u.2 = (w.extractLsb' 16 8, w.extractLsb' 8 8) ∧
      (u.1 = .bit ∧ w.extractLsb' 0 2 = 0#2 ∧ (w.extractLsb' 8 8).extractLsb' 1 7 = 0#7 ∨
        u.1 = .ctrl ∧ w.extractLsb' 0 2 = 1#2 ∨ u.1 = .data ∧ w.extractLsb' 0 2 = 2#2) := by
  unfold decodeUopFields at h
  dsimp only at h
  split_ifs at h with hz hk0 hv hk1 hk2 <;> cases h <;> simp_all

/-- A byte above whose lowest bit all are 0 is that bit (R64). -/
theorem setWidth_ofBool_bitField {x : Byte} (h : x.extractLsb' 1 7 = 0#7) :
    (BitVec.ofBool (bitField x 0)).setWidth 8 = x := by
  revert x; decide

theorem encode_of_decodeUop {w : UopWord} {i : Instr} (h : decodeUop w = .ok i) : encode i = .uop w := by
  cases hu : decodeUopFields w with
  | error e => simp [decodeUop, hu] at h
  | ok u =>
    obtain ⟨k, uch, x⟩ := u
    obtain ⟨hz, hfields, hkind⟩ := decodeUopFields_cases hu
    have hw := encodeUop_fields w hz
    simp only [decodeUop, hu, Except.ok.injEq] at h
    cases hfields
    rcases hkind with ⟨rfl, hk, hv⟩ | ⟨rfl, hk⟩ | ⟨rfl, hk⟩ <;> rw [hk] at hw <;> subst h
    · rw [uopInstr, encode, uopBitWord, setWidth_ofBool_bitField hv, hw]
    · rw [uopInstr, encode, uopCtrlWord, hw]
    · rw [uopInstr, encode, uopDataWord, hw]

/-- Settles O3: a decoded word of either format is put together again from the fields the decoder read. -/
theorem encodeOfDecode : Obligations.EncodeOfDecode := by
  intro w i h
  cases w with
  | cmd w =>
    cases hw : decodeCmd w with
    | error st => simp [decode, hw] at h
    | ok j => simp only [decode, hw, Except.ok.injEq] at h; subst h; exact encode_of_decodeCmd hw
  | uop w =>
    cases hw : decodeUop w with
    | error e => simp [decode, hw] at h
    | ok j => simp only [decode, hw, Except.ok.injEq] at h; subst h; exact encode_of_decodeUop hw

end Sys2Proof
end

section
/-! What one step of the block can do, said once, and the invariants every step keeps: the legal states (10_state R24
to R27; 30_encoding R64) and the line law (10_state R22; 40_bit_level R82). -/

namespace Sys2Proof.Machine

/-! ## One step -/

/-- The block with its next turn taken off the schedule (R52). -/
def State.popTurn (s : State) : State := { s with sched := s.sched.tail }

@[simp] theorem State.popTurn_channels (s : State) : s.popTurn.channels = s.channels := rfl
@[simp] theorem State.popTurn_mem (s : State) : s.popTurn.mem = s.mem := rfl
@[simp] theorem State.popTurn_cmd (s : State) : s.popTurn.cmd = s.cmd := rfl
@[simp] theorem State.popTurn_rejections (s : State) : s.popTurn.rejections = s.rejections := rfl
@[simp] theorem State.popTurn_rst (s : State) : s.popTurn.rst = s.rst := rfl
@[simp] theorem State.popTurn_host (s : State) : s.popTurn.host = s.host := rfl
@[simp] theorem State.popTurn_trace (s : State) : s.popTurn.trace = s.trace := rfl
@[simp] theorem State.channel?_popTurn (s : State) (c : ChanId) : s.popTurn.channel? c = s.channel? c := rfl

/-- With nothing scheduled the head of `CMD` is served (R183). -/
theorem step_of_sched_nil {s : State} (h : s.sched = []) : step s = serveHead s.popTurn := by
  obtain ⟨channels, mem, cmd, rejections, rst, host, sched, trace⟩ := s
  subst h; rfl

theorem step_of_sched_cons {s : State} {turn : Turn} {ts : List Turn} (h : s.sched = turn :: ts) :
    step s = takeTurn turn s.popTurn := by
  simp only [step, h, State.popTurn, List.tail_cons]

/-- The schedule's next turn is engine `c`'s: a handshake, or the micro-operation in its slot (R80). -/
def State.TurnOf (c : ChanId) (s : State) : Prop := (∃ m ts, s.sched = .engine m c :: ts) ∨ ∃ ts, s.sched = .uop c :: ts

/-- Everything a step that answers a next state can do (R52, R70, R80, R158, R170), each with the turn that does it. -/
inductive StepTo (s : State) : State → Prop where
  /-- The turn's agent waits, or has nothing to do. -/
  | waits : StepTo s s.popTurn
  /-- The word at `CMD` is rejected, and answered at once (R152). -/
  | rejects (c : ChanId) (st : Status) (hrst : s.rst = false) : StepTo s (s.popTurn.reject c st)
  /-- A command runs whole (R183). -/
  | runs {f : CmdFields} {i : Instr} {ch : Channel} {t : State} (hi : i ∈ commandsOf f)
      (hready : s.popTurn.ready f.chan ch) (hexec : exec i s.popTurn = .next t) : StepTo s t
  /-- The word at `CMD` is rejected, and its response is owed (R152, R158). -/
  | owes (c : ChanId) (st : Status) : StepTo s (s.popTurn.rejectLater c st)
  /-- A command is accepted (R70). -/
  | accepts {ts : List Turn} {w : CmdWord} {i : Instr} {ch : Channel} (hsched : s.sched = .accept :: ts)
      (hdec : decodeCmd w = .ok i) (hready : s.popTurn.ready i.chan ch) :
      StepTo s (s.popTurn.popCmd.putLane i.chan ⟨ch.start i.chan i, [.cmd i.chan]⟩)
  /-- An engine and a collaborator make a handshake (R10, R80). -/
  | moves {m : Move} {c : ChanId} {ch : Channel} {l : Lane} (hturn : s.TurnOf c) (hch : s.channel? c = some ch)
      (hmove : engineMove Config.fcsFn m c (s.popTurn.fbuf c ch) ch = .ok l) : StepTo s (s.popTurn.putLane c l)
  /-- A micro-operation runs whole (R60, R64). -/
  | runsUop {c : ChanId} {ch : Channel} {w : UopWord} {k : UopKind} {x : Byte} (hturn : s.TurnOf c)
      (hch : s.channel? c = some ch) (hslot : ch.uop = some w) (hword : slotWord c w = .ok (k, x))
      (hpos : ch.bitpos = 0#3) (howed : ch.stuffPending = false) : StepTo s (s.popTurn.putLane c (uopLane c k x ch))
  /-- The host offers a word (R10). -/
  | offers (w : CmdWord) (hs : List HostAct) : StepTo s { s.popTurn with host := hs, cmd := s.cmd ++ [w] }
  /-- The host writes a byte (R40). -/
  | writes {ts : List Turn} {a : Addr} {v : Byte} {hs : List HostAct} (hsched : s.sched = .host :: ts)
      (hhost : s.host = .write a v :: hs) : StepTo s (State.hostWrite a v { s.popTurn with host := hs })
  /-- The host takes the response of an engine (R14). -/
  | responds {ts : List Turn} {c : ChanId} {hs : List HostAct} {ch : Channel} (hsched : s.sched = .host :: ts)
      (hhost : s.host = .takeResp c :: hs) (hch : s.channel? c = some ch) (hphase : ch.phase = .resp) :
      StepTo s (State.putLane c (Lane.respond c ch.respCount ⟨ch, []⟩) { s.popTurn with host := hs })
  /-- The host takes an owed rejection (R158). -/
  | answers {k : Nat} {r : Resp} (hs : List HostAct) (hrej : s.rejections[k]? = some r) :
      StepTo s { s.popTurn with host := hs, rejections := s.rejections.eraseIdx k, trace := .resp r :: s.trace }
  /-- `RST` is asserted (R170). -/
  | assertsRst {ts : List Turn} (hsched : s.sched = .assertRst :: ts) : StepTo s s.popTurn.assertRst
  /-- `RST` is released (R174). -/
  | releasesRst : StepTo s { s.popTurn with rst := false }

theorem StepTo.of_serveHead {s t : State} (h : serveHead s.popTurn = .next t) : StepTo s t := by
  rcases serveHead_cases s.popTurn with hw | ⟨c, st, hrst, -, hr⟩ | ⟨f, i, ch, hi, -, hready, he⟩
  · cases h.symm.trans hw; exact .waits
  · cases h.symm.trans hr; exact .rejects c st hrst
  · exact .runs hi hready (he.symm.trans h)

theorem StepTo.of_acceptHead {s : State} {ts : List Turn} (hsched : s.sched = .accept :: ts) :
    StepTo s (acceptHead s.popTurn) := by
  rcases acceptHead_cases s.popTurn with h | ⟨c, st, -, h⟩ | ⟨w, ws, i, ch, -, hcl, hready, h⟩ <;> rw [h]
  · exact .waits
  · exact .owes c st
  · exact .accepts hsched (classifyCmd_ok hcl).1 hready

theorem StepTo.of_engineTurn {s t : State} {m : Move} {c : ChanId} (hturn : s.TurnOf c)
    (h : engineTurn Config.fcsFn m c s.popTurn = .next t) : StepTo s t := by
  rcases engineTurn_next h with ⟨-, rfl⟩ | ⟨ch, l, hch, hl, rfl⟩
  · exact .waits
  · exact .moves hturn hch hl

theorem StepTo.of_uopTurn {s t : State} {c : ChanId} (hturn : s.TurnOf c)
    (h : uopTurn Config.fcsFn c s.popTurn = .next t) : StepTo s t := by
  rcases uopTurn_next h with rfl | hbit | ⟨ch, w, k, x, hch, hslot, hword, hpos, howed, rfl⟩
  · exact .waits
  · exact .of_engineTurn hturn hbit
  · exact .runsUop hturn hch hslot hword hpos howed

theorem StepTo.of_hostTurn {s : State} {ts : List Turn} (hsched : s.sched = .host :: ts) :
    StepTo s (hostTurn s.popTurn) := by
  rcases hostTurn_cases s.popTurn with h | ⟨w, hs, -, h⟩ | ⟨a, v, hs, hhost, h⟩ | ⟨c, hs, ch, hhost, hch, hp, h⟩ |
    ⟨k, r, hs, -, hr, h⟩ <;> rw [h]
  · exact .waits
  · exact .offers w hs
  · exact .writes hsched hhost
  · exact .responds hsched hhost hch hp
  · exact .answers hs hr

/-- Every step that answers a next state is one of these. -/
theorem step_cases {s t : State} (h : step s = .next t) : StepTo s t := by
  cases hsched : s.sched with
  | nil => exact .of_serveHead ((step_of_sched_nil hsched).symm.trans h)
  | cons turn ts =>
    rw [step_of_sched_cons hsched] at h
    cases turn with
    | command => exact .of_serveHead h
    | accept => cases h; exact .of_acceptHead hsched
    | engine m c => exact .of_engineTurn (.inl ⟨m, ts, hsched⟩) h
    | uop c => exact .of_uopTurn (.inr ⟨ts, hsched⟩) h
    | host => cases h; exact .of_hostTurn hsched
    | assertRst => cases h; exact .assertsRst hsched
    | releaseRst => cases h; exact .releasesRst

/-! ## Engines after a host write and under `RST` -/

theorem State.channel?_hostWrite (a : Addr) (v : Byte) (s : State) (c : ChanId) :
    (s.hostWrite a v).channel? c = (s.channel? c).map (Channel.sawWrite a) := by
  simp [State.channel?]

theorem State.channel?_assertRst (s : State) (c : ChanId) :
    s.assertRst.channel? c = (s.channel? c).map (Channel.afterRst c) := by
  simp [State.channel?, getElem?_resetChannels]

@[simp] theorem Channel.sawWrite_lineLevel (a : Addr) (ch : Channel) : (ch.sawWrite a).lineLevel = ch.lineLevel := by
  unfold Channel.sawWrite; split <;> rfl

@[simp] theorem Channel.sawWrite_phase (a : Addr) (ch : Channel) : (ch.sawWrite a).phase = ch.phase := by
  unfold Channel.sawWrite; split <;> rfl

@[simp] theorem Channel.sawWrite_busy (a : Addr) (ch : Channel) : (ch.sawWrite a).busy = ch.busy := by
  unfold Channel.sawWrite; split <;> rfl

/-! ## Legal states -/

/-- An engine under `RST` is legal, whatever its environment holds (R32, R138, R170). -/
theorem Channel.inv_afterRst (c : ChanId) (ch : Channel) : (ch.afterRst c).Inv c := by
  constructor <;> simp [Channel.afterRst, Channel.reset, slotLegal, phaseOp, phaseSent, requestsLegal]

/-- A reset engine is legal (R32). -/
theorem Channel.inv_reset (c : ChanId) : (Channel.reset c).Inv c := Channel.inv_afterRst c (Channel.reset c)

theorem State.Inv.popTurn {s : State} (h : s.Inv) : s.popTurn.Inv := h.of_eq rfl rfl (.inl rfl)

/-- What the host does from here on does not matter for legality (R10). -/
theorem State.Inv.withHost {s : State} (h : s.Inv) (hs : List HostAct) : ({ s with host := hs } : State).Inv :=
  h.of_eq rfl rfl (.inl rfl)

/-- A host write keeps a legal block legal: the byte's canonical form, and each engine with the write recorded. -/
theorem State.Inv.hostWrite {s : State} (h : s.Inv) (a : Addr) (v : Byte) : (s.hostWrite a v).Inv where
  count := by simpa using h.count
  channels i ch hi := by
    rw [State.hostWrite_channels, List.getElem?_map, Option.map_eq_some_iff] at hi
    obtain ⟨ch', hch', rfl⟩ := hi
    exact (h.channels i ch' hch').sawWrite a
  mem := Memory.wf_set s.mem a v h.mem
  rst hrst ch hmem := by
    rw [State.hostWrite_channels, List.mem_map] at hmem
    obtain ⟨ch', hch', rfl⟩ := hmem
    rw [Channel.sawWrite_phase]
    exact h.rst hrst ch' hch'

/-- Asserting `RST` leaves a legal block (R170). -/
theorem State.Inv.assertRst {s : State} (h : s.Inv) : s.assertRst.Inv where
  count := by simpa using h.count
  channels i ch hi := by
    rw [State.assertRst_channels, getElem?_resetChannels, Option.map_eq_some_iff, Nat.zero_add] at hi
    obtain ⟨ch', -, rfl⟩ := hi
    exact Channel.inv_afterRst _ ch'
  mem := h.mem
  rst _ ch hmem := by
    obtain ⟨i, hi⟩ := List.mem_iff_getElem?.mp hmem
    rw [State.assertRst_channels, getElem?_resetChannels, Option.map_eq_some_iff] at hi
    obtain ⟨ch', -, rfl⟩ := hi
    rfl

/-- Under `RST` a legal engine is idle, and a lawful handshake leaves it so (R170). -/
theorem State.Inv.putLane_lawful {s : State} {c : ChanId} {ch : Channel} {l : Lane} (h : s.Inv)
    (hch : s.channel? c = some ch) (hl : Lane.Lawful c ch l) : (s.putLane c l).Inv :=
  h.putLane hch hl.1 fun hrst => hl.stays_idle (h.rst hrst ch (List.mem_of_getElem? hch))

/-- A handshake of a legal engine is lawful. -/
theorem lawful_of_engineMove {fcsFn : List Byte → BitVec 16} {m : Move} {c : ChanId} {fb : Fbuf} {ch : Channel}
    {l : Lane} (h : ch.Inv c) (hmove : engineMove fcsFn m c fb ch = .ok l) : Lane.Lawful c ch l := by
  obtain ⟨l', hl', hlaw⟩ := engineMove_lawful (fcsFn := fcsFn) (fb := fb) h m
  cases hmove.symm.trans hl'
  exact hlaw

theorem State.ready.not_rst {s : State} {c : ChanId} {ch : Channel} (h : s.ready c ch) : s.rst ≠ true := by
  simp [h.1]

/-- Settles O44: each thing a step can do keeps every engine legal, by the law of that operation. -/
theorem stepKeepsLegalStates : Obligations.StepKeepsLegalStates := by
  intro s t h hstep
  have hu := h.popTurn
  cases step_cases hstep with
  | waits => exact hu
  | rejects c st hrst => exact hu.of_eq rfl rfl (.inl rfl)
  | runs hi hready hexec =>
    obtain ⟨l, hl, hinv, -, hphase, -⟩ := exec_command_lawful hi hready (hu.channel hready.2.1)
    cases hexec.symm.trans hl
    exact (hu.of_eq (t := s.popTurn.popCmd) rfl rfl (.inl rfl)).putLane hready.2.1 hinv fun _ => hphase
  | owes c st => exact hu.of_eq rfl rfl (.inl rfl)
  | accepts hsched hdec hready =>
    obtain ⟨hi, hchan⟩ := decodeCmd_mem hdec
    obtain ⟨hinv, -⟩ := Channel.Inv.start hi (hu.channel hready.2.1)
    exact (hu.of_eq (t := s.popTurn.popCmd) rfl rfl (.inl rfl)).putLane hready.2.1 hinv
      fun hrst => absurd hrst hready.not_rst
  | moves hturn hch hmove => exact hu.putLane_lawful hch (lawful_of_engineMove (h.channel hch) hmove)
  | runsUop hturn hch hslot hword hpos howed =>
    exact hu.putLane_lawful hch (uopLane_lawful (h.channel hch) hslot hword hpos howed)
  | offers w hs => exact hu.of_eq rfl rfl (.inl rfl)
  | writes hsched hhost => exact (hu.withHost _).hostWrite _ _
  | responds hsched hhost hch hphase =>
    exact (hu.withHost _).putLane hch (Lane.respond_inv _ (h.channel hch) hphase) fun _ => rfl
  | answers hs hrej => exact hu.of_eq rfl rfl (.inl rfl)
  | assertsRst hsched => exact hu.assertRst
  | releasesRst => exact hu.of_eq rfl rfl (.inr rfl)

/-! ## The line law -/

/-- The line law speaks of the engines, and of the trace only through the levels sent. -/
theorem State.LineLaw.of_eq {s t : State} (h : s.LineLaw) (hc : t.channels = s.channels)
    (ht : ∀ c, lastLevel c t.trace = lastLevel c s.trace) : t.LineLaw := by
  intro c ch hch
  rw [ht]
  exact h c ch (by rwa [State.channel?, hc] at hch)

theorem State.LineLaw.withHost {s : State} (h : s.LineLaw) (hs : List HostAct) :
    ({ s with host := hs } : State).LineLaw :=
  h.of_eq rfl fun _ => rfl

/-- Putting back an engine whose level is the one it sent last keeps the law (R22, R23). -/
theorem State.LineLaw.putLane {s : State} {c : ChanId} {ch : Channel} {l : Lane} (h : s.LineLaw)
    (hch : s.channel? c = some ch) (hl : l.Tracks c ch.lineLevel) : (s.putLane c l).LineLaw := by
  obtain ⟨hon, hlevel⟩ := hl
  intro d dh hd
  by_cases hcd : c = d
  · subst hcd
    cases (State.channel?_putLane_self l hch).symm.trans hd
    rw [State.putLane_trace, lastLevel_append c _ _ hon, hlevel, h c ch hch]
    cases lastLevel c l.out <;> rfl
  · rw [State.channel?_putLane_ne l hcd] at hd
    rw [State.putLane_trace, lastLevel_append_ne c d _ _ hcd hon]
    exact h d dh hd

theorem State.LineLaw.hostWrite {s : State} (h : s.LineLaw) (a : Addr) (v : Byte) : (s.hostWrite a v).LineLaw := by
  intro c ch hch
  rw [State.channel?_hostWrite, Option.map_eq_some_iff] at hch
  obtain ⟨ch', hch', rfl⟩ := hch
  rw [Channel.sawWrite_lineLevel]
  exact h c ch' hch'

/-- Under `RST` every level is `LINE_INIT`, whatever was sent before (R170). -/
theorem State.lineLaw_assertRst (s : State) : s.assertRst.LineLaw := by
  intro c ch hch
  rw [State.channel?_assertRst, Option.map_eq_some_iff] at hch
  obtain ⟨ch', -, rfl⟩ := hch
  rfl

/-- Acceptance sends no bit and leaves the level (R70). -/
theorem Channel.start_tracks (c : ChanId) (ch : Channel) (i : Instr) :
    Lane.Tracks c ch.lineLevel ⟨ch.start c i, [.cmd c]⟩ := by
  simp [Lane.Tracks, Event.on, lastLevel, Channel.start_lineLevel]

/-- Settles O46: each lane put back tracks its own level, and what is no lane sends no bit. -/
theorem stepKeepsLineLaw : Obligations.StepKeepsLineLaw := by
  intro s t h hstep
  have hu : s.popTurn.LineLaw := h.of_eq rfl fun _ => rfl
  cases step_cases hstep with
  | waits => exact hu
  | rejects c st hrst => exact hu.of_eq rfl fun _ => rfl
  | runs hi hready hexec =>
    obtain ⟨l, hl, htracks⟩ := exec_command_ready hi hready
    cases hexec.symm.trans hl
    exact (hu.of_eq (t := s.popTurn.popCmd) rfl fun _ => rfl).putLane hready.2.1 htracks
  | owes c st => exact hu.of_eq rfl fun _ => rfl
  | accepts hsched hdec hready =>
    exact (hu.of_eq (t := s.popTurn.popCmd) rfl fun _ => rfl).putLane hready.2.1 (Channel.start_tracks _ _ _)
  | moves hturn hch hmove => exact hu.putLane hch (engineMove_tracks hmove)
  | runsUop hturn hch hslot hword hpos howed => exact hu.putLane hch (uopLane_tracks _ _ _ _)
  | offers w hs => exact hu.of_eq rfl fun _ => rfl
  | writes hsched hhost => exact (hu.withHost _).hostWrite _ _
  | responds hsched hhost hch hphase =>
    exact (hu.withHost _).putLane hch ((Lane.Tracks.start _ _).respond _)
  | answers hs hrej => exact hu.of_eq rfl fun _ => rfl
  | assertsRst hsched => exact State.lineLaw_assertRst _
  | releasesRst => exact hu.of_eq rfl fun _ => rfl

/-- Settles O43: every engine is a reset engine, and none has sent a bit. -/
theorem resetIsLegal : Obligations.ResetIsLegal := by
  have hreset : ∀ (i : Nat) (ch : Channel), State.reset.channels[i]? = some ch →
      ch = Channel.reset (BitVec.ofNat 8 i) := by
    intro i ch hi
    rw [State.reset, getElem?_initChannels] at hi
    split at hi
    · simpa using hi.symm
    · cases hi
  refine ⟨⟨length_initChannels _ _, fun i ch hi => ?_, rfl, fun h => ?_⟩, fun c ch hch => ?_⟩
  · rw [hreset i ch hi]; exact Channel.inv_reset _
  · cases h
  · have hc := hreset c.toNat ch hch
    rw [BitVec.ofNat_toNat, BitVec.setWidth_eq] at hc
    rw [hc]; rfl

end Sys2Proof.Machine
end

section
/-! Proofs of the rules on the micro-operations' results (40_bit_level R81, R84, R86, R87). -/

namespace Sys2Proof.Machine

/-- UOP_CTRL, whole: the eight bits of its byte go out unstuffed (R84). -/
theorem exec_uopCtrl {s : State} {c : ChanId} {ch : Channel} (x : Byte) (hch : s.channel? c = some ch) :
    exec (.uopCtrl c x) s = .next (s.putLane c
      ⟨{ ({ ch with uop := none } : Channel).lined (byteBits x) with stuffRun := 0#3 },
        (txTransfers c ch.lineLevel (byteBits x)).reverse⟩) := by
  refine (serveUop_some (fun c l => l.sendCtrl c x) hch).trans ?_
  simp only [Lane.sendCtrl_eq, List.append_nil]

/-- Settles O6: every micro-operation runs through `serveUop`, which refuses a channel that has no engine. -/
theorem uopWithoutEngineRefused : Obligations.UopWithoutEngineRefused := fun _ _ habsent =>
  ⟨fun b => serveUop_none (fun c l => l.sendBit c b) habsent,
    fun x => serveUop_none (fun c l => l.sendCtrl c x) habsent,
    fun x => serveUop_none (fun c l => l.sendData c x) habsent⟩

/-- Settles O7: `Lane.sendBit` on the engine with its slot emptied. -/
theorem uopBitResult : Obligations.UopBitResult := fun _ _ _ b hch => serveUop_some (fun c l => l.sendBit c b) hch

/-- Settles O8: the byte's bits are on the line as `Channel.lined` says, and there are eight. -/
theorem uopCtrlResult : Obligations.UopCtrlResult := fun _ _ _ x hch => exec_uopCtrl x hch

/-- Settles O9: the byte's stuffed bits are on the line as `Channel.dataSent` says. -/
theorem uopDataResult : Obligations.UopDataResult := fun _ _ _ x hch hrun => exec_uopData x hch hrun

/-- The flag octet toggles the line, holds it for six bits, and toggles it again (R86). -/
theorem nrzi_flag (v : Bool) : nrzi v (byteBits 0x7E#8) = List.replicate 7 (!v) ++ [v] := by
  cases v <;> decide

/-- Settles O11: the transfers of a UOP_CTRL of the flag octet, which toggles the level twice. -/
theorem flagLevels : Obligations.FlagLevels := by
  intro s c ch hch
  refine ⟨_, _, exec_uopCtrl _ hch, State.channel?_putLane_self _ hch, levelAfter_flagRaw _, rfl, ?_⟩
  rw [State.putLane_trace, sentLevels_append, sentLevels_txTransfers, nrzi_flag, List.append_assoc]

end Sys2Proof.Machine
end

section
/-! Proofs of the rules on what each command does, whole (41_frame_and_flags R100, R110; 42_dispatch R130), on the
fields it ignores (30_encoding R63) and on the ports it uses. -/

namespace Sys2Proof.Machine

/-! ## Results -/

/-- Settles O13: `Channel.afterFrame` and the frame's transfers, put back into the block. -/
theorem sendFrameResult : Obligations.SendFrameResult := by
  intro s f ch hready
  refine (exec_sendFrame hready rfl).trans (congrArg Host.Outcome.next ?_)
  simp [State.putLane, opSendFrame]

/-- Settles O14: the levels of a frame are those of its raw bits. -/
theorem sendFrameLevels : Obligations.SendFrameLevels := fun _ _ _ hready => exec_sendFrame_sentLevels hready

/-- The payload's cells are those at `base`, `base + 1`, ..., in that order (R41, R42). -/
theorem payloadCells_eq_map (m : Memory) (base : Addr) (n i : Nat) :
    payloadCells m base n i = (List.range' i n).map fun j => (ea base j, m.byteAt (ea base j)) := by
  induction n generalizing i with
  | zero => rfl
  | succ n ih => rw [payloadCells, ih, List.range'_succ, List.map_cons]

/-- Settles O17: the reads of a frame's transfers are the payload's cells. -/
theorem sendFrameReadsPayloadOnceInOrder : Obligations.SendFrameReadsPayloadOnceInOrder := by
  intro s f ch hready
  refine ⟨_, exec_sendFrame hready rfl, ?_⟩
  rw [List.range_eq_range']
  simp [bufferReads_append, bufferReads_frameTransfers, payloadCells_eq_map, ea]

/-- Settles O23: `Channel.afterFlags` and the flags' transfers, put back into the block. -/
theorem sendFlagsResult : Obligations.SendFlagsResult := by
  intro s f ch hready
  refine (exec_sendFlags hready).trans (congrArg Host.Outcome.next ?_)
  simp [State.putLane, opSendFlags, txTransfers]

/-- The encapsulator's answer leaves the requests and the read window as acceptance set them (R70, R131). -/
theorem Channel.fxAnswered_latch_responded (c : ChanId) (op : BitVec 4) (f : CmdFields) (ch : Channel) :
    { (ch.latch op f).fxAnswered c with busy := false, phase := .idle, asked := false, fcsAsk := .no, unstable := [] } =
      { (ch.latch op f).fxAnswered c with busy := false, phase := .idle } := by
  rw [Channel.fxAnswered_eq]; rfl

/-- Settles O26: the dispatcher's three paths, each with its lane put back. -/
theorem l2SendResult : Obligations.L2SendResult := by
  intro s f ch hready
  dsimp only
  split_ifs with hfxp hans
  · refine (exec_l2Send_plain hready hfxp rfl).trans (congrArg Host.Outcome.next ?_)
    simp [State.putLane, opL2Send, frameSent]
  · refine (exec_l2Send_encapsulated hready hfxp hans).trans (congrArg Host.Outcome.next ?_)
    rw [Channel.fxAnswered_latch_responded]; rfl
  · refine (exec_l2Send_fallback hready hfxp (not_lt.mp hans) rfl).trans (congrArg Host.Outcome.next ?_)
    simp [State.putLane, opL2Send, frameSent]

/-! ## The largest counts (R34) -/

/-- The count of a frame, whatever its region holds, does not wrap and stays below the largest (R34). -/
theorem toNat_frameCount_le (m : Memory) (base : Addr) (len : BitVec 16) (bf : Bool) (fcs : BitVec 16) :
    (BitVec.ofNat 32 (frameRaw (m.region base len.toNat 0) bf fcs).length).toNat ≤ 629171 := by
  have hlen := len.isLt
  rw [BitVec.toNat_ofNat]
  exact (Nat.mod_le _ _).trans (length_frameRaw_le _ bf fcs (by rw [length_region]; omega))

/-- Settles O22: a frame in the clear has at most 629171 raw bits, 65535 flags have 524280. -/
theorem largestCounts : Obligations.LargestCounts := by
  intro s f ch hready
  refine ⟨⟨_, _, exec_sendFrame hready rfl, rfl, toNat_frameCount_le ..⟩,
    ⟨_, _, exec_sendFlags hready, rfl, ?_⟩, fun hclear => ?_⟩
  · have hlen := f.len.isLt
    rw [BitVec.toNat_ofNat]
    exact (Nat.mod_le _ _).trans (by omega)
  · by_cases hfxp : f.fxp = 0#8
    · exact ⟨_, _, exec_l2Send_plain hready hfxp rfl, rfl, toNat_frameCount_le ..⟩
    · exact ⟨_, _, exec_l2Send_fallback hready hfxp (hclear.resolve_left hfxp) rfl, rfl, toNat_frameCount_le ..⟩

/-! ## Ignored fields (R63) -/

/-- Two lanes put back on one engine differ by that engine alone where their transfers are the same. -/
theorem State.putLane_eq_set (s : State) (c : ChanId) (l : Lane) (a : Channel) :
    s.putLane c { l with ch := a } = { s.putLane c l with channels := (s.putLane c l).channels.set c.toNat a } := by
  simp [State.putLane]

/-- Two commands that end with the same transfers and engines `a` and `b` end alike but for that engine. -/
theorem exec_differ {s : State} {c : ChanId} {ch a b : Channel} {i j : Instr} {out : List Event}
    (hch : s.channel? c = some ch) (hi : exec i s = .next (s.popCmd.putLane c ⟨a, out⟩))
    (hj : exec j s = .next (s.popCmd.putLane c ⟨b, out⟩)) {g : Channel → Channel} (hg : b = g a) :
    ∃ t u a' b', exec i s = .next t ∧ exec j s = .next u ∧ t.channel? c = some a' ∧ u.channel? c = some b' ∧
      b' = g a' ∧ u = { t with channels := t.channels.set c.toNat b' } :=
  ⟨_, _, a, b, hi, hj, State.channel?_putLane_self ⟨a, out⟩ hch, State.channel?_putLane_self ⟨b, out⟩ hch, hg,
    State.putLane_eq_set s.popCmd c ⟨a, out⟩ b⟩

/-- The encapsulator's answer reads no latch, so FIN's latch stands beside it (R131, R138). -/
theorem Channel.fxAnswered_latch_fin (c : ChanId) (op : BitVec 4) (f : CmdFields) (fin : Bool) (ch : Channel) :
    (ch.latch op { f with fin := fin }).fxAnswered c = { (ch.latch op f).fxAnswered c with fin := fin } := by
  simp only [Channel.fxAnswered, Channel.latch]; cases ch.fxAnswers <;> rfl

/-- Settles O25: what each command does names none of the fields it ignores, but for the latches acceptance sets. -/
theorem ignoredFieldsHaveNoEffect : Obligations.IgnoredFieldsHaveNoEffect := by
  intro s f ch bf fin fxp base hready
  have ⟨_, hch, _⟩ := hready
  have hready' : s.ready ({ f with fin := fin } : CmdFields).chan ch := hready
  refine ⟨?_, ?_, ?_⟩
  · exact exec_differ hch (exec_sendFlags hready)
      (exec_sendFlags (f := { f with bf := bf, fxp := fxp, base := base }) hready)
      (g := fun a => { a with bf := bf, fxp := fxp, base := base }) rfl
  · exact exec_differ hch (exec_sendFrame hready rfl)
      (exec_sendFrame (f := { f with fin := fin, fxp := fxp }) hready rfl)
      (g := fun a => { a with fin := fin, fxp := fxp }) rfl
  · by_cases hfxp : f.fxp = 0#8
    · exact exec_differ hch (exec_l2Send_plain hready hfxp rfl) (exec_l2Send_plain hready' hfxp rfl)
        (g := fun a => { a with fin := fin }) rfl
    · by_cases hans : 0 < (ch.fxAnswer f.chan).toInt
      · have henc := exec_l2Send_encapsulated hready' hfxp hans
        rw [Channel.fxAnswered_latch_fin] at henc
        exact exec_differ hch (exec_l2Send_encapsulated hready hfxp hans) henc (g := fun a => { a with fin := fin }) rfl
      · have hfall := exec_l2Send_fallback hready' hfxp (not_lt.mp hans) rfl
        rw [Channel.fxAnswered_latch_fin] at hfall
        exact exec_differ hch (exec_l2Send_fallback hready hfxp (not_lt.mp hans) rfl) hfall
          (g := fun a => { a with fin := fin }) rfl

end Sys2Proof.Machine
end

section
/-! Proof of the rule on which commands use which ports (20_memory R41; 41_frame_and_flags R112; 42_dispatch R131,
R140), and that a micro-operation only sends bits (40_bit_level R81, R84, R87). -/

namespace Sys2Proof.Machine

/-- The rules let instruction `i` make this transfer. -/
def Event.MadeBy (i : Instr) : Event → Prop
  | .cmd c => ∃ f, i ∈ commandsOf f ∧ c = f.chan
  | .resp r => ∃ f, i ∈ commandsOf f ∧ r.chan = f.chan
  | .txbit _ _ => True
  | .fbufAsk c _ => ∃ f, (i = .sendFrame f ∨ i = .l2Send f) ∧ c = f.chan
  | .fbufRead c _ _ => ∃ f, (i = .sendFrame f ∨ i = .l2Send f) ∧ c = f.chan
  | .fcsqAsk c b n => ∃ f, (i = .sendFrame f ∨ i = .l2Send f) ∧ c = f.chan ∧ b = f.base ∧ n = f.len
  | .fcsqAnswer c _ => ∃ f, (i = .sendFrame f ∨ i = .l2Send f) ∧ c = f.chan
  | .fxqAsk c b n p => ∃ f, i = .l2Send f ∧ f.fxp ≠ 0#8 ∧ c = f.chan ∧ b = f.base ∧ n = f.len ∧ p = f.fxp
  | .fxqAnswer c _ => ∃ f, i = .l2Send f ∧ f.fxp ≠ 0#8 ∧ c = f.chan
  | .flushAsk c d => ∃ f, i = .sendFlags f ∧ f.fin = true ∧ c = f.chan ∧ d = Config.adevOf c
  | .flushDone c => ∃ f, i = .sendFlags f ∧ f.fin = true ∧ c = f.chan
  | .warn c k => ∃ f, i = .l2Send f ∧ f.fxp ≠ 0#8 ∧ c = f.chan ∧ k = 0x01#8
  | .rst => False

/-! ## Frames and flags -/

theorem forall_mem_txTransfers {P : Event → Prop} {c : ChanId} (htx : ∀ w, P (.txbit c w)) (v : Bool)
    (raw : List Bool) :
    ∀ e ∈ txTransfers c v raw, P e := by
  intro e he
  obtain ⟨w, -, rfl⟩ := List.mem_map.mp he
  exact htx w

theorem forall_mem_payloadTransfers {P : Event → Prop} {c : ChanId} (htx : ∀ w, P (.txbit c w))
    (hask : ∀ a, P (.fbufAsk c a)) (hread : ∀ a x, P (.fbufRead c a x)) (cells : List (Addr × Byte)) (v : Bool)
    (r : Nat) :
    ∀ e ∈ payloadTransfers c cells v r, P e := by
  induction cells generalizing v r with
  | nil => exact fun _ he => nomatch he
  | cons cell cells ih =>
    rw [payloadTransfers, List.forall_mem_cons, List.forall_mem_cons, List.forall_mem_append]
    exact ⟨hask _, hread _ _, forall_mem_txTransfers htx _ _, ih _ _⟩

/-- A frame makes transfers of five kinds (R100, R143). -/
theorem forall_mem_frameTransfers {P : Event → Prop} {c : ChanId} {base : Addr} {len : BitVec 16} {fcs : BitVec 16}
    (htx : ∀ w, P (.txbit c w)) (hask : ∀ a, P (.fbufAsk c a)) (hread : ∀ a x, P (.fbufRead c a x))
    (hfcs : P (.fcsqAsk c base len)) (hans : P (.fcsqAnswer c fcs)) (m : Memory) (bf v : Bool) :
    ∀ e ∈ frameTransfers c m base len bf fcs v, P e := by
  simp only [frameTransfers, List.forall_mem_append]
  exact ⟨⟨⟨⟨forall_mem_txTransfers htx _ _, forall_mem_payloadTransfers htx hask hread _ _ _⟩, by simp [hfcs, hans]⟩,
    forall_mem_txTransfers htx _ _⟩, forall_mem_txTransfers htx _ _⟩

/-- The transfers of a frame after its acceptance are those its command may make (R100, R143). -/
theorem madeBy_of_mem_frameSent {i : Instr} {f : CmdFields} (hi : i = .sendFrame f ∨ i = .l2Send f) (m : Memory)
    (v : Bool) :
    ∀ e ∈ frameSent f m v, e.MadeBy i := by
  have hmem : i ∈ commandsOf f := by rcases hi with rfl | rfl <;> simp [commandsOf]
  rw [frameSent, List.forall_mem_cons]
  refine ⟨⟨f, hmem, rfl⟩, fun e he => ?_⟩
  exact forall_mem_frameTransfers (fun _ => trivial) (fun _ => ⟨f, hi, rfl⟩) (fun _ _ => ⟨f, hi, rfl⟩)
    ⟨f, hi, rfl, rfl, rfl⟩ ⟨f, hi, rfl⟩ m f.bf v e (List.mem_reverse.mp he)

/-! ## Commands -/

/-- Every command that runs makes only the transfers its rules give it. -/
theorem exec_command_ready_madeBy {s : State} {f : CmdFields} {ch : Channel} {i : Instr} (hi : i ∈ commandsOf f)
    (hready : s.ready f.chan ch) :
    ∃ l : Lane, exec i s = .next (s.popCmd.putLane f.chan l) ∧ ∀ e ∈ l.out, e.MadeBy i := by
  have hcmd : Event.MadeBy i (.cmd f.chan) := ⟨f, hi, rfl⟩
  have hresp : ∀ n, Event.MadeBy i (.resp ⟨f.chan, .ok, n⟩) := fun _ => ⟨f, hi, rfl⟩
  simp only [commandsOf, List.mem_cons, List.not_mem_nil, or_false] at hi
  rcases hi with rfl | rfl | rfl
  · refine ⟨_, exec_sendFrame hready rfl, ?_⟩
    have hsent := madeBy_of_mem_frameSent (i := .sendFrame f) (f := f) (.inl rfl) s.mem ch.lineLevel
    rw [← List.cons_append, List.forall_mem_append]
    exact ⟨hsent, by simpa using hcmd⟩
  · refine ⟨_, exec_sendFlags hready, ?_⟩
    have hflush : ∀ e ∈ (if f.fin then [Event.flushDone f.chan, .flushAsk f.chan (Config.adevOf f.chan)] else []),
        e.MadeBy (.sendFlags f) := by
      split
      · next hfin => simpa using ⟨⟨f, rfl, hfin, rfl⟩, ⟨f, rfl, hfin, rfl, rfl⟩⟩
      · exact fun _ he => nomatch he
    rw [List.forall_mem_cons, List.forall_mem_append, List.forall_mem_append]
    exact ⟨hresp _, ⟨hflush, fun e he => forall_mem_txTransfers (fun _ => trivial) _ _ e (List.mem_reverse.mp he)⟩,
      by simpa using hcmd⟩
  · have hsent := madeBy_of_mem_frameSent (i := .l2Send f) (f := f) (.inr rfl) s.mem ch.lineLevel
    by_cases hfxp : f.fxp = 0#8
    · refine ⟨_, exec_l2Send_plain hready hfxp rfl, ?_⟩
      rw [List.forall_mem_append]
      exact ⟨hsent, by simpa using hcmd⟩
    · have hask : Event.MadeBy (.l2Send f) (.fxqAsk f.chan f.base f.len f.fxp) := ⟨f, rfl, hfxp, rfl, rfl, rfl, rfl⟩
      have hanswer : ∀ r, Event.MadeBy (.l2Send f) (.fxqAnswer f.chan r) := fun _ => ⟨f, rfl, hfxp, rfl⟩
      by_cases hans : 0 < (ch.fxAnswer f.chan).toInt
      · exact ⟨_, exec_l2Send_encapsulated hready hfxp hans, by simp [hresp, hanswer, hask, hcmd]⟩
      · refine ⟨_, exec_l2Send_fallback hready hfxp (not_lt.mp hans) rfl, ?_⟩
        have hwarn : Event.MadeBy (.l2Send f) (.warn f.chan 0x01#8) := ⟨f, rfl, hfxp, rfl, rfl⟩
        rw [List.forall_mem_append]
        exact ⟨hsent, by simp [hwarn, hanswer, hask, hcmd]⟩

/-- A command whose word waits makes no transfer, one whose word is rejected two (R70, R152). -/
theorem exec_command_madeBy {s t : State} {f : CmdFields} {i : Instr} (hi : i ∈ commandsOf f)
    (hexec : exec i s = .next t) :
    ∃ new, t.trace = new ++ s.trace ∧ ∀ e ∈ new, e.MadeBy i := by
  obtain ⟨op, run, hserve⟩ := exec_command hi
  rcases serveCommand_cases op f run s with h | ⟨-, -, h⟩ | ⟨ch, hready, -⟩
  · cases hexec.symm.trans ((hserve s).trans h)
    exact ⟨[], rfl, fun _ he => nomatch he⟩
  · cases hexec.symm.trans ((hserve s).trans h)
    refine ⟨[.resp (rejection f.chan .badChan), .cmd f.chan], rfl, ?_⟩
    rw [List.forall_mem_cons, List.forall_mem_singleton]
    exact ⟨⟨f, hi, rfl⟩, ⟨f, hi, rfl⟩⟩
  · obtain ⟨l, hl, hout⟩ := exec_command_ready_madeBy hi hready
    cases hexec.symm.trans hl
    exact ⟨l.out, rfl, hout⟩

/-! ## Micro-operations -/

/-- The lane's transfers are all on `TXBIT`. -/
def Lane.OnlyBits (l : Lane) : Prop := ∀ e ∈ l.out, ∃ c v, e = .txbit c v

theorem Lane.OnlyBits.sendBit {l : Lane} (h : l.OnlyBits) (c : ChanId) (b : Bool) : (l.sendBit c b).OnlyBits := by
  rw [Lane.sendBit_eq]
  exact List.forall_mem_cons.mpr ⟨⟨c, _, rfl⟩, h⟩

theorem Lane.OnlyBits.sendDataBit {l : Lane} (h : l.OnlyBits) (c : ChanId) (b : Bool) :
    (l.sendDataBit c b).OnlyBits := by
  simp only [Lane.sendDataBit]
  split
  · split
    · exact (h.sendBit c b).sendBit c false
    · exact h.sendBit c b
  · exact h.sendBit c b

theorem Lane.OnlyBits.foldl {f : Lane → Bool → Lane} (hf : ∀ l b, Lane.OnlyBits l → (f l b).OnlyBits) (bs : List Bool)
    {l : Lane} (h : l.OnlyBits) : (bs.foldl f l).OnlyBits := by
  induction bs generalizing l with
  | nil => exact h
  | cons b bs ih => exact ih (hf l b h)

theorem Lane.OnlyBits.sendCtrl {l : Lane} (h : l.OnlyBits) (c : ChanId) (x : Byte) : (l.sendCtrl c x).OnlyBits :=
  Lane.OnlyBits.foldl (fun _ b h => h.sendBit c b) (byteBits x) h

theorem Lane.OnlyBits.sendData {l : Lane} (h : l.OnlyBits) (c : ChanId) (x : Byte) : (l.sendData c x).OnlyBits :=
  Lane.OnlyBits.foldl (fun _ b h => h.sendDataBit c b) (byteBits x) h

theorem serveUop_madeBy {s t : State} {c : ChanId} {run : ChanId → Lane → Lane} (i : Instr)
    (hrun : ∀ l, Lane.OnlyBits l → (run c l).OnlyBits) (hexec : serveUop c run s = .next t) :
    ∃ new, t.trace = new ++ s.trace ∧ ∀ e ∈ new, e.MadeBy i := by
  cases hch : s.channel? c with
  | none => rw [serveUop_none run hch] at hexec; cases hexec
  | some ch =>
    cases hexec.symm.trans (serveUop_some run hch)
    have hstart : Lane.OnlyBits ⟨{ ch with uop := none }, []⟩ := List.forall_mem_nil _
    refine ⟨_, rfl, fun e he => ?_⟩
    obtain ⟨d, v, rfl⟩ := hrun _ hstart e he
    trivial

theorem exec_madeBy {s t : State} {i : Instr} (hexec : exec i s = .next t) :
    ∃ new, t.trace = new ++ s.trace ∧ ∀ e ∈ new, e.MadeBy i := by
  cases i with
  | sendFrame f => exact exec_command_madeBy (f := f) (by simp [commandsOf]) hexec
  | sendFlags f => exact exec_command_madeBy (f := f) (by simp [commandsOf]) hexec
  | l2Send f => exact exec_command_madeBy (f := f) (by simp [commandsOf]) hexec
  | uopBit c b => exact serveUop_madeBy (run := fun c l => l.sendBit c b) _ (fun _ h => h.sendBit c b) hexec
  | uopCtrl c x => exact serveUop_madeBy (run := fun c l => l.sendCtrl c x) _ (fun _ h => h.sendCtrl c x) hexec
  | uopData c x => exact serveUop_madeBy (run := fun c l => l.sendData c x) _ (fun _ h => h.sendData c x) hexec

/-- Settles O30: its clauses are `Event.MadeBy`, one for each kind of transfer. -/
theorem transfersOnlyWhereTheRulesAsk : Obligations.TransfersOnlyWhereTheRulesAsk := by
  intro s t i hexec
  obtain ⟨new, htrace, hmade⟩ := exec_madeBy hexec
  refine ⟨new, htrace, fun e he => ?_⟩
  have h := hmade e he
  refine ⟨?_, ?_, ?_, ?_, ?_, ?_, ?_, ?_, ?_, ?_, ?_, fun hrst => by subst hrst; exact h⟩ <;>
    (intros; subst_vars; exact h)

end Sys2Proof.Machine
end

section
/-! Proofs of the rules on the command port's turns: rejection, waiting and acceptance (30_encoding R70; 60_exceptions
R151 to R153; 70 R170), and the word a step runs (70 R183). -/

namespace Sys2Proof.Machine

/-! ## Rejection -/

/-- A word is bad by its own bits, or names a channel the block does not have (R153, R154). -/
theorem classifyCmd_error {n : Nat} {w : CmdWord} {st : Status} (h : classifyCmd n w = .error st) :
    decodeCmd w = .error st ∨ ∃ i, decodeCmd w = .ok i ∧ n ≤ i.chan.toNat ∧ st = .badChan := by
  cases hdec : decodeCmd w with
  | error e => left; simpa [classifyCmd, hdec] using h
  | ok i =>
    right
    by_cases hchan : i.chan.toNat < n
    · simp [classifyCmd, hdec, Instr.chanOk, hchan] at h
    · refine ⟨i, rfl, not_lt.mp hchan, ?_⟩
      simpa [classifyCmd, hdec, Instr.chanOk, hchan, eq_comm] using h

/-- The atomic form of rejection: whatever the cause, the word is answered at once (R152). -/
theorem serveHead_of_classifyCmd_error {s : State} {w : CmdWord} {ws : List CmdWord} {st : Status}
    (hrst : s.rst = false) (hcmd : s.cmd = w :: ws) (h : classifyCmd s.nchan w = .error st) :
    serveHead s = .next (s.reject (cmdFields w).chan st) := by
  rcases classifyCmd_error h with hdec | ⟨i, hdec, habsent, rfl⟩
  · simp [serveHead, hcmd, hdec, hrst]
  · obtain ⟨hi, hchan⟩ := decodeCmd_mem hdec
    obtain ⟨op, run, hexec⟩ := exec_command hi
    have hnone : s.channel? (cmdFields w).chan = none := (State.channel?_none_iff _ _).mpr (hchan ▸ habsent)
    have hserve : serveHead s = exec i s := by simp only [serveHead, hcmd, hdec]
    rw [hserve, hexec, serveCommand_of_channel?_none op run hrst hnone]

/-- The bit-granular form: the response is owed (R152, R158). -/
theorem acceptHead_of_classifyCmd_error {s : State} {w : CmdWord} {ws : List CmdWord} {st : Status}
    (hrst : s.rst = false) (hcmd : s.cmd = w :: ws) (h : classifyCmd s.nchan w = .error st) :
    acceptHead s = s.rejectLater (cmdFields w).chan st := by
  simp [acceptHead, hcmd, hrst, h]

/-- Settles O31: the port served by a turn, or with an empty schedule, is `serveHead`. -/
theorem badWordRejectedExactly : Obligations.BadWordRejectedExactly := by
  intro s w ws st hrst hcmd hcl
  have hreject : ∀ sched, serveHead { s with sched := sched } = .next { s with
      sched := sched
      cmd := ws
      trace := .resp ⟨w.extractLsb' 8 8, st, 0#32⟩ :: .cmd (w.extractLsb' 8 8) :: s.trace } := by
    intro sched
    refine (serveHead_of_classifyCmd_error (s := { s with sched := sched }) hrst hcmd hcl).trans ?_
    simp [State.reject, State.popCmd, hcmd, rejection, cmdFields]
  refine ⟨fun hsched => ?_, fun ts => hreject ts⟩
  rw [step_of_sched_nil hsched]
  have hpop : s.popTurn.sched = s.sched := by simp [State.popTurn, hsched]
  exact (hreject s.popTurn.sched).trans (by rw [hpop])

/-- Settles O32: acceptance owes the response, and the host takes the owed one its script names. -/
theorem badWordRejectedThenAnswered : Obligations.BadWordRejectedThenAnswered := by
  refine fun s ts => ⟨fun w ws st hrst hcmd hcl => ?_, fun k r hs hrej => ?_, fun k hs hrej => ?_⟩
  · refine congrArg Host.Outcome.next
      ((acceptHead_of_classifyCmd_error (s := { s with sched := ts }) hrst hcmd hcl).trans ?_)
    simp [State.rejectLater, State.popCmd, hcmd, rejection, cmdFields]
  · simp only [step, takeTurn, hostTurn, hrej]
  · simp only [step, takeTurn, hostTurn, hrej]

/-! ## Waiting -/

/-- A command whose channel is busy, or any while `RST` is asserted, waits (R70, R170). -/
theorem serveCommand_waits {s : State} {f : CmdFields} (op : BitVec 4) (run : ChanId → Fbuf → Lane → Lane)
    (h : s.rst = true ∨ ∃ ch, s.channel? f.chan = some ch ∧ ch.busy = true) : serveCommand op f run s = .next s := by
  cases hrst : s.rst with
  | true => simp [serveCommand, hrst]
  | false =>
    obtain ⟨ch, hch, hbusy⟩ := h.resolve_left (by simp [hrst])
    simp [serveCommand, hrst, hch, hbusy]

theorem serveHead_waits {s : State} {w : CmdWord} {ws : List CmdWord} {i : Instr} (hcmd : s.cmd = w :: ws)
    (hdec : decodeCmd w = .ok i) (h : s.rst = true ∨ ∃ ch, s.channel? i.chan = some ch ∧ ch.busy = true) :
    serveHead s = .next s := by
  obtain ⟨hi, hchan⟩ := decodeCmd_mem hdec
  obtain ⟨op, run, hexec⟩ := exec_command hi
  rw [hchan] at h
  simp only [serveHead, hcmd, hdec, hexec, serveCommand_waits op run h]

theorem serveHead_of_rst {s : State} (hrst : s.rst = true) : serveHead s = .next s := by
  cases hcmd : s.cmd with
  | nil => simp [serveHead, hcmd]
  | cons w ws =>
    cases hdec : decodeCmd w with
    | error st => simp [serveHead, hcmd, hdec, hrst]
    | ok i => exact serveHead_waits hcmd hdec (.inl hrst)

theorem acceptHead_of_rst {s : State} (hrst : s.rst = true) : acceptHead s = s := by
  cases hcmd : s.cmd <;> simp [acceptHead, hcmd, hrst]

theorem acceptHead_of_busy {s : State} {w : CmdWord} {ws : List CmdWord} {i : Instr} {ch : Channel}
    (hcmd : s.cmd = w :: ws) (hcl : classifyCmd s.nchan w = .ok i) (hch : s.channel? i.chan = some ch)
    (hbusy : ch.busy = true) : acceptHead s = s := by
  simp [acceptHead, hcmd, hcl, hch, hbusy]

/-- Settles O35: under `RST` both forms of the port leave the block as it is. -/
theorem nothingAcceptedUnderReset : Obligations.NothingAcceptedUnderReset := fun s ts hrst =>
  ⟨serveHead_of_rst (s := { s with sched := ts }) hrst,
    congrArg Host.Outcome.next (acceptHead_of_rst (s := { s with sched := ts }) hrst)⟩

/-- Settles O34: a busy channel holds the word back in both forms, and so does `RST`. -/
theorem wordWaitsForItsChannel : Obligations.WordWaitsForItsChannel := by
  intro s w ws i ch ts hcmd hcl hch hwait
  rcases hwait with hbusy | hrst
  · exact ⟨serveHead_waits (s := { s with sched := ts }) hcmd (classifyCmd_ok hcl).1 (.inr ⟨ch, hch, hbusy⟩),
      congrArg Host.Outcome.next (acceptHead_of_busy (s := { s with sched := ts }) hcmd hcl hch hbusy)⟩
  · exact nothingAcceptedUnderReset s ts hrst

/-! ## Acceptance -/

/-- Acceptance latches the word's opcode and fields; beyond that it only clears the count and issues the first word
(R70). -/
theorem Channel.start_eq_latch {w : CmdWord} {i : Instr} (hdec : decodeCmd w = .ok i) (c : ChanId) (ch : Channel) :
    ∃ n p u, ch.start c i =
      { ch.latch (opField w) (cmdFields w) with bitsSent := n, phase := p, uop := u } := by
  rcases decodeCmd_cases hdec with ⟨rfl, hop⟩ | ⟨rfl, hop⟩ | ⟨rfl, hop⟩ <;> rw [hop, Channel.start]
  · exact ⟨_, _, _, rfl⟩
  · unfold Channel.enterFlags
    split
    · split
      · exact ⟨_, _, _, rfl⟩
      · exact ⟨_, _, _, rfl⟩
    · exact ⟨_, _, _, rfl⟩
  · split
    · exact ⟨_, _, _, rfl⟩
    · exact ⟨_, _, _, rfl⟩

/-- Acceptance opens an empty read window (R50). -/
theorem Channel.start_unstable {w : CmdWord} {i : Instr} (hdec : decodeCmd w = .ok i) (c : ChanId) (ch : Channel) :
    (ch.start c i).unstable = [] := by
  obtain ⟨n, p, u, hstart⟩ := Channel.start_eq_latch hdec c ch
  rw [hstart]; rfl

/-- Settles O36: the accepted engine is `Channel.latch` of the word's fields, whatever its first phase. -/
theorem acceptanceLatchesOperands : Obligations.AcceptanceLatchesOperands := by
  intro s w ws i ch ts hcmd hcl hready
  have ⟨_, hch, _⟩ := hready
  obtain ⟨n, p, u, hstart⟩ := Channel.start_eq_latch (classifyCmd_ok hcl).1 i.chan ch
  refine ⟨_, _, congrArg Host.Outcome.next (acceptHead_ready (s := { s with sched := ts }) hcmd hcl hready),
    State.channel?_putLane_self (s := ({ s with sched := ts } : State).popCmd) _ hch, ?_⟩
  simp [hstart, opField, cmdFields, bitField, hcmd]

/-! ## The word a step runs -/

theorem serveHead_of_decodeCmd {s : State} {w : CmdWord} {ws : List CmdWord} {i : Instr} (hcmd : s.cmd = w :: ws)
    (hdec : decodeCmd w = .ok i) : serveHead s = exec i s := by
  simp only [serveHead, hcmd, hdec]

/-- Settles O37: the port served by a turn, or with an empty schedule, is `serveHead`. -/
theorem stepRunsDecodedCommand : Obligations.StepRunsDecodedCommand := by
  intro s w ws i hcmd hdec
  refine ⟨fun hsched => ?_, fun ts => serveHead_of_decodeCmd (s := { s with sched := ts }) hcmd hdec⟩
  simp only [step, hsched, serveHead_of_decodeCmd hcmd hdec]

/-- A micro-operation of which nothing is sent yet runs whole, and the sequencer moves on (R60, R64). -/
theorem uopTurn_begins {s : State} {c : ChanId} {ch : Channel} {w : UopWord} {i : Instr}
    (hch : s.channel? c = some ch) (hslot : ch.uop = some w) (hpos : ch.bitpos = 0#3) (howed : ch.stuffPending = false)
    (hdec : decodeUop w = .ok i) (hchan : i.chan = c) (fcsFn : List Byte → BitVec 16) :
    ∃ t, exec i s = .next t ∧ uopTurn fcsFn c s = .next (t.finishUop c) := by
  obtain ⟨k, x, hword, rfl⟩ := slotWord_of_decodeUop hdec hchan
  have hexec := (exec_uopInstr k c x s).trans (serveUop_some (uopRun k x) hch)
  exact ⟨_, hexec, by simp [uopTurn, hch, hslot, hword, hpos, howed, hexec]⟩

/-- Settles O38: the `uop` turn runs the word whole, since none of it is sent. -/
theorem stepRunsIssuedUop : Obligations.StepRunsIssuedUop := fun s _ _ _ _ ts hch hslot hpos howed hdec hchan =>
  uopTurn_begins (s := { s with sched := ts }) hch hslot hpos howed hdec hchan Config.fcsFn

theorem decodeTableWord_cmd {w : Nat} {i : Instr} (h : decodeTableWord 64 w = some i) :
    decodeCmd (BitVec.ofNat 64 (w % 2 ^ 64)) = .ok i := by
  have htable : tableWord 64 w = .cmd (BitVec.ofNat 64 (w % 2 ^ 64)) := rfl
  cases hdec : decodeCmd (BitVec.ofNat 64 (w % 2 ^ 64)) with
  | error st => simp only [decodeTableWord, htable, decode, hdec] at h; cases h
  | ok j => simp only [decodeTableWord, htable, decode, hdec] at h; cases h; rfl

theorem decodeTableWord_uop {w : Nat} {i : Instr} (h : decodeTableWord 24 w = some i) :
    decodeUop (BitVec.ofNat 24 (w % 2 ^ 24)) = .ok i := by
  have htable : tableWord 24 w = .uop (BitVec.ofNat 24 (w % 2 ^ 24)) := rfl
  cases hdec : decodeUop (BitVec.ofNat 24 (w % 2 ^ 24)) with
  | error e => simp only [decodeTableWord, htable, decode, hdec] at h; cases h
  | ok j => simp only [decodeTableWord, htable, decode, hdec] at h; cases h; rfl

/-- A micro-operation's channel is its word's `UCH` (R64). -/
theorem chan_of_decodeUop {w : UopWord} {i : Instr} (h : decodeUop w = .ok i) : i.chan = w.extractLsb' 16 8 := by
  cases hu : decodeUopFields w with
  | error e => simp [decodeUop, hu] at h
  | ok u =>
    obtain ⟨k, uch, x⟩ := u
    obtain ⟨-, hfields, -⟩ := decodeUopFields_cases hu
    simp only [decodeUop, hu, Except.ok.injEq] at h
    cases hfields
    subst h
    cases k <;> rfl

/-- Settles O39: the placed word stands where the turn placed with it looks, with nothing of it sent. -/
theorem placedWordRunsNext : Obligations.PlacedWordRunsNext := by
  refine ⟨fun s w i h => ?_, fun s w i ch h hch => ?_⟩
  · exact serveHead_of_decodeCmd (s := { s with cmd := BitVec.ofNat 64 (w % 2 ^ 64) :: s.cmd }) rfl
      (decodeTableWord_cmd h)
  · have hdec := decodeTableWord_uop h
    have hchan := chan_of_decodeUop hdec
    intro placed
    have hstep : step (s.withFetchWord 24 w) =
        uopTurn Config.fcsFn i.chan { s with channels := s.channels.set i.chan.toNat placed } := by
      have hfetch : s.withFetchWord 24 w = s.withUopWord (BitVec.ofNat 24 (w % 2 ^ 24)) := rfl
      have hget : s.channels[i.chan.toNat]? = some ch := hch
      rw [hfetch]
      simp only [State.withUopWord, ← hchan, hget]
      rfl
    rw [hstep]
    exact uopTurn_begins (s := { s with channels := s.channels.set i.chan.toNat placed }) (ch := placed)
      (State.channels_set_self hch placed) rfl rfl rfl hdec rfl Config.fcsFn

/-- Settles O41: the schedule and `CMD` are empty after reset. -/
theorem resetWaits : Obligations.ResetWaits := ⟨rfl, rfl, rfl, rfl⟩

end Sys2Proof.Machine
end

section
/-! Proofs of the rules on handshakes: the micro-operations a slot may hold (30_encoding R64; 40_bit_level R91),
requests, answers and responses (00_scope R10, R14; 41_frame_and_flags R103; 42_dispatch R131, R140; 70 R171), and the
reads made inside a read window (20_memory R50; 70 R175). -/

namespace Sys2Proof.Machine

/-- What a handshake of engine `c` does to the block, when the turn is its (R80). -/
theorem step_engine {s : State} {m : Move} {c : ChanId} {ch : Channel} {l : Lane} {ts : List Turn}
    (hch : s.channel? c = some ch) (hmove : engineMove Config.fcsFn m c (s.fbuf c ch) ch = .ok l) :
    step { s with sched := .engine m c :: ts } = .next (({ s with sched := ts } : State).putLane c l) :=
  engineTurn_some (s := { s with sched := ts }) hch hmove

/-- A handshake that is not possible leaves the block as it is (R171, R182). -/
theorem step_engine_still {s : State} {m : Move} {c : ChanId} {ch : Channel} {ts : List Turn}
    (hch : s.channel? c = some ch) (h : ¬ ch.may m) :
    step { s with sched := .engine m c :: ts } = .next { s with sched := ts } :=
  engineTurn_still (s := { s with sched := ts }) hch h

/-! ## Slots (R64, R91) -/

theorem slotWord_kindReserved {c : ChanId} {w : UopWord} (hk : w.extractLsb' 0 2 = 3#2) (hz : w.extractLsb' 2 6 = 0#6) :
    slotWord c w = .error (.uopMalformed .kindReserved) := by
  simp [slotWord, decodeUopFields, hk, hz]

/-- Settles O5: both turns take the slot's word apart first. -/
theorem reservedUopKindRefused : Obligations.ReservedUopKindRefused := by
  intro s c ch w ts hch hslot hk hz
  have hword := slotWord_kindReserved (c := c) hk hz
  have hch' : ({ s with sched := ts } : State).channel? c = some ch := hch
  constructor
  · simp only [step, takeTurn, uopTurn, hch', hslot, hword]
  · simp only [step, takeTurn, engineTurn, hch', engineMove, Lane.serve, hslot, hword]

/-- The sequencer's next phase touches no encoding state, and owes no bit that was not owed (R27). -/
theorem Channel.uopDone_encoding (c : ChanId) (ch : Channel) :
    (ch.uopDone c).stuffRun = ch.stuffRun ∧ (ch.uopDone c).stuffPending = ch.stuffPending := by
  simp only [Channel.uopDone, Channel.enterPayload, Channel.enterFcsLo, Channel.enterFlags]
  split <;> (repeat' split) <;> exact ⟨rfl, rfl⟩

theorem Lane.nextPos_encoding (c : ChanId) (l : Lane) :
    (l.nextPos c).ch.lineLevel = l.ch.lineLevel ∧ (l.nextPos c).ch.stuffRun = l.ch.stuffRun ∧
      (l.nextPos c).ch.stuffPending = l.ch.stuffPending ∧ (l.nextPos c).out = l.out := by
  unfold Lane.nextPos
  split
  · obtain ⟨hrun, howed⟩ := Channel.uopDone_encoding c l.ch
    exact ⟨Channel.uopDone_lineLevel c l.ch, hrun, howed, rfl⟩
  · exact ⟨rfl, rfl, rfl, rfl⟩

/-- The owed stuffed 0 is one transfer, and the run is cleared with it (R91). -/
theorem Lane.dataMove_owed (c : ChanId) (x : Byte) {ch : Channel} (howed : ch.stuffPending = true) :
    (Lane.dataMove c x ⟨ch, []⟩).ch.lineLevel = !ch.lineLevel ∧ (Lane.dataMove c x ⟨ch, []⟩).ch.stuffRun = 0#3 ∧
      (Lane.dataMove c x ⟨ch, []⟩).ch.stuffPending = false ∧
      (Lane.dataMove c x ⟨ch, []⟩).out = [.txbit c (!ch.lineLevel)] := by
  obtain ⟨hlevel, hrun, hpend, hout⟩ := Lane.nextPos_encoding c
    (((Lane.sendBit c false ⟨ch, []⟩).setRun 0#3).onChannel fun ch => { ch with stuffPending := false })
  simp only [Lane.dataMove, howed, if_true]
  exact ⟨hlevel, hrun, hpend, hout⟩

/-- Settles O12: a word whose sending has begun goes on bit by bit under either turn, and the owed bit is next. -/
theorem owedStuffedBitGoesNext : Obligations.OwedStuffedBitGoesNext := by
  intro s c ch x ts hch hslot howed
  have hch' : ({ s with sched := ts } : State).channel? c = some ch := hch
  have hmove : engineMove Config.fcsFn (.serve .txbit) c (s.fbuf c ch) ch = .ok (Lane.dataMove c x ⟨ch, []⟩) := by
    simp [engineMove, Lane.serve, hslot, Lane.bitMove]
  have hstep := step_engine (ts := ts) hch hmove
  have huop : step { s with sched := .uop c :: ts } = step { s with sched := .engine (.serve .txbit) c :: ts } := by
    simp [step, takeTurn, uopTurn, hch', hslot, howed]
  obtain ⟨hlevel, hrun, hpend, hout⟩ := Lane.dataMove_owed c x howed
  refine ⟨_, _, hstep, huop.trans hstep, State.channel?_putLane_self (s := { s with sched := ts }) _ hch, ?_, hlevel,
    hpend, hrun⟩
  rw [State.putLane_trace, hout]; rfl

/-! ## Requests and answers -/

/-- Settles O56: each possible handshake puts its lane back, and one that is not possible does nothing. -/
theorem requestAndAnswerAreTwoTransfers : Obligations.RequestAndAnswerAreTwoTransfers := by
  intro s c ch ts hch after
  refine ⟨fun hp hu ha => ?_, fun hp ha => ?_, fun hp ha => ?_, fun hp => ?_, fun hp ha => ?_, fun hp ha => ?_,
    fun m hm => step_engine_still hch hm⟩
  · refine step_engine hch (l := ⟨{ ch with asked := true }, [.fbufAsk c (ea ch.base ch.idx.toNat)]⟩) ?_
    simp [engineMove, Lane.request, hp, hu, ha, Lane.askByte, Lane.emit, Lane.onChannel]
  · refine step_engine hch (l := ⟨{ ch with asked := true }, [.fxqAsk c ch.base ch.len ch.fxp]⟩) ?_
    simp [engineMove, Lane.request, hp, ha, Lane.askFx, Lane.emit, Lane.onChannel]
  · refine step_engine hch (l := ⟨_, [.fxqAnswer c (ch.fxAnswer c)]⟩) ?_
    simp [engineMove, Lane.serve, hp, ha, Lane.fxArrives, Lane.latchFx_eq, Lane.onChannel, Channel.fxAnswered_fxres,
      fxSuccess_iff]
  · refine step_engine hch (l := ⟨ch.enterStartFlag c, [.warn c 0x01#8]⟩) ?_
    simp [engineMove, Lane.serve, hp, Lane.warn, Lane.emit, Lane.onChannel, Config.fx25Fallback]
  · refine step_engine hch (l := ⟨{ ch with asked := true }, [.flushAsk c (Config.adevOf c)]⟩) ?_
    simp [engineMove, Lane.request, hp, ha, Lane.askFlush, Lane.emit, Lane.onChannel]
  · refine step_engine hch (l := ⟨{ ch with asked := false, phase := .resp }, [.flushDone c]⟩) ?_
    simp [engineMove, Lane.serve, hp, ha, Lane.flushed, Lane.emit, Lane.onChannel]

/-! ## The FCS, asked for early (R103) -/

/-- With no write in the host's script there is none still to come in the window. -/
theorem writesInWindow_of_no_write (c : ChanId) (hs : List HostAct) (h : ∀ a v, HostAct.write a v ∉ hs) :
    writesInWindow c hs = [] := by
  induction hs with
  | nil => rfl
  | cons act hs ih =>
    have hrest := ih fun a v hmem => h a v (List.mem_cons_of_mem _ hmem)
    cases act with
    | write a v => exact absurd List.mem_cons_self (h a v)
    | takeResp d => simp [writesInWindow, hrest]
    | offer w => exact hrest
    | takeRejection k => exact hrest

/-- The answer of the FCS calculator where no byte is disturbed (R102, R103). -/
theorem Lane.fcsArrives_stable (fcsFn : List Byte → BitVec 16) (c : ChanId) {fb : Fbuf} (ch : Channel)
    (hfb : fb.disturbed = []) :
    Lane.fcsArrives fcsFn c fb ⟨ch, []⟩ =
      let f := fcsFn (fb.mem.region ch.base ch.len.toNat 0)
      ⟨if ch.phase = .fcsWait then
          { ch with fcs := f, fcsAsk := .answered, phase := .fcsLo, uop := some (uopDataWord c (fcsLoByte ch.bf f)) }
        else { ch with fcs := f, fcsAsk := .answered }, [.fcsqAnswer c f]⟩ := by
  simp only [Lane.fcsArrives, Lane.latchFcs, Lane.lookRegion_stable _ _ _ _ _ _ hfb, Lane.emit, Lane.onChannel,
    lenOperand, Channel.enterFcsLo]

/-- Settles O57: the request and the answer are the two handshakes, and PAYLOAD's last byte looks at the answer. -/
theorem fcsMayBeAskedEarly : Obligations.FcsMayBeAskedEarly := by
  intro s c ch ts hch
  refine ⟨fun hno hp => ?_, fun hasked hun hw => ?_, fun hp hidx => ?_, fun h => ?_, fun h => ?_⟩
  · refine step_engine hch (l := ⟨{ ch with fcsAsk := .asked }, [.fcsqAsk c ch.base ch.len]⟩) ?_
    have hmay : ch.mayAskFcs = true := Channel.mayAskFcs_iff.mpr ⟨hp, hno⟩
    simp [engineMove, Lane.request, hmay, Lane.askFcs, Lane.emit, Lane.onChannel]
  · have hfb : (s.fbuf c ch).disturbed = [] := by simp [State.fbuf, hun, writesInWindow_of_no_write c s.host hw]
    refine (step_engine hch (l := Lane.fcsArrives Config.fcsFn c (s.fbuf c ch) ⟨ch, []⟩) ?_).trans ?_
    · simp [engineMove, Lane.serve, hasked]
    · rw [Lane.fcsArrives_stable _ _ _ hfb]; rfl
  · have hlt : ch.idx.toNat < ch.len.toNat := by omega
    simp [Channel.uopDone, hp, Channel.enterPayload_phase, toNat_idx_succ hlt, hidx, Channel.afterPayload]
  · refine step_engine_still hch fun hmay => ?_
    obtain ⟨hp, hno⟩ := hmay
    rcases h with h | ⟨h1, h2, h3⟩
    · exact h hno
    · exact hp.elim h1 (Or.rec h2 h3)
  · exact step_engine_still hch h

/-! ## Answers after `RST` (R171) -/

/-- After `RST` no request of an engine is open, and nothing stands in its slot. -/
theorem Channel.not_may_serve_afterRst (c : ChanId) (ch : Channel) (p : Port) :
    ¬ (ch.afterRst c).may (.serve p) := by
  cases p <;> simp [Channel.may, Channel.afterRst, Channel.reset]

/-- Settles O58: the answer's turn finds no open request, and the block stays as `RST` left it. -/
theorem lateAnswersAreDiscarded : Obligations.LateAnswersAreDiscarded := by
  intro s c p ts
  have hlate : step ({ s with sched := .engine (.serve p) c :: ts } : State).assertRst =
      .next ({ s with sched := ts } : State).assertRst := by
    have hrst := State.channel?_assertRst { s with sched := ts } c
    cases hch : ({ s with sched := ts } : State).channel? c with
    | none => exact engineTurn_none (hrst.trans (by rw [hch]; rfl))
    | some ch => exact engineTurn_still (hrst.trans (by rw [hch]; rfl)) (Channel.not_may_serve_afterRst c ch p)
  exact (run_next (k := 1) rfl).trans (run_next (k := 0) hlate)

/-! ## Responses (R14, R20, R133) -/

theorem Channel.respCount_eq (ch : Channel) :
    ch.respCount = if ch.op = 3#4 ∧ ch.fxp ≠ 0#8 ∧ 0 < ch.fxres.toInt then ch.fxres else ch.bitsSent := by
  refine if_congr ?_ rfl rfl
  rw [Bool.and_eq_true, Bool.and_eq_true, decide_eq_true_iff, fxSuccess_iff, fxEnabled, bne_iff_ne, and_assoc]
  rfl

/-- A legal engine in IDLE or in RESP makes no handshake: its slot is empty and no request is open (R27, R166). -/
theorem Channel.Inv.not_may {c : ChanId} {ch : Channel} (h : ch.Inv c) (hp : ch.phase = .idle ∨ ch.phase = .resp)
    (m : Move) : ¬ ch.may m := by
  have hslot := h.slot
  have hreq := h.requests
  have hclosed : ch.uop = none ∧ ch.fcsAsk ≠ .asked := by
    rcases hp with hp | hp <;> simp only [slotLegal, requestsLegal, hp] at hslot hreq <;> simp [hslot, hreq]
  obtain ⟨hnone, hasked⟩ := hclosed
  rcases m with p | p <;> cases p <;> rcases hp with hp | hp <;> simp [Channel.may, hp, hnone, hasked]

/-- Settles O59: the host's turn responds exactly in RESP. -/
theorem hostTakesResponse : Obligations.HostTakesResponse := by
  intro s c ch hs ts hch
  refine ⟨fun hp => ?_, fun hp hinv m => step_engine_still hch (hinv.not_may (.inr hp) m), fun hp => ?_⟩
  · refine congrArg Host.Outcome.next
      ((hostTurn_takeResp (s := { s with sched := ts, host := .takeResp c :: hs }) rfl hch hp).trans ?_)
    rw [Channel.respCount_eq]; rfl
  · have hch' : ({ s with sched := ts, host := .takeResp c :: hs } : State).channel? c = some ch := hch
    simp only [step, takeTurn, hostTurn, hch', if_neg hp]

/-- Settles O42: an idle engine may make no handshake, and its slot is empty. -/
theorem idleEngineKeepsItsState : Obligations.IdleEngineKeepsItsState := by
  intro s c ch ts hch hinv hp
  refine ⟨fun m => step_engine_still hch (hinv.not_may (.inl hp) m), ?_⟩
  have hslot := hinv.slot
  simp only [slotLegal, hp] at hslot
  have hch' : ({ s with sched := ts } : State).channel? c = some ch := hch
  simp only [step, takeTurn, uopTurn, hch', hslot]

/-! ## Reads inside the window (R50, R175) -/

/-- The writes still to come in the window are those of the script before the host takes the response (R50). -/
theorem mem_writesInWindow (c : ChanId) (a : Addr) (hs : List HostAct) :
    a ∈ writesInWindow c hs ↔
      ∃ pre v post, hs = pre ++ HostAct.write a v :: post ∧ HostAct.takeResp c ∉ pre := by
  induction hs with
  | nil => simp [writesInWindow]
  | cons act hs ih =>
    have hskip : act ≠ .takeResp c → (∀ v, act ≠ .write a v) → ((∃ pre v post, act :: hs =
        pre ++ HostAct.write a v :: post ∧ HostAct.takeResp c ∉ pre) ↔ a ∈ writesInWindow c hs) := by
      intro htake hwrite
      rw [ih]
      constructor
      · rintro ⟨pre, v, post, heq, hpre⟩
        cases pre with
        | nil => cases heq; exact absurd rfl (hwrite v)
        | cons p pre => cases heq; exact ⟨pre, v, post, rfl, fun h => hpre (List.mem_cons_of_mem _ h)⟩
      · rintro ⟨pre, v, post, rfl, hpre⟩
        exact ⟨act :: pre, v, post, rfl, by simp [hpre, Ne.symm htake]⟩
    cases act with
    | offer w => exact (hskip (by simp) (by simp)).symm
    | takeRejection k => exact (hskip (by simp) (by simp)).symm
    | write b v =>
      by_cases hb : a = b
      · subst hb
        exact iff_of_true (by simp [writesInWindow]) ⟨[], v, hs, rfl, by simp⟩
      · rw [hskip (by simp) (by simp [Ne.symm hb])]
        simp [writesInWindow, hb]
    | takeResp d =>
      by_cases hd : d = c
      · subst hd
        refine iff_of_false (by simp [writesInWindow]) ?_
        rintro ⟨pre, v, post, heq, hpre⟩
        cases pre with
        | nil => cases heq
        | cons p pre => cases heq; exact hpre List.mem_cons_self
      · rw [hskip (by simp [hd]) (by simp)]
        simp [writesInWindow, hd]

/-- The disturbed bytes of engine `c`'s buffer are the ones written in its window, before now or later (R175). -/
theorem contains_disturbed {s : State} {c : ChanId} {ch : Channel} {D : List Addr}
    (hD : ∀ a, a ∈ D ↔ a ∈ ch.unstable ∨
      ∃ pre v post, s.host = pre ++ HostAct.write a v :: post ∧ HostAct.takeResp c ∉ pre) (a : Addr) :
    (s.fbuf c ch).disturbed.contains a = decide (a ∈ D) := by
  rw [Bool.eq_iff_iff, decide_eq_true_iff, List.contains_iff_mem, hD, ← mem_writesInWindow, State.fbuf, List.mem_append]

/-- The disturbed bytes of a region, counted by index. -/
theorem disturbedCount_eq_countP (fb : Fbuf) (base : Addr) (n i : Nat) :
    disturbedCount fb base n i = (List.range' i n).countP fun j => fb.disturbed.contains (ea base j) := by
  induction n generalizing i with
  | zero => rfl
  | succ n ih =>
    rw [disturbedCount, ih, List.range'_succ, List.countP_cons]
    cases fb.disturbed.contains (ea base i) <;> simp [Nat.add_comm]

/-- The FCS calculator's reads of a region: a disturbed byte is the free value after those drawn before it (R175). -/
theorem Lane.lookRegion_bytes (c : ChanId) (fb : Fbuf) (base : Addr) (n i : Nat) (l : Lane) :
    (l.lookRegion c fb base n i).1 = (List.range n).map fun j =>
      if fb.disturbed.contains (ea base (i + j)) then
        Config.hazardByte c (l.ch.draws + disturbedCount fb base j i)
      else fb.mem.byteAt (ea base (i + j)) := by
  induction n generalizing i l with
  | zero => rfl
  | succ n ih =>
    rw [Lane.lookRegion, List.range_succ_eq_map, List.map_cons, List.map_map]
    dsimp only
    rw [ih, Lane.look_eq]
    simp [disturbedCount, Function.comp_def, Nat.add_assoc, Nat.add_comm 1]

/-- The byte engine `c` reads at `a`: a free value where the byte is disturbed (R47, R175). -/
def Fbuf.lookAt (fb : Fbuf) (c : ChanId) (draws : Nat) (a : Addr) : Byte :=
  if fb.disturbed.contains a then Config.hazardByte c draws else fb.mem.byteAt a

/-- The read data of a payload byte arrives, disturbed or not (R101, R175). -/
theorem Lane.byteArrives_eq (c : ChanId) (fb : Fbuf) (ch : Channel) :
    Lane.byteArrives c fb ⟨ch, []⟩ =
      ⟨{ ch with
          draws := ch.draws + (fb.disturbed.contains (ea ch.base ch.idx.toNat)).toNat
          asked := false
          uop := some (uopDataWord c (fb.lookAt c ch.draws (ea ch.base ch.idx.toNat))) },
        [.fbufRead c (ea ch.base ch.idx.toNat) (fb.lookAt c ch.draws (ea ch.base ch.idx.toNat))]⟩ := by
  simp only [Lane.byteArrives, Lane.readByte, Lane.look_eq, Lane.emit, Lane.onChannel, Fbuf.lookAt]

/-- The FCS arrives, over bytes disturbed or not; where the engine goes with it is another matter (R102, R175). -/
theorem Lane.fcsArrives_latches (fcsFn : List Byte → BitVec 16) (c : ChanId) (fb : Fbuf) (ch : Channel) :
    (Lane.fcsArrives fcsFn c fb ⟨ch, []⟩).ch.fcs = fcsFn (Lane.lookRegion c fb ch.base ch.len.toNat 0 ⟨ch, []⟩).1 ∧
      (Lane.fcsArrives fcsFn c fb ⟨ch, []⟩).ch.draws = ch.draws + disturbedCount fb ch.base ch.len.toNat 0 ∧
      (Lane.fcsArrives fcsFn c fb ⟨ch, []⟩).out =
        [.fcsqAnswer c (fcsFn (Lane.lookRegion c fb ch.base ch.len.toNat 0 ⟨ch, []⟩).1)] := by
  simp only [Lane.fcsArrives, Lane.latchFcs, Lane.lookRegion_lane, Lane.emit, Lane.onChannel, lenOperand]
  split <;> exact ⟨rfl, rfl, trivial⟩

/-- Settles O53: `D` is the buffer's disturbed bytes, of which each read draws a free value. -/
theorem writeInsideWindowMakesReadFree : Obligations.WriteInsideWindowMakesReadFree := by
  intro s c ch ts D hch hD
  have hdist := contains_disturbed (s := s) (c := c) hD
  have hlook : ∀ n a, (s.fbuf c ch).lookAt c n a = if a ∈ D then Config.hazardByte c n else s.mem.byteAt a := by
    intro n a
    simp only [Fbuf.lookAt, hdist, decide_eq_true_eq]; rfl
  have hdrawn : ∀ n, disturbedCount (s.fbuf c ch) ch.base n 0 =
      (List.range n).countP fun j => decide (ch.base + BitVec.ofNat 16 j ∈ D) := by
    intro n
    simp only [disturbedCount_eq_countP, hdist, ea, List.range_eq_range']
  refine ⟨fun hp ha => ?_, fun hasked => ?_⟩
  · refine ⟨_, _, step_engine hch (l := Lane.byteArrives c (s.fbuf c ch) ⟨ch, []⟩) ?_,
      State.channel?_putLane_self (s := { s with sched := ts }) _ hch, ?_⟩
    · simp [engineMove, Lane.serve, hp, ha]
    · rw [State.putLane_trace, Lane.byteArrives_eq]
      simp only [hlook, hdist, ea]
      exact ⟨trivial, rfl, by simp only [Bool.toNat, Bool.cond_decide]⟩
  · obtain ⟨hfcs, hdraws, hout⟩ := Lane.fcsArrives_latches Config.fcsFn c (s.fbuf c ch) ch
    have hbytes : (Lane.lookRegion c (s.fbuf c ch) ch.base ch.len.toNat 0 ⟨ch, []⟩).1 =
        (List.range ch.len.toNat).map fun j => (s.fbuf c ch).lookAt c
          (ch.draws + disturbedCount (s.fbuf c ch) ch.base j 0) (ea ch.base j) := by
      rw [Lane.lookRegion_bytes]
      simp only [Nat.zero_add, Fbuf.lookAt]
    simp only [hlook, hdrawn, ea] at hbytes hdraws
    refine ⟨_, _, step_engine hch (l := Lane.fcsArrives Config.fcsFn c (s.fbuf c ch) ⟨ch, []⟩) ?_,
      State.channel?_putLane_self (s := { s with sched := ts }) _ hch, ?_⟩
    · simp [engineMove, Lane.serve, hasked]
    · exact ⟨hfcs.trans (congrArg Config.fcsFn hbytes), by rw [State.putLane_trace, hout, hfcs]; rfl, hdraws⟩

end Sys2Proof.Machine
end

section
/-! Proofs of the whole-block rules: no step stops from a legal state (60_exceptions R156, R159), words and responses
balance (00_scope R14), engines keep to themselves and commute (10_state R23; 20_memory R52), phases advance in order
(10_state R27), and the frame buffer and the read windows are the host's (20_memory R40, R50). -/

namespace Sys2Proof.Machine

/-! ## Every legal state steps (R156, R159) -/

theorem serveHead_answers (s : State) : ∃ t, serveHead s = .next t := by
  rcases serveHead_cases s with h | ⟨c, st, -, -, h⟩ | ⟨f, i, ch, hi, -, hready, h⟩
  · exact ⟨_, h⟩
  · exact ⟨_, h⟩
  · obtain ⟨l, hl, -⟩ := exec_command_ready hi hready
    exact ⟨_, h.trans hl⟩

theorem State.Inv.engineTurn_answers {s : State} (h : s.Inv) (fcsFn : List Byte → BitVec 16) (m : Move) (c : ChanId) :
    ∃ t, engineTurn fcsFn m c s = .next t := by
  cases hch : s.channel? c with
  | none => exact ⟨s, engineTurn_none hch⟩
  | some ch =>
    obtain ⟨l, hl, -⟩ := engineMove_lawful (fcsFn := fcsFn) (fb := s.fbuf c ch) (h.channel hch) m
    exact ⟨_, engineTurn_some hch hl⟩

/-- A legal engine's slot holds a word its sequencer issued, which no turn refuses (R64). -/
theorem Channel.Inv.slotWord_ok {c : ChanId} {ch : Channel} {w : UopWord} (h : ch.Inv c) (hslot : ch.uop = some w) :
    ∃ k x, slotWord c w = .ok (k, x) := by
  rcases h.slot_cases with hu | hu | ⟨x, hu⟩ <;> cases hslot.symm.trans hu
  · exact ⟨_, _, slotWord_ctrl c _⟩
  · exact ⟨_, _, slotWord_data c x⟩

theorem State.Inv.uopTurn_answers {s : State} (h : s.Inv) (fcsFn : List Byte → BitVec 16) {c : ChanId}
    (hc : c.toNat < s.nchan) : ∃ t, uopTurn fcsFn c s = .next t := by
  cases hch : s.channel? c with
  | none => exact absurd ((State.channel?_none_iff s c).mp hch) (not_le.mpr hc)
  | some ch =>
    cases hslot : ch.uop with
    | none => exact ⟨s, by simp only [uopTurn, hch, hslot]⟩
    | some w =>
      obtain ⟨k, x, hword⟩ := (h.channel hch).slotWord_ok hslot
      simp only [uopTurn, hch, hslot, hword]
      split
      · rw [exec_uopInstr, serveUop_some _ hch]; exact ⟨_, rfl⟩
      · exact h.engineTurn_answers fcsFn _ c

/-- Settles O45: no turn of a legal block is refused, and there is no fault. -/
theorem legalStatesAlwaysStep : Obligations.LegalStatesAlwaysStep := by
  intro s h huop
  cases hsched : s.sched with
  | nil => rw [step_of_sched_nil hsched]; exact serveHead_answers _
  | cons turn ts =>
    rw [step_of_sched_cons hsched]
    cases turn with
    | command => exact serveHead_answers _
    | accept => exact ⟨_, rfl⟩
    | engine m c => exact h.popTurn.engineTurn_answers _ m c
    | uop c => exact h.popTurn.uopTurn_answers _ (huop c ts hsched)
    | host => exact ⟨_, rfl⟩
    | assertRst => exact ⟨_, rfl⟩
    | releaseRst => exact ⟨_, rfl⟩

/-! ## One response for each word (R14) -/

/-- From `s` to `t` the words taken and the responses sent or owed grow alike (R14). -/
def State.Balanced (s t : State) : Prop :=
  t.wordsTaken + s.responsesSent + s.responsesOwed = s.wordsTaken + t.responsesSent + t.responsesOwed

/-- A lane put back keeps the balance if its words and its responses make up for the change of `busy`. -/
theorem State.balanced_putLane {s : State} {c : ChanId} {ch : Channel} {l : Lane} (hch : s.channel? c = some ch)
    (hl : l.out.countP Event.isCmd + ch.busy.toNat = l.out.countP Event.isResp + l.ch.busy.toNat) :
    s.Balanced (s.putLane c l) := by
  have howed := responsesOwed_putLane l hch
  simp only [State.Balanced, wordsTaken_eq, responsesSent_eq, State.putLane_trace, List.countP_append]
  omega

/-- A handshake takes no word and sends no response (R14). -/
theorem Lane.Lawful.balanced {c : ChanId} {ch : Channel} {l : Lane} (h : Lane.Lawful c ch l) :
    l.out.countP Event.isCmd + ch.busy.toNat = l.out.countP Event.isResp + l.ch.busy.toNat := by
  obtain ⟨-, -, hbusy, hcmd, hresp⟩ := h
  rw [hbusy, hcmd, hresp]

theorem State.responsesOwed_hostWrite (a : Addr) (v : Byte) (s : State) :
    (s.hostWrite a v).responsesOwed = s.responsesOwed := by
  simp [State.responsesOwed, List.countP_map, Function.comp_def]

/-- Settles O47: a rejection is answered or owed, a command makes its engine busy until its response. -/
theorem oneResponsePerWord : Obligations.OneResponsePerWord := by
  intro s t h hstep hnorst
  change s.Balanced t
  cases step_cases hstep with
  | waits => exact rfl
  | rejects c st hrst =>
    simp only [State.Balanced, wordsTaken_eq, responsesSent_eq, State.responsesOwed, State.reject_trace,
      State.reject_rejections, State.reject_channels, State.popTurn_trace, State.popTurn_rejections,
      State.popTurn_channels, List.countP_cons, Event.isCmd_cmd, Event.isCmd_resp, Event.isResp_cmd, Event.isResp_resp]
    simp only [if_true, if_false, Bool.false_eq_true]
    omega
  | runs hi hready hexec =>
    have ⟨_, hch, hidle⟩ := hready
    obtain ⟨l, hl, -, hbusy, -, hcmd, hresp⟩ := exec_command_lawful hi hready (h.channel hch)
    cases hexec.symm.trans hl
    exact State.balanced_putLane (s := s.popTurn.popCmd) hch (by rw [hcmd, hresp, hidle, hbusy])
  | owes c st =>
    simp only [State.Balanced, wordsTaken_eq, responsesSent_eq, State.responsesOwed, State.rejectLater_trace,
      State.rejectLater_rejections, State.rejectLater_channels, State.popTurn_trace, State.popTurn_rejections,
      State.popTurn_channels, List.countP_cons, Event.isCmd_cmd, Event.isResp_cmd, List.length_append,
      List.length_singleton]
    simp only [if_true, if_false, Bool.false_eq_true]
    omega
  | accepts hsched hdec hready =>
    have ⟨_, hch, hidle⟩ := hready
    obtain ⟨hi, -⟩ := decodeCmd_mem hdec
    obtain ⟨-, hbusy, -⟩ := Channel.Inv.start hi (h.channel hch)
    exact State.balanced_putLane (s := s.popTurn.popCmd) hch (by rw [hidle, hbusy]; rfl)
  | moves hturn hch hmove =>
    exact State.balanced_putLane (s := s.popTurn) hch (lawful_of_engineMove (h.channel hch) hmove).balanced
  | runsUop hturn hch hslot hword hpos howed =>
    exact State.balanced_putLane (s := s.popTurn) hch (uopLane_lawful (h.channel hch) hslot hword hpos howed).balanced
  | offers w hs => exact rfl
  | @writes ts a v hs hsched hhost =>
    have howed := State.responsesOwed_hostWrite a v { s.popTurn with host := hs }
    rw [State.Balanced, howed]; rfl
  | @responds ts c hs ch hsched hhost hch hphase =>
    have hbusy : ch.busy = true := (h.channel hch).busy_iff.mpr (by rw [hphase]; decide)
    exact State.balanced_putLane (s := { s.popTurn with host := hs }) hch (by rw [hbusy]; rfl)
  | @answers k r hs hrej =>
    have hk : k < s.rejections.length := (List.getElem?_eq_some_iff.mp hrej).1
    have hlen := List.length_eraseIdx_of_lt hk
    simp only [State.Balanced, wordsTaken_eq, responsesSent_eq, State.responsesOwed, State.popTurn_channels, hlen,
      List.countP_cons, Event.isCmd_resp, Event.isResp_resp]
    simp only [if_true, if_false, Bool.false_eq_true]
    omega
  | assertsRst hsched => exact absurd hsched (hnorst _)
  | releasesRst => exact rfl

/-! ## Engines keep to themselves (R23) -/

/-- What putting back a lane of engine `c` leaves alone: the other engines, and the levels they sent (R23). -/
theorem State.putLane_frame {c d : ChanId} {l : Lane} (hcd : c ≠ d) (hon : ∀ e ∈ l.out, e.on c) (s : State) :
    (s.putLane c l).channel? d = s.channel? d ∧ sentLevels d (s.putLane c l).trace = sentLevels d s.trace := by
  rw [State.putLane_trace, sentLevels_append, sentLevels_ne c d l.out hcd hon, List.append_nil]
  exact ⟨State.channel?_putLane_ne l hcd, rfl⟩

/-- An engine's turn, of either kind, leaves the block as it is or puts one lane of that engine back. -/
theorem engineOrUop_next {c : ChanId} {s t : State}
    (h : (∃ m, engineTurn Config.fcsFn m c s = .next t) ∨ uopTurn Config.fcsFn c s = .next t) :
    t = s ∨ ∃ l : Lane, t = s.putLane c l ∧ ∀ e ∈ l.out, e.on c := by
  have hengine : ∀ m, engineTurn Config.fcsFn m c s = .next t →
      t = s ∨ ∃ l : Lane, t = s.putLane c l ∧ ∀ e ∈ l.out, e.on c := by
    intro m hm
    rcases engineTurn_next hm with ⟨-, rfl⟩ | ⟨ch, l, -, hl, rfl⟩
    · exact .inl rfl
    · exact .inr ⟨l, rfl, (engineMove_tracks hl).1⟩
  rcases h with ⟨m, hm⟩ | huop
  · exact hengine m hm
  · rcases uopTurn_next huop with rfl | hbit | ⟨ch, w, k, x, -, -, -, -, -, rfl⟩
    · exact .inl rfl
    · exact hengine _ hbit
    · exact .inr ⟨_, rfl, (uopLane_tracks c k x ch).1⟩

/-- Settles O48: the turn puts back at most one lane, which is engine `c`'s. -/
theorem engineMovesStayOnTheirChannel : Obligations.EngineMovesStayOnTheirChannel := by
  intro s t m c d ts hcd hstep
  have hturn : (∃ m, engineTurn Config.fcsFn m c { s with sched := ts } = .next t) ∨
      uopTurn Config.fcsFn c { s with sched := ts } = .next t := hstep.imp (fun h => ⟨m, h⟩) id
  rcases engineOrUop_next hturn with rfl | ⟨l, rfl, hon⟩
  · exact ⟨rfl, rfl, rfl, rfl, rfl, rfl, rfl⟩
  · obtain ⟨hch, hlevels⟩ := State.putLane_frame hcd hon { s with sched := ts }
    exact ⟨hch, rfl, rfl, rfl, rfl, rfl, hlevels⟩

/-- Everything a command can do: wait, be rejected, or put its engine's lane back. -/
theorem exec_command_next {s t : State} {f : CmdFields} {i : Instr} (hi : i ∈ commandsOf f)
    (hexec : exec i s = .next t) :
    t = s ∨ t = s.reject f.chan .badChan ∨ ∃ l : Lane, t = s.popCmd.putLane f.chan l ∧ ∀ e ∈ l.out, e.on f.chan := by
  obtain ⟨op, run, hserve⟩ := exec_command hi
  rcases serveCommand_cases op f run s with h | ⟨-, -, h⟩ | ⟨ch, hready, -⟩
  · cases hexec.symm.trans ((hserve s).trans h); exact .inl rfl
  · cases hexec.symm.trans ((hserve s).trans h); exact .inr (.inl rfl)
  · obtain ⟨l, hl, htracks⟩ := exec_command_ready hi hready
    cases hexec.symm.trans hl; exact .inr (.inr ⟨l, rfl, htracks.1⟩)

theorem exec_command_frame {s t : State} {f : CmdFields} {i : Instr} {d : ChanId} (hi : i ∈ commandsOf f)
    (hexec : exec i s = .next t) (hd : f.chan ≠ d) :
    t.channel? d = s.channel? d ∧ t.mem = s.mem ∧ t.rejections = s.rejections ∧ t.rst = s.rst ∧
      t.sched = s.sched ∧ t.host = s.host ∧ sentLevels d t.trace = sentLevels d s.trace := by
  rcases exec_command_next hi hexec with rfl | rfl | ⟨l, rfl, hon⟩
  · exact ⟨rfl, rfl, rfl, rfl, rfl, rfl, rfl⟩
  · exact ⟨rfl, rfl, rfl, rfl, rfl, rfl, by simp⟩
  · obtain ⟨hch, hlevels⟩ := State.putLane_frame hd hon s.popCmd
    exact ⟨hch, rfl, rfl, rfl, rfl, rfl, hlevels⟩

theorem serveUop_frame {s t : State} {c d : ChanId} {run : ChanId → Lane → Lane}
    (hrun : ∀ ch : Channel, ∀ e ∈ (run c ⟨ch, []⟩).out, e.on c) (hexec : serveUop c run s = .next t) (hcd : c ≠ d) :
    t.channel? d = s.channel? d ∧ t.mem = s.mem ∧ t.rejections = s.rejections ∧ t.rst = s.rst ∧
      t.sched = s.sched ∧ t.host = s.host ∧ sentLevels d t.trace = sentLevels d s.trace := by
  cases hch : s.channel? c with
  | none => rw [serveUop_none run hch] at hexec; cases hexec
  | some ch =>
    cases hexec.symm.trans (serveUop_some run hch)
    obtain ⟨hd, hlevels⟩ := State.putLane_frame hcd (hrun _) s
    exact ⟨hd, rfl, rfl, rfl, rfl, rfl, hlevels⟩

/-- Settles O49: every instruction puts back at most one lane, that of the channel it names. -/
theorem commandsStayOnTheirChannel : Obligations.CommandsStayOnTheirChannel := by
  intro s t i d hexec hd
  cases i with
  | sendFrame f => exact exec_command_frame (f := f) (by simp [commandsOf]) hexec hd
  | sendFlags f => exact exec_command_frame (f := f) (by simp [commandsOf]) hexec hd
  | l2Send f => exact exec_command_frame (f := f) (by simp [commandsOf]) hexec hd
  | uopBit c b =>
    exact serveUop_frame (run := fun c l => l.sendBit c b) (fun ch => ((Lane.Tracks.start c ch).sendBit b).1) hexec hd
  | uopCtrl c x =>
    exact serveUop_frame (run := fun c l => l.sendCtrl c x) (fun ch => ((Lane.Tracks.start c ch).sendCtrl x).1) hexec hd
  | uopData c x =>
    exact serveUop_frame (run := fun c l => l.sendData c x) (fun ch => ((Lane.Tracks.start c ch).sendData x).1) hexec hd

/-! ## Engines commute (R52) -/

/-- An absent engine has nothing to put back. -/
theorem State.putLane_absent {s : State} {c : ChanId} (h : s.channel? c = none) (ch : Channel) :
    s.putLane c ⟨ch, []⟩ = s := by
  have hlen : s.channels.length ≤ c.toNat := (State.channel?_none_iff s c).mp h
  simp [State.putLane, List.set_eq_of_length_le hlen]

/-- What an engine's handshake puts back depends on its own state, the frame buffer and the host's script alone. -/
theorem engineTurn_local {fcsFn : List Byte → BitVec 16} {m : Move} {c : ChanId} {s t : State}
    (h : engineTurn fcsFn m c s = .next t) :
    ∃ l : Lane, t = s.putLane c l ∧ ∀ s' : State, s'.channel? c = s.channel? c → s'.mem = s.mem → s'.host = s.host →
      engineTurn fcsFn m c s' = .next (s'.putLane c l) := by
  rcases engineTurn_next h with ⟨hnone, rfl⟩ | ⟨ch, l, hch, hl, rfl⟩
  · refine ⟨⟨Channel.reset c, []⟩, (State.putLane_absent hnone _).symm, fun s' hc _ _ => ?_⟩
    rw [State.putLane_absent (hc.trans hnone)]
    exact engineTurn_none (hc.trans hnone)
  · refine ⟨l, rfl, fun s' hc hmem hhost => engineTurn_some (hc.trans hch) ?_⟩
    have hfb : s'.fbuf c ch = s.fbuf c ch := by simp only [State.fbuf, hmem, hhost]
    rw [hfb]; exact hl

/-- Lanes of two engines may be put back in either order, but for the order of their transfers (R52). -/
theorem State.putLane_comm {c d : ChanId} (hcd : c ≠ d) (l p : Lane) (s : State) :
    (s.putLane d p).putLane c l =
      { (s.putLane c l).putLane d p with trace := l.out ++ p.out ++ s.trace } := by
  have hne : d.toNat ≠ c.toNat := fun h => hcd (BitVec.eq_of_toNat_eq h.symm)
  simp [State.putLane, List.set_comm _ _ hne]

/-- Settles O50: neither engine's lane depends on the other's having been put back. -/
theorem enginesCommute : Obligations.EnginesCommute := by
  intro s t m n c d ts hcd hrun
  obtain ⟨u, hfirst, hrest⟩ := run_succ hrun
  obtain ⟨l, rfl, hl⟩ := engineTurn_local (c := c) (s := { s with sched := .engine n d :: ts }) hfirst
  obtain ⟨v, hsecond, hdone⟩ := run_succ hrest
  cases hdone
  obtain ⟨p, rfl, hp⟩ := engineTurn_local (c := d) (s := ({ s with sched := ts } : State).putLane c l) hsecond
  have hD : step { s with sched := .engine n d :: .engine m c :: ts } =
      .next (({ s with sched := .engine m c :: ts } : State).putLane d p) :=
    hp _ (State.channel?_putLane_ne (s := { s with sched := ts }) l hcd).symm rfl rfl
  have hC : step (({ s with sched := .engine m c :: ts } : State).putLane d p) =
      .next ((({ s with sched := ts } : State).putLane d p).putLane c l) :=
    hl _ (State.channel?_putLane_ne (s := { s with sched := ts }) p hcd.symm) rfl rfl
  refine ⟨_, l.out, p.out, (run_next (k := 1) hD).trans (run_next (k := 0) hC), by simp, ?_⟩
  exact State.putLane_comm hcd l p { s with sched := ts }

/-! ## Phases advance in order (R27) -/

/-- After a lane of engine `d` is put back, engine `c` is that lane's, or is what it was. -/
theorem State.channel?_putLane_cases {s : State} {c d : ChanId} {ch ch' dh : Channel} {l : Lane}
    (hch : s.channel? c = some ch) (hdh : s.channel? d = some dh) (hch' : (s.putLane d l).channel? c = some ch') :
    (d = c ∧ dh = ch ∧ ch' = l.ch) ∨ ch' = ch := by
  by_cases hdc : d = c
  · subst hdc
    rw [State.channel?_putLane_self l hch] at hch'
    exact .inl ⟨rfl, Option.some.inj (hdh.symm.trans hch), (Option.some.inj hch').symm⟩
  · rw [State.channel?_putLane_ne l hdc, hch] at hch'
    exact .inr (Option.some.inj hch').symm

theorem Channel.Inv.idle_of_not_busy {c : ChanId} {ch : Channel} (h : ch.Inv c) (hbusy : ch.busy = false) :
    ch.phase = .idle := by
  by_contra hp
  rw [h.busy_iff.mpr hp] at hbusy
  cases hbusy

/-- Settles O51: a lawful handshake advances its engine, acceptance starts one, the response ends one. -/
theorem phasesAdvanceInOrder : Obligations.PhasesAdvanceInOrder := by
  intro s t c ch ch' h hstep hnorst hch hch'
  cases step_cases hstep with
  | waits => cases hch.symm.trans hch'; exact .inl rfl
  | rejects d st hrst => cases hch.symm.trans hch'; exact .inl rfl
  | runs hi hready hexec =>
    have ⟨_, hdh, hidle⟩ := hready
    obtain ⟨l, hl, -, -, hphase, -⟩ := exec_command_lawful hi hready (h.channel hdh)
    cases hexec.symm.trans hl
    rcases State.channel?_putLane_cases (s := s.popTurn.popCmd) hch hdh hch' with ⟨rfl, rfl, rfl⟩ | rfl
    · exact .inl (hphase.trans ((h.channel hdh).idle_of_not_busy hidle).symm)
    · exact .inl rfl
  | owes d st => cases hch.symm.trans hch'; exact .inl rfl
  | accepts hsched hdec hready =>
    have ⟨_, hdh, hidle⟩ := hready
    rcases State.channel?_putLane_cases (s := s.popTurn.popCmd) hch hdh hch' with ⟨rfl, rfl, rfl⟩ | rfl
    · obtain ⟨hi, -⟩ := decodeCmd_mem hdec
      obtain ⟨-, -, hfirst⟩ := Channel.Inv.start hi (h.channel hdh)
      exact .inr (.inr (.inl ⟨⟨_, hsched⟩, (h.channel hdh).idle_of_not_busy hidle, hfirst⟩))
    · exact .inl rfl
  | moves hturn hdh hmove =>
    rcases State.channel?_putLane_cases (s := s.popTurn) hch hdh hch' with ⟨rfl, rfl, rfl⟩ | rfl
    · obtain ⟨-, hphase, -⟩ := lawful_of_engineMove (h.channel hdh) hmove
      exact hphase.imp_right fun hnext => .inl ⟨hturn, hnext⟩
    · exact .inl rfl
  | runsUop hturn hdh hslot hword hpos howed =>
    rcases State.channel?_putLane_cases (s := s.popTurn) hch hdh hch' with ⟨rfl, rfl, rfl⟩ | rfl
    · obtain ⟨-, hphase, -⟩ := uopLane_lawful (h.channel hdh) hslot hword hpos howed
      exact hphase.imp_right fun hnext => .inl ⟨hturn, hnext⟩
    · exact .inl rfl
  | offers w hs => cases hch.symm.trans hch'; exact .inl rfl
  | writes hsched hhost =>
    rw [State.channel?_hostWrite] at hch'
    obtain ⟨dh, hdh, rfl⟩ := Option.map_eq_some_iff.mp hch'
    cases hch.symm.trans hdh
    exact .inl (Channel.sawWrite_phase _ _)
  | @responds ts d hs dh hsched hhost hdh hphase =>
    rcases State.channel?_putLane_cases (s := { s.popTurn with host := hs }) hch hdh hch' with ⟨rfl, rfl, rfl⟩ | rfl
    · exact .inr (.inr (.inr ⟨⟨_, hsched⟩, ⟨_, hhost⟩, hphase, rfl⟩))
    · exact .inl rfl
  | answers hs hrej => cases hch.symm.trans hch'; exact .inl rfl
  | assertsRst hsched => exact absurd hsched (hnorst _)
  | releasesRst => cases hch.symm.trans hch'; exact .inl rfl

/-! ## The frame buffer is the host's (R40) -/

/-- Settles O52: of the things a step can do only a host write touches the frame buffer. -/
theorem onlyTheHostWritesTheBuffer : Obligations.OnlyTheHostWritesTheBuffer := by
  refine fun s hwf => ⟨fun a b v hs ts t hstep => ?_, fun t hstep hnowrite => ?_⟩
  · cases hstep
    exact Memory.byteAt_set s.mem a b v hwf
  · cases step_cases hstep with
    | runs hi hready hexec =>
      obtain ⟨l, hl, -⟩ := exec_command_ready hi hready
      cases hexec.symm.trans hl
      rfl
    | writes hsched hhost => exact absurd ⟨⟨_, hsched⟩, _, _, _, hhost⟩ hnowrite
    | _ => rfl

/-! ## `RST` (R170, R171) -/

/-- Settles O54: `Channel.afterRst` is the reset engine but for what the environment holds. -/
theorem resetAbandonsCommands : Obligations.ResetAbandonsCommands := by
  refine fun s ts => ⟨_, rfl, rfl, rfl, rfl, rfl, rfl, rfl, length_resetChannels 0 s.channels, fun c ch hch => ?_⟩
  have hafter := State.channel?_assertRst { s with sched := ts } c
  exact ⟨ch.afterRst c, hafter.trans (congrArg (Option.map (Channel.afterRst c)) hch),
    rfl, rfl, rfl, rfl, rfl, rfl, rfl, rfl⟩

/-! ## Read windows (R50, R175) -/

/-- What a step may do to the record of an open read window, and to that of an engine without one (R50). -/
def Channel.KeepsWindow (ch ch' : Channel) : Prop :=
  (ch.busy = true → ch'.busy = true → ∀ a ∈ ch.unstable, a ∈ ch'.unstable) ∧ (ch.busy = false → ch'.unstable = [])

theorem Channel.Inv.window_of_not_busy {c : ChanId} {ch : Channel} (h : ch.Inv c) (hbusy : ch.busy = false) :
    ch.unstable = [] := h.window (h.idle_of_not_busy hbusy)

theorem Channel.Inv.keepsWindow_of_eq {c : ChanId} {ch ch' : Channel} (h : ch.Inv c)
    (heq : ch'.unstable = ch.unstable) :
    ch.KeepsWindow ch' :=
  ⟨fun _ _ _ ha => heq ▸ ha, fun hbusy => heq.trans (h.window_of_not_busy hbusy)⟩

theorem Channel.Inv.keepsWindow_sawWrite {c : ChanId} {ch : Channel} (h : ch.Inv c) (a : Addr) :
    ch.KeepsWindow (ch.sawWrite a) := by
  unfold Channel.sawWrite
  split
  · next hopen =>
    refine ⟨fun _ _ b hb => List.mem_cons_of_mem a hb, fun hbusy => ?_⟩
    simp [hbusy] at hopen
  · exact h.keepsWindow_of_eq rfl

/-- A micro-operation that runs whole is no host write (R50). -/
theorem uopLane_unstable {c : ChanId} {ch : Channel} (k : UopKind) (x : Byte) (hrun : ch.stuffRun.toNat ≤ 4) :
    (uopLane c k x ch).ch.unstable = ch.unstable := by
  refine (Channel.uopDone_unstable _).trans ?_
  cases k with
  | bit => rfl
  | ctrl => rw [uopRun, Lane.sendCtrl_eq]; rfl
  | data => rw [uopRun, Lane.sendData_eq _ _ _ hrun]; rfl

theorem StepTo.keepsWindow {s t : State} {c : ChanId} {ch ch' : Channel} (hto : StepTo s t) (h : s.Inv)
    (hch : s.channel? c = some ch) (hch' : t.channel? c = some ch') : ch.KeepsWindow ch' := by
  have hinv := h.channel hch
  have hsame := hinv.keepsWindow_of_eq rfl
  cases hto with
  | waits => cases hch.symm.trans hch'; exact hsame
  | rejects d st hrst => cases hch.symm.trans hch'; exact hsame
  | runs hi hready hexec =>
    have ⟨_, hdh, hidle⟩ := hready
    obtain ⟨l, hl, hlinv, hbusy, -⟩ := exec_command_lawful hi hready (h.channel hdh)
    cases hexec.symm.trans hl
    rcases State.channel?_putLane_cases (s := s.popTurn.popCmd) hch hdh hch' with ⟨rfl, rfl, rfl⟩ | rfl
    · exact ⟨fun hb => by simp [hidle] at hb, fun _ => hlinv.window_of_not_busy hbusy⟩
    · exact hsame
  | owes d st => cases hch.symm.trans hch'; exact hsame
  | accepts hsched hdec hready =>
    have ⟨_, hdh, hidle⟩ := hready
    rcases State.channel?_putLane_cases (s := s.popTurn.popCmd) hch hdh hch' with ⟨rfl, rfl, rfl⟩ | rfl
    · exact ⟨fun hb => by simp [hidle] at hb, fun _ => Channel.start_unstable hdec _ _⟩
    · exact hsame
  | moves hturn hdh hmove =>
    rcases State.channel?_putLane_cases (s := s.popTurn) hch hdh hch' with ⟨rfl, rfl, rfl⟩ | rfl
    · exact hinv.keepsWindow_of_eq (engineMove_unstable hmove)
    · exact hsame
  | runsUop hturn hdh hslot hword hpos howed =>
    rcases State.channel?_putLane_cases (s := s.popTurn) hch hdh hch' with ⟨rfl, rfl, rfl⟩ | rfl
    · exact hinv.keepsWindow_of_eq (uopLane_unstable _ _ hinv.run)
    · exact hsame
  | offers w hs => cases hch.symm.trans hch'; exact hsame
  | writes hsched hhost =>
    rw [State.channel?_hostWrite] at hch'
    obtain ⟨dh, hdh, rfl⟩ := Option.map_eq_some_iff.mp hch'
    cases hch.symm.trans hdh
    exact hinv.keepsWindow_sawWrite _
  | @responds ts d hs dh hsched hhost hdh hphase =>
    rcases State.channel?_putLane_cases (s := { s.popTurn with host := hs }) hch hdh hch' with ⟨rfl, rfl, rfl⟩ | rfl
    · exact ⟨fun _ hb => absurd hb Bool.false_ne_true, fun _ => rfl⟩
    · exact hsame
  | answers hs hrej => cases hch.symm.trans hch'; exact hsame
  | assertsRst hsched =>
    rw [State.channel?_assertRst] at hch'
    obtain ⟨dh, -, rfl⟩ := Option.map_eq_some_iff.mp hch'
    exact ⟨fun _ hb => absurd hb Bool.false_ne_true, fun _ => rfl⟩
  | releasesRst => cases hch.symm.trans hch'; exact hsame

/-- The region of a command, byte by byte, with wrap (R42). -/
theorem inRegion_iff (base : Addr) (len : BitVec 16) (a : Addr) :
    inRegion base len a = true ↔ ∃ i < len.toNat, a = base + BitVec.ofNat 16 i := by
  rw [inRegion, decide_eq_true_iff]
  constructor
  · intro h
    exact ⟨_, h, by rw [BitVec.ofNat_toNat, BitVec.setWidth_eq, BitVec.add_comm, BitVec.sub_add_cancel]⟩
  · rintro ⟨i, hi, rfl⟩
    have hlen := len.isLt
    rw [BitVec.add_comm, BitVec.add_sub_cancel, BitVec.toNat_ofNat, Nat.mod_eq_of_lt (by omega)]
    exact hi

/-- What a host write to `a` adds to an engine's record (R41, R50). -/
theorem Channel.mem_sawWrite (a : Addr) (ch : Channel) :
    a ∈ (ch.sawWrite a).unstable ↔ a ∈ ch.unstable ∨
      (ch.busy = true ∧ ch.op ≠ 2#4 ∧ ∃ i < ch.len.toNat, a = ch.base + BitVec.ofNat 16 i) := by
  have hopen : (ch.busy && (ch.op != opSendFlags) && inRegion ch.base ch.len a) = true ↔
      ch.busy = true ∧ ch.op ≠ 2#4 ∧ ∃ i < ch.len.toNat, a = ch.base + BitVec.ofNat 16 i := by
    rw [Bool.and_eq_true, Bool.and_eq_true, bne_iff_ne, inRegion_iff, and_assoc]; rfl
  rw [← hopen]
  unfold Channel.sawWrite
  split
  · next h => exact iff_of_true List.mem_cons_self (.inr h)
  · next h => exact ⟨.inl, fun hmem => hmem.resolve_right h⟩

/-- Settles O60: every step keeps the windows, a legal idle engine has none, and a write adds its byte to the open
ones. -/
theorem readWindowKeepsItsWrites : Obligations.ReadWindowKeepsItsWrites := by
  refine ⟨fun s t c ch ch' h hstep hch hch' => ?_, fun s a v hs ts => ⟨_, rfl, rfl, fun c ch hch => ?_⟩⟩
  · obtain ⟨hkept, hnone⟩ := (step_cases hstep).keepsWindow h hch hch'
    exact ⟨hkept, ((stepKeepsLegalStates s t h hstep).channel hch').window_of_not_busy, hnone⟩
  · have hwrite := State.channel?_hostWrite a v { s with sched := ts, host := hs } c
    exact ⟨ch.sawWrite a, hwrite.trans (congrArg (Option.map (Channel.sawWrite a)) hch), Channel.mem_sawWrite a ch⟩

end Sys2Proof.Machine
end

section
/-! Proof that the two granularities agree (40_bit_level R80; 70 R182, R183): acceptance, the handshakes of
`Finishes` and the host's taking of the response end where the atomic step ends. -/

namespace Sys2Proof.Machine

/-! ## How many transfers a command makes (R34, R182) -/

theorem length_frameSent_le (f : CmdFields) (m : Memory) (v : Bool) :
    (frameSent f m v).length ≤ 629171 + 2 * 65535 + 3 := by
  have hlen := f.len.isLt
  have hraw := length_frameRaw_le (m.region f.base f.len.toNat 0) f.bf
    (Config.fcsFn (m.region f.base f.len.toNat 0)) (by rw [length_region]; omega)
  rw [frameSent, List.length_cons, List.length_reverse, length_frameTransfers]
  omega

/-- A command makes at most a frame's transfers and six more: acceptance, an encapsulation's two, a warning, a flush's
two, the response (R182). -/
theorem exec_command_length_le {s : State} {f : CmdFields} {ch : Channel} {i : Instr} {l : Lane} (hi : i ∈ commandsOf f)
    (hready : s.ready f.chan ch) (hexec : exec i s = .next (s.popCmd.putLane f.chan l)) :
    l.out.length ≤ 629171 + 2 * 65535 + 7 := by
  have hframe := length_frameSent_le f s.mem ch.lineLevel
  have hout : ∀ {l' : Lane}, exec i s = .next (s.popCmd.putLane f.chan l') → l.out = l'.out := by
    intro l' hl'
    have htrace := congrArg State.trace (Host.Outcome.next.inj (hexec.symm.trans hl'))
    exact List.append_cancel_right htrace
  simp only [commandsOf, List.mem_cons, List.not_mem_nil, or_false] at hi
  rcases hi with rfl | rfl | rfl
  · rw [hout (exec_sendFrame hready rfl)]
    simp only [frameSent, List.length_append, List.length_cons, List.length_nil] at hframe ⊢
    omega
  · have hlen := f.len.isLt
    rw [hout (exec_sendFlags hready)]
    cases f.fin <;> simp [txTransfers] <;> omega
  · by_cases hfxp : f.fxp = 0#8
    · rw [hout (exec_l2Send_plain hready hfxp rfl), List.length_append, List.length_singleton]
      omega
    · by_cases hans : 0 < (ch.fxAnswer f.chan).toInt
      · rw [hout (exec_l2Send_encapsulated hready hfxp hans)]
        simp
      · rw [hout (exec_l2Send_fallback hready hfxp (not_lt.mp hans) rfl), List.length_append]
        simp only [List.length_cons, List.length_nil]
        omega

/-! ## From acceptance to the response -/

/-- Every accepted command finishes, handshake by handshake, with the lane it ends with as one step (R183). -/
theorem exec_command_finishes {s : State} {f : CmdFields} {ch : Channel} {i : Instr} (hi : i ∈ commandsOf f)
    (hready : s.ready f.chan ch) :
    ∃ l : Lane, exec i s = .next (s.popCmd.putLane f.chan l) ∧
      Finishes Config.fcsFn f.chan ⟨s.mem, []⟩ ⟨ch.start f.chan i, [.cmd f.chan]⟩ l := by
  have hquiet : ∀ op, (ch.latch op f).Quiet := fun _ => ⟨⟨rfl, rfl, rfl⟩, rfl, rfl⟩
  simp only [commandsOf, List.mem_cons, List.not_mem_nil, or_false] at hi
  rcases hi with rfl | rfl | rfl
  · exact ⟨_, serveCommand_ready opSendFrame _ hready,
      Finishes.sendFrame (l := ⟨ch.latch opSendFrame f, [.cmd f.chan]⟩) (hquiet _) rfl rfl rfl⟩
  · exact ⟨_, serveCommand_ready opSendFlags (fun c _ l => l.sendFlags c) hready,
      Finishes.sendFlags (l := ⟨ch.latch opSendFlags f, [.cmd f.chan]⟩) (hquiet _) rfl rfl⟩
  · refine ⟨_, serveCommand_ready opL2Send (fun c fb l => l.l2Send Config.fcsFn c fb) hready, ?_⟩
    have hl2 := Finishes.l2Send (fcsFn := Config.fcsFn) (c := f.chan) (fb := ⟨s.mem, []⟩)
      (l := ⟨ch.latch opL2Send f, [.cmd f.chan]⟩) (hquiet _) rfl rfl rfl
    have hstart : (⟨ch.start f.chan (.l2Send f), [.cmd f.chan]⟩ : Lane) =
        if fxEnabled f.fxp then Lane.inPhase .fxWait ⟨ch.latch opL2Send f, [.cmd f.chan]⟩
        else Lane.onChannel (Channel.enterStartFlag f.chan) ⟨ch.latch opL2Send f, [.cmd f.chan]⟩ := by
      simp only [Channel.start]
      split <;> rfl
    rw [hstart]
    exact hl2

/-- The block with its head word taken, and a host that takes engine `c`'s response next (log 28). -/
def State.awaiting (c : ChanId) (s : State) : State := { s.popCmd with host := .takeResp c :: s.host }

/-- Acceptance, where the host's script goes on with taking the response (R70). -/
theorem step_accept_awaiting {s : State} {w : CmdWord} {ws : List CmdWord} {i : Instr} {ch : Channel}
    (hcmd : s.cmd = w :: ws) (hcl : classifyCmd s.nchan w = .ok i) (hready : s.ready i.chan ch) (ts : List Turn) :
    step { s with sched := .accept :: ts, host := .takeResp i.chan :: s.host } =
      .next (State.atLane i.chan ts (s.awaiting i.chan) ⟨ch.start i.chan i, [.cmd i.chan]⟩) :=
  congrArg Host.Outcome.next
    (acceptHead_ready (s := { s with sched := ts, host := .takeResp i.chan :: s.host }) hcmd hcl hready)

/-- The host takes the response of an engine in RESP: its lane is put back, and the script goes on (R14). -/
theorem step_host_awaiting {s : State} {c : ChanId} {l : Lane} (hc : c.toNat < s.nchan) (hphase : l.ch.phase = .resp) :
    step (State.atLane c [.host] (s.awaiting c) l) =
      .next (State.atLane c [] s.popCmd (l.respond c l.ch.respCount)) := by
  have hch : ({ State.atLane c [.host] (s.awaiting c) l with sched := [] } : State).channel? c = some l.ch := by
    have hlen : c.toNat < (s.awaiting c).channels.length := hc
    simp [State.channel?, State.atLane, hlen]
  refine congrArg Host.Outcome.next ((hostTurn_takeResp (hs := s.host)
    (s := { State.atLane c [.host] (s.awaiting c) l with sched := [] }) rfl hch hphase).trans ?_)
  simp [State.atLane, State.awaiting, State.putLane, State.popCmd, Lane.respond, Lane.emit]

/-- Settles O55: the handshakes are those of `Finishes`, each with a transfer, so no more than the command makes. -/
theorem bitGranularRunEqualsAtomicCommand : Obligations.BitGranularRunEqualsAtomicCommand := by
  intro s w ws i ch hcmd hsched hcl hready
  have ⟨_, hch, _⟩ := hready
  have hdec := (classifyCmd_ok hcl).1
  obtain ⟨hi, hchan⟩ := decodeCmd_mem hdec
  obtain ⟨l, hexec, m, ⟨ms, hreach⟩, hphase, rfl⟩ := exec_command_finishes hi (hchan ▸ hready)
  have hlength := exec_command_length_le hi (hchan ▸ hready) hexec
  rw [← hchan] at hexec hreach
  have hmoves := hreach.le
  simp only [Lane.respond, Lane.emit, List.length_cons, List.length_nil] at hlength hmoves
  have hc : i.chan.toNat < s.nchan := State.channel?_some_lt hch
  have haccept := step_accept_awaiting hcmd hcl hready (ms.map (Turn.engine · i.chan) ++ [.host])
  have hrun := run_reaches (s := s.awaiting i.chan) [.host] hreach hc (Channel.start_unstable hdec i.chan ch)
    (by simp [State.awaiting, writesInWindow]) 1
  have hhost := run_next (k := 0) (step_host_awaiting hc hphase)
  refine ⟨ms, by omega, (run_next haccept).trans (hrun.trans (hhost.trans ?_))⟩
  rw [hexec, hchan, State.atLane, ← hsched]; rfl

end Sys2Proof.Machine
end
